-- ==== Sys2Proof/Config.lean ====
section
/-! DEFINITION. What an implementation fixes, and the free values the spec leaves open. -/

namespace Sys2Proof.Config

/-- What the model records of the hardware's identity (R2): no ISA string, part number or vendor name exists. -/
structure Identity where
  name : String
  /-- The repository the block comes from. -/
  origin : String
  /-- The source document's revision, given by the person who commissioned the spec. -/
  revision : String
  /-- The file of spec/ that defines the one wire format; the stream itself holds no version field (R2, R3). -/
  wireFormat : String
deriving DecidableEq, Repr

/-- The identity of the block (R2).  No rule reads it. -/
def identity : Identity where
  name := "sim31/lzss CORE"
  origin := "sim31/lzss"
  revision := "v7"
  wireFormat := "30_encoding.md"

/-- `HB_MAX`, the largest `history_bits` supported (R8, 92_eei_decisions.md D19; default 31, log 21). -/
def hbMax : Nat := 31

/-- `MLB_MAX`, the largest `match_length_bits` supported (R8, D19; default 15, log 21). -/
def mlbMax : Nat := 15

/-- `TIE_LATEST` (93_implementation_defined.md U1): false is the tie rule of R89, the earliest longest match wins (log 21). -/
def tieLatest : Bool := false

/-- A free number: draw `k`, use `which`.  No body: nothing can evaluate it (U11, log 6; R99, log 35). -/
opaque freeNat (k which : Nat) : Nat

/-- Free buffer contents of draw `k` (U11, log 6). -/
opaque freeBytes (k : Nat) : List (BitVec 8)

/-- Free accumulator contents of draw `k` (U11, log 6). -/
opaque freeBits (k : Nat) : List Bool

end Sys2Proof.Config
end

