-- ==== Sys2Proof/Word.lean ====
section
/-! DEFINITION. The smallest data of the block: a byte and a run of stream bits (00_scope.md R9). -/

namespace Sys2Proof

/-- A byte is 8 bits, value 0 to 255 (R9). -/
abbrev Byte := BitVec 8

/-- A bit string in stream order, first bit first (R9). -/
abbrev Bits := List Bool

end Sys2Proof
end

