-- ==== Sys2Proof/Syntax.lean ====
section
/-! DEFINITION. The instructions: one constructor for each row of spec/opcode_table.json, in the table's order. -/

namespace Sys2Proof

/-- The host's one-bit command: 0 = ENCODE, 1 = DECODE (R22, R69). -/
inductive Cmd where
  | encode
  | decode
deriving DecidableEq, Repr

/-- The four error classes (R118 to R121). -/
inductive ErrorClass where
  | configurationError
  | truncatedInput
  | ioError
  | corruptStream
deriving DecidableEq, Repr

/-- One constructor for each row of spec/opcode_table.json. -/
inductive Instr where
  /-- HEADER (R57): `history_bits`, `match_length_bits`. -/
  | header (hb : BitVec 5) (mlb : BitVec 4)
  /-- PRIME_BYTE (R58). -/
  | primeByte (b : Byte)
  /-- LITERAL (R59). -/
  | literal (b : Byte)
  /-- REFERENCE (R60): `position` and `enc_len` = length - THR. -/
  | reference (pos encLen : Nat)
  /-- SENTINEL (R61). -/
  | sentinel
  /-- PAD (R62): `n` zero bits. -/
  | pad (n : Nat)
  /-- ENCODE (R94): CMD = 0 with a START action. -/
  | encode
  /-- DECODE (R104): CMD = 1 with a START action. -/
  | decode
  /-- BW_WRITE_BIT(b) (R71). -/
  | bwWriteBit (b : Bool)
  /-- BW_WRITE_BITS(n, v) (R72). -/
  | bwWriteBits (n v : Nat)
  /-- BW_WRITE_BYTE(b) (R73). -/
  | bwWriteByte (b : Byte)
  /-- BW_PAD() (R74). -/
  | bwPad
  /-- BW_FLUSH() (R75). -/
  | bwFlush
  /-- BR_READ_BIT() (R76). -/
  | brReadBit
  /-- BR_READ_BITS(n) (R77). -/
  | brReadBits (n : Nat)
  /-- BR_READ_BYTE() (R78). -/
  | brReadByte
  /-- HistPush(seg) (R80). -/
  | histPush (seg : List Byte)
  /-- SWR_CONSTRUCT() on the registers H and WC (R81). -/
  | swrConstruct
  /-- SWR_NEXT(m) (R82). -/
  | swrNext (m : Nat)
  /-- SWR_CURRENT() (R83). -/
  | swrCurrent
  /-- FIRST_MATCH(seq, sub) (R88). -/
  | firstMatch (seq sub : List Byte)
  /-- BEST_MATCH(seq, sub, thr, depth) (R89). -/
  | bestMatch (seq sub : List Byte) (thr depth : Nat)
  /-- E_SETUP (R95). -/
  | eSetup
  /-- E_WRITE_HEADER (R96). -/
  | eWriteHeader
  /-- E_PRIME_HISTORY (R97). -/
  | ePrimeHistory
  /-- E_EMIT_RECORD (R98). -/
  | eEmitRecord
  /-- EMIT_REFERENCE(p, l) (R99). -/
  | emitReference (p l : Nat)
  /-- EMIT_LITERAL(b) (R100). -/
  | emitLiteral (b : Byte)
  /-- E_WRITE_ENDING (R101). -/
  | eWriteEnding
  /-- E_FLUSH (R102). -/
  | eFlush
  /-- D_READ_HEADER (R105, R106). -/
  | dReadHeader
  /-- D_INIT (R107). -/
  | dInit
  /-- D_READ_RECORD (R108). -/
  | dReadRecord
  /-- READ_LITERAL (R109). -/
  | readLiteral
  /-- READ_REFERENCE (R110). -/
  | readReference
  /-- D_WRITE_DECODED on the segment `seg` (R111). -/
  | dWriteDecoded (seg : List Byte)
  /-- D_DONE (R114). -/
  | dDone
  /-- RAISE E (R122). -/
  | raise (e : ErrorClass)
deriving DecidableEq, Repr

end Sys2Proof
end

