-- ==== Sys2Proof/WellFormed.lean ====
section
/-! DEFINITION. The operand ranges the rules give, as decidable checks. -/

namespace Sys2Proof

/-- The largest `WC`, hence the longest match and the longest segment (R7). -/
def maxLength : Nat := 32773

/-- The operand ranges of each instruction that do not depend on the state. -/
def Instr.wf : Instr → Bool
  | .header hb mlb => decide (3 ≤ hb.toNat) && decide (2 ≤ mlb.toNat) && decide (mlb.toNat < hb.toNat)
  | .primeByte _ => true
  | .literal _ => true
  | .reference pos encLen => decide (pos < 2 ^ 31) && decide (encLen < 2 ^ 15)
  | .sentinel => true
  | .pad n => decide (n ≤ 7)
  | .encode => true
  | .decode => true
  | .bwWriteBit _ => true
  | .bwWriteBits n v => decide (1 ≤ n) && decide (n ≤ 32) && decide (v < 2 ^ n)
  | .bwWriteByte _ => true
  | .bwPad => true
  | .bwFlush => true
  | .brReadBit => true
  | .brReadBits n => decide (1 ≤ n) && decide (n ≤ 32)
  | .brReadByte => true
  | .histPush seg => decide (1 ≤ seg.length) && decide (seg.length ≤ maxLength)
  | .swrConstruct => true
  | .swrNext m => decide (1 ≤ m) && decide (m ≤ maxLength)
  | .swrCurrent => true
  | .firstMatch _ _ => true
  | .bestMatch _ _ _ depth => decide (depth < 2 ^ 32)
  | .eSetup => true
  | .eWriteHeader => true
  | .ePrimeHistory => true
  | .eEmitRecord => true
  | .emitReference p l => decide (p < 2 ^ 31) && decide (1 ≤ l) && decide (l ≤ maxLength)
  | .emitLiteral _ => true
  | .eWriteEnding => true
  | .eFlush => true
  | .dReadHeader => true
  | .dInit => true
  | .dReadRecord => true
  | .readLiteral => true
  | .readReference => true
  | .dWriteDecoded seg => decide (1 ≤ seg.length) && decide (seg.length ≤ maxLength)
  | .dDone => true
  | .raise _ => true

/-- A REFERENCE's fields fit the widths `HB` and `MLB` the header gave (R60); every other instruction fits any. -/
def Instr.fits (hb mlb : Nat) : Instr → Bool
  | .header _ _ => true
  | .primeByte _ => true
  | .literal _ => true
  | .reference pos encLen => decide (pos < 2 ^ hb) && decide (encLen < 2 ^ mlb)
  | .sentinel => true
  | .pad _ => true
  | .encode => true
  | .decode => true
  | .bwWriteBit _ => true
  | .bwWriteBits _ _ => true
  | .bwWriteByte _ => true
  | .bwPad => true
  | .bwFlush => true
  | .brReadBit => true
  | .brReadBits _ => true
  | .brReadByte => true
  | .histPush _ => true
  | .swrConstruct => true
  | .swrNext _ => true
  | .swrCurrent => true
  | .firstMatch _ _ => true
  | .bestMatch _ _ _ _ => true
  | .eSetup => true
  | .eWriteHeader => true
  | .ePrimeHistory => true
  | .eEmitRecord => true
  | .emitReference _ _ => true
  | .emitLiteral _ => true
  | .eWriteEnding => true
  | .eFlush => true
  | .dReadHeader => true
  | .dInit => true
  | .dReadRecord => true
  | .readLiteral => true
  | .readReference => true
  | .dWriteDecoded _ => true
  | .dDone => true
  | .raise _ => true

end Sys2Proof
end

