-- ==== Sys2Proof/Decode.lean ====
section
/-! DEFINITION. From stream bits to elements and back (30_encoding.md). -/

namespace Sys2Proof

/-- The `n`-bit unsigned field `v`, most significant bit first (R44, R72). -/
def fieldBits : Nat → Nat → Bits
  | 0, _ => []
  | n + 1, v => (v / 2 ^ n % 2 == 1) :: fieldBits n v

/-- The unsigned value of a field read most significant bit first, on from the value `v` (R77). -/
def fieldValFrom (v : Nat) : Bits → Nat
  | [] => v
  | b :: bs => fieldValFrom (2 * v + b.toNat) bs

/-- The unsigned value of a field read most significant bit first (R44). -/
def fieldVal (bs : Bits) : Nat := fieldValFrom 0 bs

/-- The 8 bits of a byte, bit 7 first (R44). -/
def byteBits (b : Byte) : Bits := fieldBits 8 b.toNat

/-- The byte whose bit 7 is the first of 8 bits (R44, R71). -/
def bitsByte (bs : Bits) : Byte := BitVec.ofNat 8 (fieldVal bs)

/-- The stream bits of a byte sequence (R44). -/
def bytesBits (l : List Byte) : Bits := l.flatMap byteBits

/-- Bits packed into bytes from bit 7 down, the last byte filled with zeros (R44); `fuel` bounds the bytes. -/
def packBits : Nat → Bits → List Byte
  | 0, _ => []
  | _ + 1, [] => []
  | fuel + 1, b :: bs => bitsByte (((b :: bs) ++ List.replicate 7 false).take 8) :: packBits fuel ((b :: bs).drop 8)

/-- Where in the stream the next bit stands: what decides, with one bit, which element it begins (R67). -/
inductive Slot where
  /-- Stream bit 0. -/
  | header
  /-- One of the `WC` bytes after the header. -/
  | prime
  /-- A record boundary, with the widths the header gave. -/
  | record (hb mlb : Nat)
  /-- After the SENTINEL. -/
  | ending
  /-- Not in the stream: the host's one-bit CMD register (R69). -/
  | command
deriving DecidableEq, Repr

/-- Why bits are no element, by name. -/
inductive DecodeError where
  /-- A record boundary with no bit left: the end of the stream (R67). -/
  | endOfStream
  /-- The source ends inside the 9 header bits (R65). -/
  | truncatedHeader
  /-- The source ends inside a priming byte (R65). -/
  | truncatedPrimeByte
  /-- The source ends inside a REFERENCE (R65). -/
  | truncatedReference
  /-- 8 or more bits follow a SENTINEL: that tag began a LITERAL (R67). -/
  | notAnEnding
  /-- The source has not ended and delivers no further bit. -/
  | incomplete
  /-- CMD is exactly one bit. -/
  | notACommand
deriving DecidableEq, Repr

/-- An element with the bits after it, or a rejection by name. -/
inductive Decoded where
  | element (i : Instr) (rest : Bits)
  | reject (why : DecodeError)
deriving DecidableEq, Repr

/-- The first element of `bits` at `slot`; `ended` says the source has no bit beyond them (R57 to R62, R67). -/
def decode (slot : Slot) (ended : Bool) (bits : Bits) : Decoded :=
  match slot with
  | .header =>
    if 9 ≤ bits.length then
      .element (.header (BitVec.ofNat 5 (fieldVal (bits.take 5))) (BitVec.ofNat 4 (fieldVal ((bits.drop 5).take 4))))
        (bits.drop 9)
    else .reject (if ended then .truncatedHeader else .incomplete)
  | .prime =>
    if 8 ≤ bits.length then .element (.primeByte (bitsByte (bits.take 8))) (bits.drop 8)
    else .reject (if ended then .truncatedPrimeByte else .incomplete)
  | .record hb mlb =>
    match bits with
    | [] => .reject (if ended then .endOfStream else .incomplete)
    | true :: rest =>
      if 8 ≤ rest.length then .element (.literal (bitsByte (rest.take 8))) (rest.drop 8)
      else if ended then .element .sentinel rest
      else .reject .incomplete
    | false :: rest =>
      if hb + mlb ≤ rest.length then
        .element (.reference (fieldVal (rest.take hb)) (fieldVal ((rest.drop hb).take mlb))) (rest.drop (hb + mlb))
      else .reject (if ended then .truncatedReference else .incomplete)
  | .ending =>
    if bits.length < 8 then
      if ended then .element (.pad bits.length) [] else .reject .incomplete
    else .reject .notAnEnding
  | .command =>
    match bits with
    | [false] => .element .encode []
    | [true] => .element .decode []
    | _ => .reject .notACommand

/-- The bits of an instruction, first stream bit first, at the field widths `hb` and `mlb` (R57 to R62, R69); an internal
operation has none (R70). -/
def encode (hb mlb : Nat) : Instr → Bits
  | .header h m => fieldBits 5 h.toNat ++ fieldBits 4 m.toNat
  | .primeByte b => byteBits b
  | .literal b => true :: byteBits b
  | .reference pos encLen => false :: (fieldBits hb pos ++ fieldBits mlb encLen)
  | .sentinel => [true]
  | .pad n => List.replicate n false
  | .encode => [false]
  | .decode => [true]
  | .bwWriteBit _ => []
  | .bwWriteBits _ _ => []
  | .bwWriteByte _ => []
  | .bwPad => []
  | .bwFlush => []
  | .brReadBit => []
  | .brReadBits _ => []
  | .brReadByte => []
  | .histPush _ => []
  | .swrConstruct => []
  | .swrNext _ => []
  | .swrCurrent => []
  | .firstMatch _ _ => []
  | .bestMatch _ _ _ _ => []
  | .eSetup => []
  | .eWriteHeader => []
  | .ePrimeHistory => []
  | .eEmitRecord => []
  | .emitReference _ _ => []
  | .emitLiteral _ => []
  | .eWriteEnding => []
  | .eFlush => []
  | .dReadHeader => []
  | .dInit => []
  | .dReadRecord => []
  | .readLiteral => []
  | .readReference => []
  | .dWriteDecoded _ => []
  | .dDone => []
  | .raise _ => []

/-- How many bits the table gives an instruction (R57 to R62, R69, R70). -/
def Instr.width (hb mlb : Nat) : Instr → Nat
  | .header _ _ => 9
  | .primeByte _ => 8
  | .literal _ => 9
  | .reference _ _ => 1 + hb + mlb
  | .sentinel => 1
  | .pad n => n
  | .encode => 1
  | .decode => 1
  | .bwWriteBit _ => 0
  | .bwWriteBits _ _ => 0
  | .bwWriteByte _ => 0
  | .bwPad => 0
  | .bwFlush => 0
  | .brReadBit => 0
  | .brReadBits _ => 0
  | .brReadByte => 0
  | .histPush _ => 0
  | .swrConstruct => 0
  | .swrNext _ => 0
  | .swrCurrent => 0
  | .firstMatch _ _ => 0
  | .bestMatch _ _ _ _ => 0
  | .eSetup => 0
  | .eWriteHeader => 0
  | .ePrimeHistory => 0
  | .eEmitRecord => 0
  | .emitReference _ _ => 0
  | .emitLiteral _ => 0
  | .eWriteEnding => 0
  | .eFlush => 0
  | .dReadHeader => 0
  | .dInit => 0
  | .dReadRecord => 0
  | .readLiteral => 0
  | .readReference => 0
  | .dWriteDecoded _ => 0
  | .dDone => 0
  | .raise _ => 0

/-- The place of an element in the stream (R56, R67), or the CMD register (R69); an internal operation has none (R70). -/
def Instr.slot (hb mlb : Nat) : Instr → Option Slot
  | .header _ _ => some .header
  | .primeByte _ => some .prime
  | .literal _ => some (.record hb mlb)
  | .reference _ _ => some (.record hb mlb)
  | .sentinel => some (.record hb mlb)
  | .pad _ => some .ending
  | .encode => some .command
  | .decode => some .command
  | .bwWriteBit _ => none
  | .bwWriteBits _ _ => none
  | .bwWriteByte _ => none
  | .bwPad => none
  | .bwFlush => none
  | .brReadBit => none
  | .brReadBits _ => none
  | .brReadByte => none
  | .histPush _ => none
  | .swrConstruct => none
  | .swrNext _ => none
  | .swrCurrent => none
  | .firstMatch _ _ => none
  | .bestMatch _ _ _ _ => none
  | .eSetup => none
  | .eWriteHeader => none
  | .ePrimeHistory => none
  | .eEmitRecord => none
  | .emitReference _ _ => none
  | .emitLiteral _ => none
  | .eWriteEnding => none
  | .eFlush => none
  | .dReadHeader => none
  | .dInit => none
  | .dReadRecord => none
  | .readLiteral => none
  | .readReference => none
  | .dWriteDecoded _ => none
  | .dDone => none
  | .raise _ => none

/-- The slot and the element bits of a table word: an element's bits read as one number, first stream bit most significant
(the table's note on LITERAL).  The table tells the elements of one width apart by their place in the stream only (R67), which
a word does not carry, so the width picks the slot; REFERENCE is read at the reset parameters 12 and 4 (log 22). -/
def tableElement (nbits w : Nat) : Option (Slot × Bits) :=
  if nbits = 1 ∧ w < 2 then some (.command, fieldBits 1 w)
  else if nbits = 8 ∧ w < 2 ^ 8 then some (.prime, fieldBits 8 w)
  else if (nbits = 9 ∨ nbits = 16) ∧ w < 2 ^ 9 then
    if 2 ^ 8 ≤ w then some (.record 12 4, fieldBits 9 w) else some (.header, fieldBits 9 w)
  else if (nbits = 17 ∨ nbits = 24) ∧ w < 2 ^ 16 then some (.record 12 4, fieldBits 17 w)
  else none

/-- The instruction the decoder reads from a table word (log 22). -/
def decodeTableWord (nbits w : Nat) : Option Instr :=
  match tableElement nbits w with
  | none => none
  | some (slot, bits) =>
    match decode slot true bits with
    | .element i [] => some i
    | .element _ (_ :: _) => none
    | .reject _ => none

end Sys2Proof
end

