-- ==== Sys2Proof/Machine/State.lean ====
section
/-! DEFINITION. Everything the spec gives the block (10_state.md R13), and the environment beside it (R34), as plain data. -/

namespace Sys2Proof.Machine

/-- `STATE`, the controller's 13 values (R17). -/
inductive Ctl where
  | idle
  | eSetup
  | eWriteHeader
  | ePrimeHistory
  | eEmitRecord
  | eWriteEnding
  | eFlush
  | dReadHeader
  | dInit
  | dReadRecord
  | dWriteDecoded
  | done
  | error
deriving DecidableEq, Repr

/-- `ERR` (R21, R123): no error, or the class that put the block in ERROR. -/
inductive ErrCode where
  | none
  | configurationError
  | truncatedInput
  | ioError
  | corruptStream
deriving DecidableEq, Repr

/-- One answer of the source to a request for one byte (R40, R41); the end of the list of answers is the end of data. -/
inductive SrcAnswer where
  | byte (b : Byte)
  | interrupted
  | endOfData
  | fail
deriving DecidableEq, Repr

/-- One answer of the sink to a write or a flush (R42, R43); past the end of the list of answers it is always `ok` (log 3). -/
inductive SnkAnswer where
  | ok
  | fail
deriving DecidableEq, Repr

/-- What the host does next (R20 to R24, R136, R138; log 1): between two controller steps, but for a reset inside one. -/
inductive HostEvent where
  /-- Nothing: the engine makes one controller step. -/
  | engineTurn
  | writeCfgHb (v : BitVec 5)
  | writeCfgMlb (v : BitVec 4)
  | writeCfgSd (v : BitVec 32)
  | writeCmd (c : Cmd)
  /-- Supply a fresh source and a fresh sink for the next call (R33, R138). -/
  | attach (src : List SrcAnswer) (snkAns : List SnkAnswer)
  | start
  | reset
  /-- A reset inside the engine's next controller step: after `reads` answers of the source and `writes` of the sink the block
  gets no further one and is reset while it waits, or at the step's end where the step asks for no more (R130, R136, R144;
  log 33). -/
  | resetDuring (reads writes : Nat)
deriving DecidableEq, Repr

/-- The registers a host may read, and those it may not (R16, R21, R23). -/
inductive HostReg where
  | status
  | err
  | hdrHb
  | hdrMlb
  | cleanEnd
  | cfgHb
  | cfgMlb
  | cfgSd
  | cmd
deriving DecidableEq, Repr

/-- What an operation run on its own returned (R12, R76 to R89); the model's own, no rule reads it (log 8). -/
inductive OpResult where
  | none
  /-- `Val(v)`. -/
  | val (v : Nat)
  /-- `Eof(k)`. -/
  | eof (k : Nat)
  /-- `(HIST, WIN)`. -/
  | view (hist win : List Byte)
  /-- `(start, length)` or `(position, length)`. -/
  | range (start len : Nat)
deriving DecidableEq, Repr

/-- Configuration and command registers (R20, R22). -/
@[ext] structure HostRegs where
  cfgHb : BitVec 5
  cfgMlb : BitVec 4
  cfgSd : BitVec 32
  cmd : Cmd
deriving DecidableEq, Repr

/-- Header read-back registers (R23). -/
@[ext] structure HeaderRegs where
  hb : BitVec 5
  mlb : BitVec 4
deriving DecidableEq, Repr

/-- Working parameter registers HB, MLB, SD, THR, H, WC (R14). -/
@[ext] structure Params where
  hb : Nat
  mlb : Nat
  sd : Nat
  thr : Nat
  h : Nat
  wc : Nat
deriving DecidableEq, Repr

/-- Record registers REC_TAG (true = 1 = Literal), REC_BYTE, REC_POS, REC_LEN (R15). -/
@[ext] structure RecordRegs where
  tag : Bool
  byte : Byte
  pos : Nat
  len : Nat
deriving DecidableEq, Repr

/-- Match-search scratch registers MS_OFF, MS_START, MS_COUNT, MS_FOUND, BEST_POS, BEST_LEN (R31). -/
@[ext] structure SearchRegs where
  off : Nat
  start : Nat
  count : Nat
  found : Nat
  bestPos : Nat
  bestLen : Nat
deriving DecidableEq, Repr

/-- The sliding buffer BUF with HLEN, WLEN, WCAP (R26): the only memory the block has (R36, R39). -/
@[ext] structure Memory where
  buf : List Byte
  hlen : Nat
  wlen : Nat
  wcap : Nat
deriving DecidableEq, Repr

/-- WACC (first-written bit first), WCNT, BITS_WRITTEN (R28, R18). -/
@[ext] structure BitWriter where
  wacc : Bits
  wcnt : Nat
  bitsWritten : Nat
deriving DecidableEq, Repr

/-- RACC (next bit first), RCNT, BITS_READ (R29, R18). -/
@[ext] structure BitReader where
  racc : Bits
  rcnt : Nat
  bitsRead : Nat
deriving DecidableEq, Repr

/-- The environment at the two ports (R34, R40 to R43): coming source answers, SNK, SNK_FLUSHES, coming sink answers. -/
@[ext] structure Ports where
  src : List SrcAnswer
  snk : List Byte
  snkFlushes : Nat
  snkAns : List SnkAnswer
deriving DecidableEq, Repr

/-- The block (R13), its environment (R34), and the model's own `opResult` (log 8) and `freeCount` (log 7). -/
@[ext]
structure State where
  cfg : HostRegs
  hdr : HeaderRegs
  ctl : Ctl
  err : ErrCode
  srcEof : Bool
  cleanEnd : Bool
  params : Params
  record : RecordRegs
  search : SearchRegs
  mem : Memory
  writer : BitWriter
  reader : BitReader
  ports : Ports
  host : List HostEvent
  opResult : OpResult
  freeCount : Nat
deriving DecidableEq, Repr

/-- Why the machine stops without an error the block reports: never (the four error classes are taken, R122). -/
inductive Fault where
deriving DecidableEq, Repr

/-- Calls the spec gives no meaning. -/
inductive Refusal where
  /-- An instruction whose arm has no meaning; no arm is left so. Safe. -/
  | notModelled (mnemonic : String)
  /-- BW_WRITE_BITS or BR_READ_BITS with n = 0 or n > 32: "refuse" (93_implementation_defined.md U4). Safe. -/
  | fieldWidth
  /-- SWR_NEXT(m) with m = 0 or m > WLEN: "refuse" (U5, R82 corner case (e)). Safe. -/
  | windowAdvance
  /-- SWR_CONSTRUCT outside its precondition BUF = [], SRC_EOF = 0 (R81, 92_eei_decisions.md D26). Safe. -/
  | readerNotFresh
  /-- E_EMIT_RECORD outside its precondition WLEN > 0: there is no WIN[0] (R98). Safe. -/
  | emptyWindow
  /-- A source or sink exchanged while BUSY: "refuse" (U7, R142); raised by `step` on `HostEvent.attach`. Safe. -/
  | portsInUse
deriving DecidableEq, Repr

/-- The block after reset (R32, R136); unspecified registers are zero (log 5); nothing attached, the host silent (log 1, 2, 3). -/
def State.reset : State where
  cfg := { cfgHb := 12, cfgMlb := 4, cfgSd := 0, cmd := .encode }
  hdr := { hb := 0, mlb := 0 }
  ctl := .idle
  err := .none
  srcEof := false
  cleanEnd := false
  params := { hb := 0, mlb := 0, sd := 0, thr := 0, h := 0, wc := 0 }
  record := { tag := false, byte := 0, pos := 0, len := 0 }
  search := { off := 0, start := 0, count := 0, found := 0, bestPos := 0, bestLen := 0 }
  mem := { buf := [], hlen := 0, wlen := 0, wcap := 0 }
  writer := { wacc := [], wcnt := 0, bitsWritten := 0 }
  reader := { racc := [], rcnt := 0, bitsRead := 0 }
  ports := { src := [], snk := [], snkFlushes := 0, snkAns := [] }
  host := []
  opResult := .none
  freeCount := 0

/-! One named update for each field (lemmas in Laws/State.lean). -/

def State.setCfg (s : State) (x : HostRegs) : State := { s with cfg := x }
def State.setHdr (s : State) (x : HeaderRegs) : State := { s with hdr := x }
def State.setCtl (s : State) (x : Ctl) : State := { s with ctl := x }
def State.setErr (s : State) (x : ErrCode) : State := { s with err := x }
def State.setSrcEof (s : State) (x : Bool) : State := { s with srcEof := x }
def State.setCleanEnd (s : State) (x : Bool) : State := { s with cleanEnd := x }
def State.setParams (s : State) (x : Params) : State := { s with params := x }
def State.setRecord (s : State) (x : RecordRegs) : State := { s with record := x }
def State.setSearch (s : State) (x : SearchRegs) : State := { s with search := x }
def State.setMem (s : State) (x : Memory) : State := { s with mem := x }
def State.setWriter (s : State) (x : BitWriter) : State := { s with writer := x }
def State.setReader (s : State) (x : BitReader) : State := { s with reader := x }
def State.setPorts (s : State) (x : Ports) : State := { s with ports := x }
def State.setHost (s : State) (x : List HostEvent) : State := { s with host := x }
def State.setOpResult (s : State) (x : OpResult) : State := { s with opResult := x }
def State.setFreeCount (s : State) (x : Nat) : State := { s with freeCount := x }

end Sys2Proof.Machine
end

