-- ==== Sys2Proof/Machine/Flags.lean ====
section
/-! DEFINITION. Flags and status words, all computed from what State holds (10_state.md R19, R21). -/

namespace Sys2Proof.Machine

/-- `BUSY`: `STATE` is none of IDLE, DONE, ERROR (R19). -/
def Ctl.busy : Ctl → Bool
  | .idle => false
  | .eSetup => true
  | .eWriteHeader => true
  | .ePrimeHistory => true
  | .eEmitRecord => true
  | .eWriteEnding => true
  | .eFlush => true
  | .dReadHeader => true
  | .dInit => true
  | .dReadRecord => true
  | .dWriteDecoded => true
  | .done => false
  | .error => false

/-- `BUSY` (R19). -/
def State.busy (s : State) : Bool := s.ctl.busy

/-- `DONE_F` (R19). -/
def State.doneF (s : State) : Bool := s.ctl == .done

/-- `ERROR_F` (R19). -/
def State.errorF (s : State) : Bool := s.ctl == .error

/-- `STATUS`: bit 0 BUSY, bit 1 DONE_F, bit 2 ERROR_F (R21). -/
def State.status (s : State) : BitVec 3 :=
  BitVec.ofNat 3 (4 * s.errorF.toNat + 2 * s.doneF.toNat + s.busy.toNat)

/-- The number of an `ERR` value (R21, R123). -/
def ErrCode.code : ErrCode → BitVec 3
  | .none => 0
  | .configurationError => 1
  | .truncatedInput => 2
  | .ioError => 3
  | .corruptStream => 4

end Sys2Proof.Machine

namespace Sys2Proof

/-- The `ERR` value of an error class (R123). -/
def ErrorClass.toErr : ErrorClass → Machine.ErrCode
  | .configurationError => .configurationError
  | .truncatedInput => .truncatedInput
  | .ioError => .ioError
  | .corruptStream => .corruptStream

end Sys2Proof

namespace Sys2Proof.Machine

/-- Whose machine is running: what an element on the wire means is written or read by it (R94, R104). -/
inductive Side where
  | encoder
  | decoder
  | resting
deriving DecidableEq, Repr

/-- The machine `STATE` belongs to; in IDLE, DONE and ERROR neither runs (R17, R122, R137). -/
def Ctl.side : Ctl → Side
  | .idle => .resting
  | .eSetup => .encoder
  | .eWriteHeader => .encoder
  | .ePrimeHistory => .encoder
  | .eEmitRecord => .encoder
  | .eWriteEnding => .encoder
  | .eFlush => .encoder
  | .dReadHeader => .decoder
  | .dInit => .decoder
  | .dReadRecord => .decoder
  | .dWriteDecoded => .decoder
  | .done => .resting
  | .error => .resting

/-- What the host reads at a register; none where it may not read (R16, R21, R23, R24; CLEAN_END: R19, log 25). -/
def State.hostRead (s : State) : HostReg → Option Nat
  | .status => some s.status.toNat
  | .err => some s.err.code.toNat
  | .hdrHb => some s.hdr.hb.toNat
  | .hdrMlb => some s.hdr.mlb.toNat
  | .cleanEnd => some s.cleanEnd.toNat
  | .cfgHb => none
  | .cfgMlb => none
  | .cfgSd => none
  | .cmd => none

end Sys2Proof.Machine
end

