-- ==== Sys2Proof/Machine/Operands.lean ====
section
/-! DEFINITION. Operands: the two views, the record fields, the parameters and what is derived from them. -/

namespace Sys2Proof.Machine

/-- `HIST` = BUF[0 .. HLEN), oldest byte first (R26, R37). -/
def Memory.hist (m : Memory) : List Byte := m.buf.take m.hlen

/-- `WIN` = BUF[HLEN .. HLEN + WLEN), next byte to encode first (R26, R38). -/
def Memory.win (m : Memory) : List Byte := (m.buf.drop m.hlen).take m.wlen

/-- `HIST[i]`: none where the history holds no byte (R37). -/
def Memory.histByte (m : Memory) (i : Nat) : Option Byte := m.hist[i]?

/-- One byte of BUF by its index, history first, window after it (R26, R49). -/
def Memory.readByte (m : Memory) (i : Nat) : Option Byte := m.buf[i]?

/-- BUF holds exactly the history and the window (R27): so two buffers with the same views are the same data. -/
abbrev Memory.wf (m : Memory) : Prop := m.buf.length = m.hlen + m.wlen

/-- `HIST[p .. p + l)` (R10). -/
def histSlice (m : Memory) (p l : Nat) : List Byte := (m.hist.drop p).take l

/-- THR = floor((1 + HB + MLB) / 9) + 1 (R6). -/
def thresholdOf (hb mlb : Nat) : Nat := (1 + hb + mlb) / 9 + 1

/-- H = 2^HB (R6). -/
def capacityOf (hb : Nat) : Nat := 2 ^ hb

/-- WC = 2^MLB + THR - 1 (R6, 90_conflicts.md C1). -/
def windowOf (hb mlb : Nat) : Nat := 2 ^ mlb + thresholdOf hb mlb - 1

/-- The parameter set with its derived constants (R6, R95, R106). -/
def paramsOf (hb mlb sd : Nat) : Params where
  hb := hb
  mlb := mlb
  sd := sd
  thr := thresholdOf hb mlb
  h := capacityOf hb
  wc := windowOf hb mlb

/-- The three parameter checks of E_SETUP and D_READ_HEADER pass (R5, R95, R105, R118). -/
def paramsLegal (hb mlb : Nat) : Bool :=
  !(decide (hb < 3) || decide (min 31 Config.hbMax < hb)) &&
  !(decide (mlb < 2) || decide (min 15 Config.mlbMax < mlb)) &&
  !decide (hb ≤ mlb)

/-- The segment of the record last read: the Literal's byte, or the Reference's history bytes (R109, R110).  HIST does not
change between READ_REFERENCE and D_WRITE_DECODED, and R13 names no register that would hold the segment (log 12). -/
def decodedSegment (s : State) : List Byte :=
  if s.record.tag then [s.record.byte] else histSlice s.mem s.record.pos s.record.len

end Sys2Proof.Machine
end

