-- ==== Sys2Proof/Machine/Ops.lean ====
section
/-! DEFINITION. The shared operations: error entry, call start, the ports, bit I/O and the sliding buffer. -/

namespace Sys2Proof.Machine

/-- How an operation ends: with a result, abandoned by `raise` (the block is then in ERROR, R122), or without meaning. -/
inductive Res (α : Type) where
  | ok (a : α) (s : State)
  | raised (s : State)
  | refused (r : Refusal)
deriving DecidableEq, Repr

/-- Statements run in order; a raise abandons every enclosing operation (R11, R122). -/
def Res.bind {α β : Type} (x : Res α) (f : α → State → Res β) : Res β :=
  match x with
  | .ok a s => f a s
  | .raised s => .raised s
  | .refused r => .refused r

/-- The outcome of an instruction: an error is a next state, the block in ERROR (R122). -/
def Res.outcome {α : Type} (x : Res α) : Host.Outcome State Fault Refusal :=
  match x with
  | .ok _ s => .next s
  | .raised s => .next s
  | .refused r => .refused r

/-- The outcome of an operation run on its own, its result kept in `opResult` (log 8). -/
def Res.outcomeOf {α : Type} (result : α → OpResult) (x : Res α) : Host.Outcome State Fault Refusal :=
  match x with
  | .ok a s => .next (s.setOpResult (result a))
  | .raised s => .next s
  | .refused r => .refused r

/-! ## Error entry, start, reset -/

/-- The buffers, the working parameters and RACC are discarded at DONE and ERROR: any value, within their widths
(R102, R114, R122; 93_implementation_defined.md U11; log 6). -/
def discard (s : State) : State :=
  let k := s.freeCount
  (((s.setMem { buf := Config.freeBytes k, hlen := Config.freeNat k 0 % 2 ^ 32, wlen := Config.freeNat k 1 % 2 ^ 16,
                wcap := Config.freeNat k 2 % 2 ^ 16 }).setParams
      { hb := Config.freeNat k 3 % 2 ^ 5, mlb := Config.freeNat k 4 % 2 ^ 4, sd := Config.freeNat k 5 % 2 ^ 32,
        thr := Config.freeNat k 6 % 2 ^ 3, h := Config.freeNat k 7 % 2 ^ 32, wc := Config.freeNat k 8 % 2 ^ 16 }).setReader
      { s.reader with racc := (Config.freeBits k).take 8, rcnt := ((Config.freeBits k).take 8).length }).setFreeCount (k + 1)

/-- `raise E` (R122): ERR and STATE written, the pending output bits dropped, the buffers dropped; nothing else happens. -/
def raiseError (e : ErrorClass) (s : State) : State :=
  discard (((s.setErr e.toErr).setCtl .error).setWriter { s.writer with wacc := [], wcnt := 0 })

/-- `raise E` inside an operation. -/
def raising {α : Type} (e : ErrorClass) (s : State) : Res α := .raised (raiseError e s)

/-- STATE <- DONE; the buffers are discarded (R102, R114). -/
def enterDone (s : State) : State := discard (s.setCtl .done)

/-- The state a command starts in (R22). -/
def commandEntry : Cmd → Ctl
  | .encode => .eSetup
  | .decode => .dReadHeader

/-- The per-call initialisation (R33) and the first STATE of the call (R22): the way out of IDLE, DONE and ERROR, hence the
only return from an error beside reset (R128, R139).  It leaves the ports alone: a host that attached none since the last call
breaks R33 and R138, which do not say what then happens, and the call goes on at the old ports (log 32). -/
def startCall (s : State) : State :=
  ((((((s.setErr .none).setMem { buf := [], hlen := 0, wlen := 0, wcap := 0 }).setWriter
    { wacc := [], wcnt := 0, bitsWritten := 0 }).setReader
    { racc := [], rcnt := 0, bitsRead := 0 }).setSrcEof false).setCleanEnd false).setCtl (commandEntry s.cfg.cmd)

/-- A reset, in any state (R136): the block as in R32; the environment, the coming host actions and the draw counter are no
state of the block and stay (log 28). -/
def resetBlock (s : State) : State :=
  ((State.reset.setPorts s.ports).setHost s.host).setFreeCount s.freeCount

/-! ## The ports -/

/-- The outcome of `SrcRead()` (R12). -/
inductive SrcOutcome where
  | byte (b : Byte)
  | eof
  | fail
deriving DecidableEq, Repr

/-- Ask the source for one byte, retrying while it answers "interrupted" (R41, R127). -/
def srcPoll : List SrcAnswer → SrcOutcome × List SrcAnswer
  | [] => (.eof, [])
  | .byte b :: rest => (.byte b, rest)
  | .interrupted :: rest => srcPoll rest
  | .endOfData :: rest => (.eof, rest)
  | .fail :: rest => (.fail, rest)

/-- `SrcRead()` (R41): end of data is sticky through SRC_EOF. -/
def srcRead (s : State) : SrcOutcome × State :=
  if s.srcEof then (.eof, s)
  else
    match srcPoll s.ports.src with
    | (.byte b, rest) => (.byte b, s.setPorts { s.ports with src := rest })
    | (.eof, rest) => (.eof, (s.setPorts { s.ports with src := rest }).setSrcEof true)
    | (.fail, rest) => (.fail, s.setPorts { s.ports with src := rest })

/-- The sink's next answer (log 3). -/
def snkPoll : List SnkAnswer → SnkAnswer × List SnkAnswer
  | [] => (.ok, [])
  | a :: rest => (a, rest)

/-- `SnkWrite(b)`, raising IOError where it fails (R42, R120). -/
def snkWrite (b : Byte) (s : State) : Res Unit :=
  match snkPoll s.ports.snkAns with
  | (.ok, rest) => .ok () (s.setPorts { s.ports with snk := s.ports.snk ++ [b], snkAns := rest })
  | (.fail, rest) => raising .ioError (s.setPorts { s.ports with snkAns := rest })

/-- `SnkFlush()`, raising IOError where it fails (R43, R120); it is counted either way (log 4). -/
def snkFlush (s : State) : Res Unit :=
  match snkPoll s.ports.snkAns with
  | (.ok, rest) => .ok () (s.setPorts { s.ports with snkFlushes := s.ports.snkFlushes + 1, snkAns := rest })
  | (.fail, rest) =>
    raising .ioError (s.setPorts { s.ports with snkFlushes := s.ports.snkFlushes + 1, snkAns := rest })

/-- `write_all`: one transaction for each byte, in order (R42). -/
def snkWriteAll : List Byte → State → Res Unit
  | [], s => .ok () s
  | b :: bs, s => (snkWrite b s).bind fun _ s => snkWriteAll bs s

/-! ## Bit writer -/

/-- BW_WRITE_BIT (R71); the eighth pending bit completes a byte (log 20). -/
def writeBit (b : Bool) (s : State) : Res Unit :=
  if (s.writer.wacc ++ [b]).length = 8 then
    snkWrite (bitsByte (s.writer.wacc ++ [b]))
      (s.setWriter { wacc := [], wcnt := 0, bitsWritten := s.writer.bitsWritten + 1 })
  else
    .ok () (s.setWriter { wacc := s.writer.wacc ++ [b], wcnt := (s.writer.wacc ++ [b]).length,
                          bitsWritten := s.writer.bitsWritten + 1 })

/-- Bits in stream order. -/
def writeBitList : Bits → State → Res Unit
  | [], s => .ok () s
  | b :: bs, s => (writeBit b s).bind fun _ s => writeBitList bs s

/-- A field width the bit operations have a meaning for (93_implementation_defined.md U4). -/
def fieldWidthOk (n : Nat) : Bool := decide (1 ≤ n) && decide (n ≤ 32)

/-- BW_WRITE_BITS (R72); U4 refuses other widths (log 13, log 16). -/
def writeBits (n v : Nat) (s : State) : Res Unit :=
  if fieldWidthOk n then writeBitList (fieldBits n v) s else .refused .fieldWidth

/-- BW_WRITE_BYTE (R73). -/
def writeByte (b : Byte) (s : State) : Res Unit := writeBits 8 b.toNat s

/-- BW_WRITE_BYTE for each byte in order (R97). -/
def writeBytes : List Byte → State → Res Unit
  | [], s => .ok () s
  | b :: bs, s => (writeByte b s).bind fun _ s => writeBytes bs s

/-- The loop of BW_PAD (R74); `fuel` bounds its turns. -/
def padLoop : Nat → State → Res Unit
  | 0, s => .ok () s
  | fuel + 1, s => if s.writer.wcnt = 0 then .ok () s else (writeBit false s).bind fun _ s => padLoop fuel s

/-- BW_PAD (R74): WCNT is at most 7, so 8 turns are enough. -/
def padToByte (s : State) : Res Unit := padLoop 8 s

/-! ## Bit reader -/

/-- `Val(v)` or `Eof(k)` (R12, R77). -/
inductive ReadResult where
  | val (v : Nat)
  | eof (k : Nat)
deriving DecidableEq, Repr

/-- Take the first of the bits at hand (R76). -/
def takeBit (bits : Bits) (s : State) : Res (Option Bool) :=
  match bits with
  | [] => .ok none s
  | b :: bs => .ok (some b) (s.setReader { racc := bs, rcnt := bs.length, bitsRead := s.reader.bitsRead + 1 })

/-- BR_READ_BIT (R76): `none` is Eof(0); a byte is fetched only when no bit is left (log 20). -/
def readBit (s : State) : Res (Option Bool) :=
  match s.reader.racc with
  | b :: bs => takeBit (b :: bs) s
  | [] =>
    match srcRead s with
    | (.byte x, s1) => takeBit (byteBits x) s1
    | (.eof, s1) => .ok none s1
    | (.fail, s1) => raising .ioError s1

/-- The loop of BR_READ_BITS (R77): `n` bits to come, `k` taken, value `v` so far. -/
def readBitsFrom : Nat → Nat → Nat → State → Res ReadResult
  | 0, _, v, s => .ok (.val v) s
  | n + 1, k, v, s =>
    (readBit s).bind fun r s1 =>
      match r with
      | none => .ok (.eof k) s1
      | some b => readBitsFrom n (k + 1) (2 * v + b.toNat) s1

/-- BR_READ_BITS (R77); U4 refuses other widths (log 13). -/
def readBits (n : Nat) (s : State) : Res ReadResult :=
  if fieldWidthOk n then readBitsFrom n 0 0 s else .refused .fieldWidth

/-- BR_READ_BYTE (R78). -/
def readByte (s : State) : Res ReadResult := readBits 8 s

/-! ## Sliding buffer -/

/-- Drop the oldest bytes beyond the capacity `h` (R54, R80, R82). -/
def Memory.evict (m : Memory) (h : Nat) : Memory :=
  { m with buf := m.buf.drop (m.hlen - h), hlen := m.hlen - (m.hlen - h) }

/-- HistPush on the buffer (R80). -/
def Memory.push (m : Memory) (seg : List Byte) (h : Nat) : Memory :=
  Memory.evict { m with buf := m.buf ++ seg, hlen := m.hlen + seg.length } h

/-- HistPush (R80). -/
def pushHistory (seg : List Byte) (s : State) : State := s.setMem (s.mem.push seg s.params.h)

/-- Append one source byte to BUF. -/
def appendByte (b : Byte) (s : State) : State := s.setMem { s.mem with buf := s.mem.buf ++ [b] }

/-- The reads of SWR_CONSTRUCT: `n` bytes appended, or TruncatedInput, or IOError (R81). -/
def fillBuffer : Nat → State → Res Unit
  | 0, s => .ok () s
  | n + 1, s =>
    match srcRead s with
    | (.byte b, s1) => fillBuffer n (appendByte b s1)
    | (.eof, s1) => raising .truncatedInput s1
    | (.fail, s1) => raising .ioError s1

/-- SWR_CONSTRUCT (R81). -/
def constructReader (s : State) : Res Unit :=
  if s.mem.buf = [] ∧ s.srcEof = false then
    (fillBuffer (2 * s.params.wc) s).bind fun _ s1 =>
      .ok () (s1.setMem { s1.mem with hlen := s1.params.wc, wlen := s1.params.wc, wcap := s1.params.wc })
  else .refused .readerNotFresh

/-- The reads of SWR_NEXT: up to `n` bytes appended, stopping at Eof; `k` counts them (R82). -/
def refillWindow : Nat → Nat → State → Res Nat
  | 0, k, s => .ok k s
  | n + 1, k, s =>
    match srcRead s with
    | (.byte b, s1) => refillWindow n (k + 1) (appendByte b s1)
    | (.eof, s1) => .ok k s1
    | (.fail, s1) => raising .ioError s1

/-- The registers after SWR_NEXT obtained `k` of `m` bytes, before the eviction (R82). -/
def Memory.advance (m : Memory) (moved k : Nat) : Memory :=
  { m with wcap := m.wcap - (moved - k), hlen := m.hlen + moved, wlen := m.wlen - moved + k }

/-- SWR_NEXT (R82); U5 refuses m = 0 and m > WLEN (log 13). -/
def advanceReader (m : Nat) (s : State) : Res Unit :=
  if 1 ≤ m ∧ m ≤ s.mem.wlen then
    (refillWindow m 0 s).bind fun k s1 => .ok () (s1.setMem ((s1.mem.advance m k).evict s1.params.h))
  else .refused .windowAdvance

end Sys2Proof.Machine
end

