-- ==== Sys2Proof/Machine/BitIo.lean ====
section
/-! DEFINITION. The bit I/O operations run on their own (40_bitio.md). -/

namespace Sys2Proof.Machine

/-- BW_WRITE_BIT (R71). -/
def execBwWriteBit (b : Bool) (s : State) : Host.Outcome State Fault Refusal := (writeBit b s).outcome

/-- BW_WRITE_BITS (R72). -/
def execBwWriteBits (n v : Nat) (s : State) : Host.Outcome State Fault Refusal := (writeBits n v s).outcome

/-- BW_WRITE_BYTE (R73). -/
def execBwWriteByte (b : Byte) (s : State) : Host.Outcome State Fault Refusal := (writeByte b s).outcome

/-- BW_PAD (R74). -/
def execBwPad (s : State) : Host.Outcome State Fault Refusal := (padToByte s).outcome

/-- BW_FLUSH (R75): it never writes a byte, whatever WCNT holds. -/
def execBwFlush (s : State) : Host.Outcome State Fault Refusal := (snkFlush s).outcome

/-- The result of BR_READ_BIT (R76). -/
def bitResult : Option Bool → OpResult
  | none => .eof 0
  | some b => .val b.toNat

/-- The result of BR_READ_BITS (R77). -/
def fieldResult : ReadResult → OpResult
  | .val v => .val v
  | .eof k => .eof k

/-- BR_READ_BIT (R76). -/
def execBrReadBit (s : State) : Host.Outcome State Fault Refusal := (readBit s).outcomeOf bitResult

/-- BR_READ_BITS (R77). -/
def execBrReadBits (n : Nat) (s : State) : Host.Outcome State Fault Refusal := (readBits n s).outcomeOf fieldResult

/-- BR_READ_BYTE (R78). -/
def execBrReadByte (s : State) : Host.Outcome State Fault Refusal := (readByte s).outcomeOf fieldResult

end Sys2Proof.Machine
end

