-- ==== Sys2Proof/Machine/Commands.lean ====
section
/-! DEFINITION. The host: the two commands, register writes, attaching and reset (10_state.md R20 to R24, 60_exceptions.md
R122, 70_reset_and_hazards.md R136 to R139), and RAISE. -/

namespace Sys2Proof.Machine

/-- A host write: taken in IDLE, DONE and ERROR, ignored while BUSY (R20, R24). -/
def hostWrite (s : State) (cfg : HostRegs) : State := if s.busy then s else s.setCfg cfg

/-- START: ignored while BUSY (R22). -/
def hostStart (s : State) : State := if s.busy then s else startCall s

/-- ENCODE: CMD = 0 with a START action (R22, R69, R94; log 11). -/
def execEncode (s : State) : Host.Outcome State Fault Refusal :=
  .next (hostStart (hostWrite s { s.cfg with cmd := .encode }))

/-- DECODE: CMD = 1 with a START action (R22, R69, R104; log 11). -/
def execDecode (s : State) : Host.Outcome State Fault Refusal :=
  .next (hostStart (hostWrite s { s.cfg with cmd := .decode }))

/-- The instruction the CMD register selects (R69). -/
def commandInstr : Cmd → Instr
  | .encode => .encode
  | .decode => .decode

/-- A fresh source and sink before a call (R33, R138); while BUSY it is another party at the ports (R142, U7; log 15). -/
def hostAttach (src : List SrcAnswer) (snkAns : List SnkAnswer) (s : State) : Host.Outcome State Fault Refusal :=
  if s.busy then .refused .portsInUse
  else .next (s.setPorts { src := src, snk := [], snkFlushes := 0, snkAns := snkAns })

/-- RAISE E (R122). -/
def execRaise (e : ErrorClass) (s : State) : Host.Outcome State Fault Refusal := .next (raiseError e s)

end Sys2Proof.Machine
end

