-- ==== Sys2Proof/Machine/Decoder.lean ====
section
/-! DEFINITION. The decoder's states and actions (44_decoder.md). -/

namespace Sys2Proof.Machine

/-- D_DONE (R114). -/
def finishDecode (s : State) : Res Unit := (snkFlush s).bind fun _ s1 => .ok () (enterDone s1)

/-- A clean end of the stream (R112). -/
def endCleanly (s : State) : Res Unit := finishDecode (s.setCleanEnd true)

/-- The field after a read whose Eof is TruncatedInput (R113). -/
def needField (r : Res ReadResult) (use : Nat → State → Res Unit) : Res Unit :=
  r.bind fun v s =>
    match v with
    | .eof _ => raising .truncatedInput s
    | .val a => use a s

/-- The header checks and the derivation of the constants, once both fields are in HDR_HB, HDR_MLB (R105, R106); SD is not
written. -/
def acceptHeader (s : State) : Res Unit :=
  if paramsLegal s.hdr.hb.toNat s.hdr.mlb.toNat then
    .ok () ((s.setParams (paramsOf s.hdr.hb.toNat s.hdr.mlb.toNat s.params.sd)).setCtl .dInit)
  else raising .configurationError s

/-- D_READ_HEADER (R105): both fields are read before either is checked. -/
def readHeader (s : State) : Res Unit :=
  needField (readBits 5 s) fun a s1 =>
    needField (readBits 4 (s1.setHdr { s1.hdr with hb := BitVec.ofNat 5 a })) fun b s2 =>
      acceptHeader (s2.setHdr { s2.hdr with mlb := BitVec.ofNat 4 b })

/-- A decoded byte to the sink, then to the history (R107). -/
def deliverByte (b : Byte) (s : State) : Res Unit :=
  (snkWrite b s).bind fun _ s1 => .ok () (pushHistory [b] s1)

/-- The loop of D_INIT: `n` priming bytes to come (R107). -/
def readPriming : Nat → State → Res Unit
  | 0, s => .ok () s
  | n + 1, s =>
    needField (readByte s) fun v s1 => (deliverByte (BitVec.ofNat 8 v) s1).bind fun _ s2 => readPriming n s2

/-- READ_LITERAL (R109): the end of the source inside the payload is a clean end. -/
def readLiteral (s : State) : Res Unit :=
  (readBits 8 s).bind fun r s1 =>
    match r with
    | .eof _ => endCleanly s1
    | .val v => .ok () ((s1.setRecord { s1.record with byte := BitVec.ofNat 8 v }).setCtl .dWriteDecoded)

/-- The bound check of READ_REFERENCE, once both fields are in REC_POS, REC_LEN (R110). -/
def acceptReference (s : State) : Res Unit :=
  if s.mem.hlen < s.record.pos + s.record.len then raising .corruptStream s else .ok () (s.setCtl .dWriteDecoded)

/-- READ_REFERENCE (R110); the length is unbiased by THR (R63). -/
def readReference (s : State) : Res Unit :=
  needField (readBits s.params.hb s) fun p s1 =>
    needField (readBits s1.params.mlb (s1.setRecord { s1.record with pos := p })) fun e s2 =>
      acceptReference (s2.setRecord { s2.record with len := e + s2.params.thr })

/-- D_READ_RECORD (R108). -/
def readRecord (s : State) : Res Unit :=
  (readBit s).bind fun r s1 =>
    match r with
    | none => endCleanly s1
    | some true => readLiteral (s1.setRecord { s1.record with tag := true })
    | some false => readReference (s1.setRecord { s1.record with tag := false })

/-- D_WRITE_DECODED (R111): all of the segment to the sink, then one push. -/
def deliverSegment (seg : List Byte) (s : State) : Res Unit :=
  (snkWriteAll seg s).bind fun _ s1 => .ok () ((pushHistory seg s1).setCtl .dReadRecord)

/-- D_READ_HEADER (R105, R106). -/
def execDReadHeader (s : State) : Host.Outcome State Fault Refusal := (readHeader s).outcome

/-- D_INIT (R107). -/
def execDInit (s : State) : Host.Outcome State Fault Refusal :=
  ((readPriming s.params.wc s).bind fun _ s1 => .ok () (s1.setCtl .dReadRecord)).outcome

/-- D_READ_RECORD (R108). -/
def execDReadRecord (s : State) : Host.Outcome State Fault Refusal := (readRecord s).outcome

/-- READ_LITERAL (R109). -/
def execReadLiteral (s : State) : Host.Outcome State Fault Refusal := (readLiteral s).outcome

/-- READ_REFERENCE (R110). -/
def execReadReference (s : State) : Host.Outcome State Fault Refusal := (readReference s).outcome

/-- D_WRITE_DECODED (R111). -/
def execDWriteDecoded (seg : List Byte) (s : State) : Host.Outcome State Fault Refusal := (deliverSegment seg s).outcome

/-- D_DONE (R114). -/
def execDDone (s : State) : Host.Outcome State Fault Refusal := (finishDecode s).outcome

end Sys2Proof.Machine
end

