-- ==== Sys2Proof/Machine/Search.lean ====
section
/-! DEFINITION. The greedy match search: FIRST_MATCH and BEST_MATCH (42_match_search.md), over the scratch registers of R31. -/

namespace Sys2Proof.Machine

/-- The scan of FIRST_MATCH from index `i` of the sequence on: the result and the scratch registers (R88). -/
def firstScan (sub : List Byte) : List Byte → Nat → SearchRegs → (Nat × Nat) × SearchRegs
  | [], _, r => if 0 < r.count then ((r.start, r.count), r) else ((0, 0), r)
  | x :: xs, i, r =>
    if sub[r.count]? = some x then
      let r1 : SearchRegs := { r with start := if r.count = 0 then i else r.start, count := r.count + 1 }
      if r1.count = sub.length then ((r1.start, r1.count), r1) else firstScan sub xs (i + 1) r1
    else if 0 < r.count then ((r.start, r.count), r)
    else firstScan sub xs (i + 1) r

/-- FIRST_MATCH (R88). -/
def firstMatch (seq sub : List Byte) (r : SearchRegs) : (Nat × Nat) × SearchRegs :=
  if sub = [] ∨ seq = [] then ((0, 0), r) else firstScan sub seq 0 { r with count := 0, start := 0 }

/-- Whether a counted candidate of length `ln` replaces the retained one of length `best` (R89; U1, log 21). -/
def replaces (ln best : Nat) : Bool := if Config.tieLatest then decide (best ≤ ln) else decide (best < ln)

/-- A candidate `abs`, `ln` counted and, where it is longer, retained (R89). -/
def countCandidate (abs ln : Nat) (r : SearchRegs) : SearchRegs :=
  { r with
    found := r.found + 1
    bestPos := if replaces ln r.bestLen then abs else r.bestPos
    bestLen := if replaces ln r.bestLen then ln else r.bestLen }

/-- The loop of BEST_MATCH (R89); `fuel` bounds its turns, MS_OFF grows by at least 1 at each. -/
def bestLoop (seq sub : List Byte) (thr depth : Nat) : Nat → SearchRegs → SearchRegs
  | 0, r => r
  | fuel + 1, r =>
    let f := firstMatch (seq.drop r.off) (sub.take (seq.length - r.off)) r
    let ln := f.1.2
    let abs := r.off + f.1.1
    if ln = 0 then f.2
    else if thr ≤ ln then
      let r1 := countCandidate abs ln f.2
      if depth ≠ 0 ∧ r1.found = depth then r1 else bestLoop seq sub thr depth fuel { r1 with off := abs + 1 }
    else bestLoop seq sub thr depth fuel { f.2 with off := abs + 1 }

/-- BEST_MATCH (R89): the scratch registers it leaves; BEST_POS, BEST_LEN are its result. -/
def bestMatch (seq sub : List Byte) (thr depth : Nat) (r : SearchRegs) : SearchRegs :=
  bestLoop seq sub thr depth (seq.length + 1) { r with bestPos := 0, bestLen := 0, found := 0, off := 0 }

/-- FIRST_MATCH run on its own (R88). -/
def execFirstMatch (seq sub : List Byte) (s : State) : Host.Outcome State Fault Refusal :=
  let f := firstMatch seq sub s.search
  .next ((s.setSearch f.2).setOpResult (.range f.1.1 f.1.2))

/-- BEST_MATCH run on its own (R89). -/
def execBestMatch (seq sub : List Byte) (thr depth : Nat) (s : State) : Host.Outcome State Fault Refusal :=
  let r := bestMatch seq sub thr depth s.search
  .next ((s.setSearch r).setOpResult (.range r.bestPos r.bestLen))

end Sys2Proof.Machine
end

