-- ==== Sys2Proof/Machine/Encoder.lean ====
section
/-! DEFINITION. The encoder's states and actions (43_encoder.md). -/

namespace Sys2Proof.Machine

/-- STATE after the priming bytes and after each record (R94). -/
def afterRecord (s : State) : State := s.setCtl (if 0 < s.mem.wlen then .eEmitRecord else .eWriteEnding)

/-- E_SETUP (R95): the checks come before any source read. -/
def setupEncoder (s : State) : Res Unit :=
  let s1 := s.setHdr { hb := s.cfg.cfgHb, mlb := s.cfg.cfgMlb }
  if paramsLegal s.cfg.cfgHb.toNat s.cfg.cfgMlb.toNat then
    (constructReader (s1.setParams (paramsOf s.cfg.cfgHb.toNat s.cfg.cfgMlb.toNat s.cfg.cfgSd.toNat))).bind fun _ s2 =>
      .ok () (s2.setCtl .eWriteHeader)
  else raising .configurationError s1

/-- The two header fields (R57, R96). -/
def writeHeaderFields (hb mlb : Nat) (s : State) : Res Unit :=
  (writeBits 5 hb s).bind fun _ s1 => writeBits 4 mlb s1

/-- The length field of EMIT_REFERENCE: l - THR (R99); for l < THR, where the spec states no value, a free one of the field's width
(DESIGN CHOICE, log 35). -/
def lengthField (l : Nat) (s : State) : Nat :=
  if s.params.thr ≤ l then l - s.params.thr else Config.freeNat s.freeCount 9 % 2 ^ s.params.mlb

/-- The free length field of EMIT_REFERENCE for l < THR is one draw (log 7, log 35). -/
def countDraw (l : Nat) (s : State) : State := if s.params.thr ≤ l then s else s.setFreeCount (s.freeCount + 1)

/-- EMIT_REFERENCE (R99), for every length. -/
def writeReference (p l : Nat) (s : State) : Res Unit :=
  (writeBit false ((countDraw l s).setRecord { s.record with tag := false, pos := p, len := l })).bind fun _ s1 =>
    (writeBits s1.params.hb p s1).bind fun _ s2 => writeBits s2.params.mlb (lengthField l s) s2

/-- EMIT_LITERAL (R100). -/
def writeLiteral (b : Byte) (s : State) : Res Unit :=
  (writeBit true (s.setRecord { s.record with tag := true, byte := b })).bind fun _ s1 => writeByte b s1

/-- E_EMIT_RECORD (R98): search, write the record, advance; an empty window is outside its precondition (log 14). -/
def emitRecord (s : State) : Res Unit :=
  let r := bestMatch s.mem.hist s.mem.win s.params.thr s.params.sd s.search
  let s1 := s.setSearch r
  if 0 < r.bestLen then
    (writeReference r.bestPos r.bestLen s1).bind fun _ s2 =>
      (advanceReader r.bestLen s2).bind fun _ s3 => .ok () (afterRecord s3)
  else
    match s.mem.win with
    | [] => .refused .emptyWindow
    | b :: _ =>
      (writeLiteral b s1).bind fun _ s2 => (advanceReader 1 s2).bind fun _ s3 => .ok () (afterRecord s3)

/-- E_SETUP (R95). -/
def execESetup (s : State) : Host.Outcome State Fault Refusal := (setupEncoder s).outcome

/-- E_WRITE_HEADER (R96). -/
def execEWriteHeader (s : State) : Host.Outcome State Fault Refusal :=
  ((writeHeaderFields s.params.hb s.params.mlb s).bind fun _ s1 => .ok () (s1.setCtl .ePrimeHistory)).outcome

/-- E_PRIME_HISTORY (R97). -/
def execEPrimeHistory (s : State) : Host.Outcome State Fault Refusal :=
  ((writeBytes s.mem.hist s).bind fun _ s1 => .ok () (afterRecord s1)).outcome

/-- E_EMIT_RECORD (R98). -/
def execEEmitRecord (s : State) : Host.Outcome State Fault Refusal := (emitRecord s).outcome

/-- EMIT_REFERENCE (R99). -/
def execEmitReference (p l : Nat) (s : State) : Host.Outcome State Fault Refusal := (writeReference p l s).outcome

/-- EMIT_LITERAL (R100). -/
def execEmitLiteral (b : Byte) (s : State) : Host.Outcome State Fault Refusal := (writeLiteral b s).outcome

/-- The Ending: nothing, or SENTINEL then PAD (R101). -/
def writeEnding (s : State) : Res Unit :=
  if s.writer.bitsWritten % 8 ≠ 0 then (writeBit true s).bind fun _ s1 => padToByte s1 else .ok () s

/-- E_WRITE_ENDING (R101). -/
def execEWriteEnding (s : State) : Host.Outcome State Fault Refusal :=
  ((writeEnding s).bind fun _ s1 => .ok () (s1.setCtl .eFlush)).outcome

/-- E_FLUSH (R102). -/
def execEFlush (s : State) : Host.Outcome State Fault Refusal :=
  ((snkFlush s).bind fun _ s1 => .ok () (enterDone s1)).outcome

end Sys2Proof.Machine
end

