-- ==== Sys2Proof/Machine/Elements.lean ====
section
/-! DEFINITION. The six wire elements (30_encoding.md).  To the encoder an element is its emission; to the decoder, whose
program is the stream (R104), it is what the decoder does on finding the element at its cursor; a resting block does nothing
(R137, R122) (log 9). -/

namespace Sys2Proof.Machine

/-- The decoder on a HEADER (R105, R106). -/
def acceptHeaderElement (hb : BitVec 5) (mlb : BitVec 4) (s : State) : Res Unit :=
  needField (readBits 5 s) fun _ s1 =>
    needField (readBits 4 (s1.setHdr { s1.hdr with hb := hb })) fun _ s2 =>
      acceptHeader (s2.setHdr { s2.hdr with mlb := mlb })

/-- HEADER (R57; R96, R105, R106). -/
def execHeader (hb : BitVec 5) (mlb : BitVec 4) (s : State) : Host.Outcome State Fault Refusal :=
  match s.ctl.side with
  | .encoder => (writeHeaderFields hb.toNat mlb.toNat s).outcome
  | .decoder => (acceptHeaderElement hb mlb s).outcome
  | .resting => .next s

/-- The decoder on one PRIME_BYTE: one turn of D_INIT, the last of the WC turns going on to D_READ_RECORD (R107). -/
def acceptPrimeByte (b : Byte) (s : State) : Res Unit :=
  needField (readByte s) fun _ s1 =>
    (deliverByte b s1).bind fun _ s2 =>
      .ok () (if s2.mem.hlen = s2.params.wc then s2.setCtl .dReadRecord else s2)

/-- PRIME_BYTE (R58; R97, R107). -/
def execPrimeByte (b : Byte) (s : State) : Host.Outcome State Fault Refusal :=
  match s.ctl.side with
  | .encoder => (writeByte b s).outcome
  | .decoder => (acceptPrimeByte b s).outcome
  | .resting => .next s

/-- A tag taken at a record boundary; no bit there is a clean end (R108, R112). -/
def acceptTag (tag : Bool) (s : State) (more : State → Res Unit) : Res Unit :=
  (readBit s).bind fun r s1 =>
    match r with
    | none => endCleanly s1
    | some _ => more (s1.setRecord { s1.record with tag := tag })

/-- The decoder on a LITERAL (R108, R109). -/
def acceptLiteral (b : Byte) (s : State) : Res Unit :=
  acceptTag true s fun s1 =>
    (readBits 8 s1).bind fun r s2 =>
      match r with
      | .eof _ => endCleanly s2
      | .val _ => .ok () ((s2.setRecord { s2.record with byte := b }).setCtl .dWriteDecoded)

/-- LITERAL (R59; R100, R109).  Its bytes go to the sink and the history in D_WRITE_DECODED (R111). -/
def execLiteral (b : Byte) (s : State) : Host.Outcome State Fault Refusal :=
  match s.ctl.side with
  | .encoder => (writeLiteral b s).outcome
  | .decoder => (acceptLiteral b s).outcome
  | .resting => .next s

/-- The decoder on a REFERENCE (R108, R110). -/
def acceptReferenceElement (pos encLen : Nat) (s : State) : Res Unit :=
  acceptTag false s fun s1 =>
    needField (readBits s1.params.hb s1) fun _ s2 =>
      needField (readBits s2.params.mlb (s2.setRecord { s2.record with pos := pos })) fun _ s3 =>
        acceptReference (s3.setRecord { s3.record with len := encLen + s3.params.thr })

/-- REFERENCE (R60, R63; R99, R110). -/
def execReference (pos encLen : Nat) (s : State) : Host.Outcome State Fault Refusal :=
  match s.ctl.side with
  | .encoder => (writeReference pos (encLen + s.params.thr) s).outcome
  | .decoder => (acceptReferenceElement pos encLen s).outcome
  | .resting => .next s

/-- SENTINEL (R61; R101, R112): to the decoder a literal tag whose payload the source ends in. -/
def execSentinel (s : State) : Host.Outcome State Fault Refusal :=
  match s.ctl.side with
  | .encoder => (writeBit true s).outcome
  | .decoder => (acceptTag true s readLiteral).outcome
  | .resting => .next s

/-- PAD (R62; R74, R112): `n` zero bits; the decoder takes them for payload bits and drops them unexamined (log 10).  R62 and R74
fix the count by the bit position and give no operand: that the encoder writes `n` zeros also where `n` is not
`(8 - WCNT) mod 8`, which leaves the byte open or begins another, is the model's choice (DESIGN CHOICE, log 34). -/
def execPad (n : Nat) (s : State) : Host.Outcome State Fault Refusal :=
  match s.ctl.side with
  | .encoder => (writeBitList (List.replicate n false) s).outcome
  | .decoder => (readLiteral s).outcome
  | .resting => .next s

end Sys2Proof.Machine
end

