-- ==== Sys2Proof/Machine/Window.lean ====
section
/-! DEFINITION. The sliding-buffer operations run on their own (41_sliding_window.md). -/

namespace Sys2Proof.Machine

/-- The view `(HIST, WIN)` (R83). -/
def viewResult (m : Memory) : OpResult := .view m.hist m.win

/-- HistPush (R80); its statements are run as they stand whatever WLEN holds (log 17). -/
def execHistPush (seg : List Byte) (s : State) : Host.Outcome State Fault Refusal := .next (pushHistory seg s)

/-- SWR_CONSTRUCT (R81). -/
def execSwrConstruct (s : State) : Host.Outcome State Fault Refusal := (constructReader s).outcome

/-- SWR_NEXT, returning the new view (R82). -/
def execSwrNext (m : Nat) (s : State) : Host.Outcome State Fault Refusal :=
  ((advanceReader m s).bind fun _ s1 => .ok s1.mem s1).outcomeOf viewResult

/-- SWR_CURRENT (R83). -/
def execSwrCurrent (s : State) : Host.Outcome State Fault Refusal := .next (s.setOpResult (viewResult s.mem))

end Sys2Proof.Machine
end

