-- ==== Sys2Proof/Machine/Dispatch.lean ====
section
/-! DEFINITION. One arm for each constructor of Instr. -/

namespace Sys2Proof.Machine

def exec (i : Instr) (s : State) : Host.Outcome State Fault Refusal :=
  match i with
  | .header hb mlb => Sys2Proof.Machine.execHeader hb mlb s
  | .primeByte b => Sys2Proof.Machine.execPrimeByte b s
  | .literal b => Sys2Proof.Machine.execLiteral b s
  | .reference pos encLen => Sys2Proof.Machine.execReference pos encLen s
  | .sentinel => Sys2Proof.Machine.execSentinel s
  | .pad n => Sys2Proof.Machine.execPad n s
  | .encode => Sys2Proof.Machine.execEncode s
  | .decode => Sys2Proof.Machine.execDecode s
  | .bwWriteBit b => Sys2Proof.Machine.execBwWriteBit b s
  | .bwWriteBits n v => Sys2Proof.Machine.execBwWriteBits n v s
  | .bwWriteByte b => Sys2Proof.Machine.execBwWriteByte b s
  | .bwPad => Sys2Proof.Machine.execBwPad s
  | .bwFlush => Sys2Proof.Machine.execBwFlush s
  | .brReadBit => Sys2Proof.Machine.execBrReadBit s
  | .brReadBits n => Sys2Proof.Machine.execBrReadBits n s
  | .brReadByte => Sys2Proof.Machine.execBrReadByte s
  | .histPush seg => Sys2Proof.Machine.execHistPush seg s
  | .swrConstruct => Sys2Proof.Machine.execSwrConstruct s
  | .swrNext m => Sys2Proof.Machine.execSwrNext m s
  | .swrCurrent => Sys2Proof.Machine.execSwrCurrent s
  | .firstMatch seq sub => Sys2Proof.Machine.execFirstMatch seq sub s
  | .bestMatch seq sub thr depth => Sys2Proof.Machine.execBestMatch seq sub thr depth s
  | .eSetup => Sys2Proof.Machine.execESetup s
  | .eWriteHeader => Sys2Proof.Machine.execEWriteHeader s
  | .ePrimeHistory => Sys2Proof.Machine.execEPrimeHistory s
  | .eEmitRecord => Sys2Proof.Machine.execEEmitRecord s
  | .emitReference p l => Sys2Proof.Machine.execEmitReference p l s
  | .emitLiteral b => Sys2Proof.Machine.execEmitLiteral b s
  | .eWriteEnding => Sys2Proof.Machine.execEWriteEnding s
  | .eFlush => Sys2Proof.Machine.execEFlush s
  | .dReadHeader => Sys2Proof.Machine.execDReadHeader s
  | .dInit => Sys2Proof.Machine.execDInit s
  | .dReadRecord => Sys2Proof.Machine.execDReadRecord s
  | .readLiteral => Sys2Proof.Machine.execReadLiteral s
  | .readReference => Sys2Proof.Machine.execReadReference s
  | .dWriteDecoded seg => Sys2Proof.Machine.execDWriteDecoded seg s
  | .dDone => Sys2Proof.Machine.execDDone s
  | .raise e => Sys2Proof.Machine.execRaise e s

end Sys2Proof.Machine
end

