-- ==== Sys2Proof/Machine/Fetch.lean ====
section
/-! DEFINITION. What the block does next: STATE plays the program counter (R17) and the stream is the decoder's program
(R104). -/

namespace Sys2Proof.Machine

/-- The instruction STATE names; none where the block rests (R17, R94, R104, R122, R137). -/
def nextInstr (s : State) : Option Instr :=
  match s.ctl with
  | .idle => none
  | .eSetup => some .eSetup
  | .eWriteHeader => some .eWriteHeader
  | .ePrimeHistory => some .ePrimeHistory
  | .eEmitRecord => some .eEmitRecord
  | .eWriteEnding => some .eWriteEnding
  | .eFlush => some .eFlush
  | .dReadHeader => some .dReadHeader
  | .dInit => some .dInit
  | .dReadRecord => some .dReadRecord
  | .dWriteDecoded => some (.dWriteDecoded (decodedSegment s))
  | .done => none
  | .error => none

/-- The bytes the source will deliver before it ends or fails, and whether it ends (R41). -/
def srcComing : List SrcAnswer → List Byte × Bool
  | [] => ([], true)
  | .byte b :: rest => (b :: (srcComing rest).1, (srcComing rest).2)
  | .interrupted :: rest => srcComing rest
  | .endOfData :: _ => ([], true)
  | .fail :: _ => ([], false)

/-- The stream bits before the decoder's cursor can move no further, and whether the stream ends there (R29, R41, R76). -/
def wireBits (s : State) : Bits × Bool :=
  if s.srcEof then (s.reader.racc, true)
  else (s.reader.racc ++ bytesBits (srcComing s.ports.src).1, (srcComing s.ports.src).2)

/-- The place in the stream of the decoder's next element (R67); none outside the two states that begin one. -/
def wireSlot (s : State) : Option Slot :=
  match s.ctl with
  | .idle => none
  | .eSetup => none
  | .eWriteHeader => none
  | .ePrimeHistory => none
  | .eEmitRecord => none
  | .eWriteEnding => none
  | .eFlush => none
  | .dReadHeader => some .header
  | .dInit => some .prime
  | .dReadRecord => some (.record s.params.hb s.params.mlb)
  | .dWriteDecoded => none
  | .done => none
  | .error => none

/-- The element of the stream at the decoder's cursor (R67). -/
def wireElement (s : State) : Option Instr :=
  match wireSlot s with
  | none => none
  | some slot =>
    match decode slot (wireBits s).2 (wireBits s).1 with
    | .element i _ => some i
    | .reject _ => none

/-- A decoder at the start of `bits` on a fresh source that holds nothing else. -/
def withStream (s : State) (ctl : Ctl) (bits : Bits) : State :=
  ((((s.setHost []).setCtl ctl).setSrcEof false).setReader { racc := [], rcnt := 0, bitsRead := s.reader.bitsRead }).setPorts
    { s.ports with src := (packBits 3 bits).map .byte }

/-- A table word placed where `step` takes its next instruction (log 23): an element at the cursor of a decoder that expects
it, a command in CMD with START pending. -/
def placeWord (s : State) (nbits w : Nat) : State :=
  match tableElement nbits w with
  | none => s
  | some (.header, bits) => withStream s .dReadHeader bits
  | some (.prime, bits) =>
    ((withStream s .dInit bits).setMem { buf := [], hlen := 0, wlen := 0, wcap := 0 }).setParams
      { s.params with h := 8, wc := 1 }
  | some (.record hb mlb, bits) => (withStream s .dReadRecord bits).setParams (paramsOf hb mlb s.params.sd)
  | some (.ending, _) => s
  | some (.command, bits) =>
    ((s.setCtl .idle).setCfg { s.cfg with cmd := if bits = [true] then .decode else .encode }).setHost [.start]

end Sys2Proof.Machine
end

