-- ==== Sys2Proof/Machine/Turn.lean ====
section
/-! DEFINITION. What one step does: the host's next action, or one controller step of the engine (R17, R50; log 1). -/

namespace Sys2Proof.Machine

/-- One controller step: the instruction STATE names; a resting block stays as it is (R122, R137). -/
def engineStep (s : State) : Host.Outcome State Fault Refusal :=
  match nextInstr s with
  | some i => exec i s
  | none => .next s

/-- The ports up to the reset: `reads` answers of the source and `writes` of the sink, then an answer that ends the operation
with no port transaction after it (R122). -/
def Ports.cut (p : Ports) (reads writes : Nat) : Ports :=
  { p with
    src := (p.src ++ List.replicate reads SrcAnswer.endOfData).take reads ++ [.fail]
    snkAns := (p.snkAns ++ List.replicate writes SnkAnswer.ok).take writes ++ [.fail] }

/-- The ports `p` after the reset, where the step left their cut form as `q`: what the sink took stays, the answers that were
not given are still to come, and a flush waited for is not counted (log 33). -/
def Ports.mend (p q : Ports) (reads writes : Nat) : Ports where
  src := p.src.drop (min reads (reads + 1 - q.src.length))
  snk := q.snk
  snkFlushes := if q.snkAns = [] then p.snkFlushes else q.snkFlushes
  snkAns := p.snkAns.drop (min writes (writes + 1 - q.snkAns.length))

/-- The part of the next controller step before the reset; a step without meaning is not begun. -/
def partOfStep (reads writes : Nat) (s : State) : State :=
  match engineStep (s.setPorts (s.ports.cut reads writes)) with
  | .next t => t.setPorts (s.ports.mend t.ports reads writes)
  | .fault _ => s
  | .refused _ => s

/-- A reset inside the next controller step (R130, R136, R144; log 33): the block as in R32, the ports as the part of the step
before the reset left them. -/
def resetDuring (reads writes : Nat) (s : State) : State := resetBlock (partOfStep reads writes s)

/-- One host action (R20 to R24, R136, R138). -/
def hostStep (e : HostEvent) (s : State) : Host.Outcome State Fault Refusal :=
  match e with
  | .engineTurn => engineStep s
  | .writeCfgHb v => .next (hostWrite s { s.cfg with cfgHb := v })
  | .writeCfgMlb v => .next (hostWrite s { s.cfg with cfgMlb := v })
  | .writeCfgSd v => .next (hostWrite s { s.cfg with cfgSd := v })
  | .writeCmd c => .next (hostWrite s { s.cfg with cmd := c })
  | .attach src snkAns => hostAttach src snkAns s
  | .start => exec (commandInstr s.cfg.cmd) s
  | .reset => .next (resetBlock s)
  | .resetDuring reads writes => .next (resetDuring reads writes s)

/-- The host moves while it has actions to make, then the engine. -/
def takeTurn (s : State) : Host.Outcome State Fault Refusal :=
  match s.host with
  | e :: rest => hostStep e (s.setHost rest)
  | [] => engineStep s

end Sys2Proof.Machine
end

