-- ==== Sys2Proof/Machine/Step.lean ====
section
/-! DEFINITION. The step function (R50: one step relation, one agent, each step a function of the whole state). -/

namespace Sys2Proof.Machine

/-- One step of the machine. -/
def step (s : State) : Host.Outcome State Fault Refusal := takeTurn s

/-- `s` with a table word where `step` takes its next instruction (log 23). -/
def State.withFetchWord (s : State) (nbits w : Nat) : State := placeWord s nbits w

end Sys2Proof.Machine
end

