-- ==== Sys2Proof/Safety.lean ====
section
/-! DEFINITION. The terms claims use: the two bit streams, willing ports, frames, and the invariant of a good state. -/

namespace Sys2Proof.Machine

/-- Every bit written since the sink was attached: those in the sink, then the pending ones (R44, R28). -/
def outBits (s : State) : Bits := bytesBits s.ports.snk ++ s.writer.wacc

/-- The sink will answer Ok to every transaction to come (R42, R43). -/
def SinkWilling (s : State) : Prop := ∀ a ∈ s.ports.snkAns, a = SnkAnswer.ok

/-- The bytes the source will deliver before it ends or fails, and whether it then ends; SRC_EOF is an end (R41). -/
def sourceComing (s : State) : List Byte × Bool := if s.srcEof then ([], true) else srcComing s.ports.src

/-- The pending bits are counted (R28). -/
def WriterOk (s : State) : Prop := s.writer.wcnt = s.writer.wacc.length ∧ s.writer.wcnt < 8

/-- From `s` to `t` only the bit writer, the sink's bytes and the sink's coming answers changed. -/
def OnlyWrote (s t : State) : Prop :=
  t = (s.setWriter t.writer).setPorts { s.ports with snk := t.ports.snk, snkAns := t.ports.snkAns }

/-- From `s` to `t` only the bit reader, the source's coming answers and SRC_EOF changed. -/
def OnlyRead (s t : State) : Prop :=
  t = ((s.setReader t.reader).setPorts { s.ports with src := t.ports.src }).setSrcEof t.srcEof

/-- RCNT counts RACC, at most 8 bits (R29). -/
def ReaderOk (s : State) : Prop := s.reader.rcnt = s.reader.racc.length ∧ s.reader.rcnt ≤ 8

/-- `bits` were written, nothing else happened (R71, R72): the stream grew by them, BITS_WRITTEN by their number. -/
structure Wrote (bits : Bits) (s t : State) : Prop where
  only : OnlyWrote s t
  out : outBits t = outBits s ++ bits
  count : t.writer.bitsWritten = s.writer.bitsWritten + bits.length
  writer : WriterOk s → WriterOk t

/-- `n` bits were taken from the stream, nothing else happened (R76, R77): the stream lost them, BITS_READ grew by `n`, and no
source byte was fetched ahead: less than a whole byte is left at hand, or nothing was fetched. -/
structure Took (n : Nat) (s t : State) : Prop where
  only : OnlyRead s t
  wire : wireBits t = ((wireBits s).1.drop n, (wireBits s).2)
  count : t.reader.bitsRead = s.reader.bitsRead + n
  reader : ReaderOk s → ReaderOk t
  lazy : ReaderOk s → t.reader.racc.length < 8 ∨ t.reader = s.reader

/-- From `s` to `t` only BUF with its lengths, the source's coming answers and SRC_EOF changed. -/
def OnlyRefilled (s t : State) : Prop :=
  t = ((s.setMem t.mem).setPorts { s.ports with src := t.ports.src }).setSrcEof t.srcEof

/-- What the discarding of the buffers at DONE and ERROR leaves alone: all but BUF, the working parameters, RACC and the
model's draw counter (U11, log 6). -/
def SameButDiscarded (s t : State) : Prop :=
  t = (((s.setMem t.mem).setParams t.params).setReader { s.reader with racc := t.reader.racc, rcnt := t.reader.rcnt }).setFreeCount
    t.freeCount

/-- `t` is `s` with error `e` raised in it (R122): ERR and STATE written, the pending bits dropped, the buffers discarded. -/
def RaisedFrom (e : ErrorClass) (s t : State) : Prop :=
  SameButDiscarded (((s.setErr e.toErr).setCtl .error).setWriter { s.writer with wacc := [], wcnt := 0 }) t

/-- The bytes that `bits` complete behind the pending bits of `s` (R71). -/
def completedBytes (s : State) (bits : Bits) : Nat := (s.writer.wcnt + bits.length) / 8

/-- Writing `bits` from `s`, then `finish`, as the outcome `o` of an instruction (R71, R72): exactly that with a willing sink;
with any sink that, or an IOError with a part of the bits in the sink (R120, R122, R124).  A sink that takes all the bytes the
bits complete is willing enough; one that fails at one of them makes it an IOError with the bytes before it in the sink. -/
structure Emits (bits : Bits) (finish : State → State) (s : State) (o : Host.Outcome State Fault Refusal) : Prop where
  willing : SinkWilling s → ∃ u, Wrote bits s u ∧ o = .next (finish u)
  any : ∃ t, o = .next t ∧
    ((∃ u, Wrote bits s u ∧ t = finish u) ∨
      ∃ u, OnlyWrote s u ∧ s.ports.snk <+: u.ports.snk ∧ bytesBits u.ports.snk <+: outBits s ++ bits ∧
        RaisedFrom .ioError u t)
  taken : WriterOk s → ∀ rest, s.ports.snkAns = List.replicate (completedBytes s bits) .ok ++ rest →
    ∃ u, Wrote bits s u ∧ u.ports.snkAns = rest ∧ o = .next (finish u)
  fails : WriterOk s → ∀ k rest, s.ports.snkAns = List.replicate k .ok ++ .fail :: rest → k < completedBytes s bits →
    ∃ u t, o = .next t ∧ OnlyWrote s u ∧ u.ports.snkAns = rest ∧
      bytesBits u.ports.snk = (outBits s ++ bits).take (8 * (s.ports.snk.length + k)) ∧ RaisedFrom .ioError u t

/-- What SWR_NEXT(m) leaves when the source does not fail (R82): the first `m` window bytes are history, the bytes that came
close the window, the oldest bytes beyond the capacity are gone, the window's capacity shrank by the shortfall. -/
structure Advanced (m : Nat) (s t : State) : Prop where
  only : OnlyRefilled s t
  form : t.mem.wf
  hist : t.mem.hist = (s.mem.hist ++ s.mem.win.take m).drop (s.mem.hlen + m - s.params.h)
  win : t.mem.win = s.mem.win.drop m ++ (sourceComing s).1.take m
  hlen : t.mem.hlen = min s.params.h (s.mem.hlen + m)
  wlen : t.mem.wlen = s.mem.wlen - m + ((sourceComing s).1.take m).length
  wcap : t.mem.wcap = s.mem.wcap - (m - ((sourceComing s).1.take m).length)
  coming : sourceComing t = ((sourceComing s).1.drop m, (sourceComing s).2)
  srcEof : t.srcEof = (s.srcEof || decide ((sourceComing s).1.length < m))

/-- D_DONE after a clean end (R112, R114): CLEAN_END set, one flush, DONE, the buffers discarded; nothing else. -/
def CleanDone (s t : State) : Prop :=
  ∃ ans, SameButDiscarded (((s.setCleanEnd true).setPorts
    { s.ports with snkFlushes := s.ports.snkFlushes + 1, snkAns := ans }).setCtl .done) t

/-- The sink's next answer is Ok and leaves `rest` to come (R42; log 3). -/
def SinkTakes (s : State) (rest : List SnkAnswer) : Prop :=
  s.ports.snkAns = .ok :: rest ∨ (s.ports.snkAns = [] ∧ rest = [])

/-- The state with every "interrupted" answer of the source left out (R41, R127). -/
def quiet (s : State) : State :=
  s.setPorts { s.ports with src := s.ports.src.filter (fun a => a != .interrupted) }

/-- An outcome with every "interrupted" answer still to come left out. -/
def quietly (o : Host.Outcome State Fault Refusal) : Host.Outcome State Fault Refusal :=
  match o with
  | .next t => .next (quiet t)
  | .fault r => .fault r
  | .refused r => .refused r

/-- Instructions in order, stopping where one does not answer a next state. -/
def runAll : List Instr → State → Host.Outcome State Fault Refusal
  | [], s => .next s
  | i :: is, s =>
    match exec i s with
    | .next t => runAll is t
    | .fault r => .fault r
    | .refused r => .refused r

/-! ## The search, said without its loop -/

/-- The length of the longest common prefix of two byte sequences (R88 corner case (a)). -/
def commonPrefix : List Byte → List Byte → Nat
  | [], _ => 0
  | _ :: _, [] => 0
  | x :: xs, y :: ys => if x = y then commonPrefix xs ys + 1 else 0

/-- How far `sub` matches from index `p` of `seq` on. -/
def matchAt (seq sub : List Byte) (p : Nat) : Nat := commonPrefix (seq.drop p) sub

/-- Index `p` starts a qualifying match (R5, R89). -/
def qualifies (seq sub : List Byte) (thr p : Nat) : Bool := decide (0 < matchAt seq sub p) && decide (thr ≤ matchAt seq sub p)

/-- The qualifying match at `p` is among those BEST_MATCH counts: all at depth 0, the first `depth` otherwise (R5, R91). -/
def searched (seq sub : List Byte) (thr depth p : Nat) : Prop :=
  qualifies seq sub thr p = true ∧ (depth = 0 ∨ (List.range p).countP (qualifies seq sub thr) < depth)

/-- `(pos, len)` is the longest counted match, the earliest of equals; `(0, 0)` where none is counted (R89, R91). -/
def IsBest (seq sub : List Byte) (thr depth pos len : Nat) : Prop :=
  ((pos = 0 ∧ len = 0 ∧ ∀ p, ¬ searched seq sub thr depth p) ∨
    (searched seq sub thr depth pos ∧ len = matchAt seq sub pos)) ∧
  ∀ p, searched seq sub thr depth p → matchAt seq sub p ≤ len ∧ (matchAt seq sub p = len → pos ≤ p)

/-! ## The invariant -/

/-- The working parameters are a legal set with its derived constants (R5, R6, R14). -/
def ParamsOk (p : Params) : Prop :=
  paramsLegal p.hb p.mlb = true ∧ p = paramsOf p.hb p.mlb p.sd

/-- The buffer on the encode side (R27). -/
def EncoderBuffer (s : State) : Prop :=
  ParamsOk s.params ∧ s.mem.wf ∧ s.mem.hlen ≤ s.params.h ∧ s.mem.wlen ≤ s.params.wc ∧ s.mem.wlen = s.mem.wcap ∧
    (s.srcEof = false → s.mem.wcap = s.params.wc)

/-- The buffer on the decode side, from the first record on (R26, R27, R107). -/
def DecoderBuffer (s : State) : Prop :=
  ParamsOk s.params ∧ s.mem.wf ∧ s.mem.hlen ≤ s.params.h ∧ s.mem.wlen = 0 ∧ s.mem.wcap = 0 ∧ s.params.wc ≤ s.mem.hlen

/-- The buffer is empty (R33). -/
def FreshBuffer (s : State) : Prop := s.mem = { buf := [], hlen := 0, wlen := 0, wcap := 0 }

/-- What holds in each value of STATE (R27, R33, R81, R94, R97, R98, R101, R107, R110). -/
def CallInv (s : State) : Prop :=
  match s.ctl with
  | .idle => True
  | .eSetup => FreshBuffer s ∧ s.srcEof = false
  | .eWriteHeader => EncoderBuffer s ∧ s.mem.hlen = s.params.wc ∧ s.mem.wlen = s.params.wc
  | .ePrimeHistory => EncoderBuffer s ∧ s.mem.hlen = s.params.wc ∧ s.mem.wlen = s.params.wc
  | .eEmitRecord => EncoderBuffer s ∧ 0 < s.mem.wlen
  | .eWriteEnding => EncoderBuffer s ∧ s.mem.wlen = 0
  | .eFlush => EncoderBuffer s ∧ s.mem.wlen = 0 ∧ s.writer.wcnt = 0
  | .dReadHeader => FreshBuffer s ∧ s.srcEof = false
  | .dInit => FreshBuffer s ∧ ParamsOk s.params
  | .dReadRecord => DecoderBuffer s
  | .dWriteDecoded =>
    DecoderBuffer s ∧
      (s.record.tag = false →
        s.record.pos + s.record.len ≤ s.mem.hlen ∧ s.params.thr ≤ s.record.len ∧ s.record.len ≤ s.params.wc)
  | .done => True
  | .error => True

/-- Every register held as a number fits the width the spec gives it (R14, R15, R26, R28, R29, R31). -/
def FitsWidths (s : State) : Prop :=
  (s.params.hb < 2 ^ 5 ∧ s.params.mlb < 2 ^ 4 ∧ s.params.sd < 2 ^ 32 ∧ s.params.thr < 2 ^ 3 ∧ s.params.h < 2 ^ 32 ∧
      s.params.wc < 2 ^ 16) ∧
    (s.record.pos < 2 ^ 31 ∧ s.record.len < 2 ^ 16) ∧
    (s.search.off < 2 ^ 32 ∧ s.search.start < 2 ^ 32 ∧ s.search.count < 2 ^ 16 ∧ s.search.found < 2 ^ 32 ∧
      s.search.bestPos < 2 ^ 31 ∧ s.search.bestLen < 2 ^ 16) ∧
    (s.mem.hlen < 2 ^ 32 ∧ s.mem.wlen < 2 ^ 16 ∧ s.mem.wcap < 2 ^ 16) ∧ s.writer.wcnt < 2 ^ 3 ∧ s.reader.rcnt < 2 ^ 4

/-- A good state of the block. -/
structure Inv (s : State) : Prop where
  /-- What STATE promises about buffer, parameters and record. -/
  call : CallInv s
  /-- Register widths. -/
  widths : FitsWidths s
  /-- WCNT counts WACC (R28). -/
  writer : WriterOk s
  /-- WCNT = BITS_WRITTEN mod 8 (R18, R28), but in ERROR, where R122 drops the pending bits (log 18). -/
  cursor : s.ctl ≠ .error → s.writer.wcnt = s.writer.bitsWritten % 8
  /-- RCNT counts RACC, at most 8 bits (R29). -/
  reader : ReaderOk s
  /-- ERR names the class that put the block in ERROR, and is none otherwise (R21). -/
  err : s.ctl = .error ↔ s.err ≠ .none
  /-- CLEAN_END is set on the way to DONE only; a failing flush may follow (R19, R112, R114). -/
  clean : s.cleanEnd = true → s.ctl = .done ∨ s.ctl = .error

/-- The host's next action, if any, leaves the ports to a running call (R142, U7). -/
def HostKeepsOff (s : State) : Prop :=
  ∀ src ans rest, s.host = .attach src ans :: rest → s.busy = false

/-- A state from which no number of steps is refused or faults. -/
def SafeRun (s : State) : Prop := ∀ n, ∃ t, Host.Core.run core n s = .next t

end Sys2Proof.Machine
end

