-- ==== Sys2Proof/Certificates/Slice0/Obligations.lean ====
section
/-! DEFINITION. The statements about the model. -/

open Sys2Proof Sys2Proof.Machine

/-! ## Encoding -/

/-- Decoding an encoded well-formed element at its place gives it back, whatever follows; a SENTINEL is told from a LITERAL by
fewer than 8 bits being left, PAD and the command register stand last (R57 to R62, R67, R69). -/
def Obligations.DecodeOfEncodeIsTheElement : Prop :=
  ∀ (hb mlb : Nat) (i : Instr) (slot : Slot), i.wf = true → i.fits hb mlb = true → i.slot hb mlb = some slot →
    ∀ (ended : Bool) (rest : Bits),
      (i = .sentinel → ended = true ∧ rest.length < 8) → (∀ n, i = .pad n → ended = true ∧ rest = []) →
      (slot = .command → rest = []) →
      decode slot ended (encode hb mlb i ++ rest) = .element i rest

/-- The other direction: a decoded element belongs to the place, its fields fit, and encoding it gives the bits that were read;
the bits of PAD are not examined (R65), only counted. -/
def Obligations.EncodeOfDecodeIsTheBits : Prop :=
  ∀ (hb mlb : Nat) (slot : Slot) (ended : Bool) (bits rest : Bits) (i : Instr),
    decode slot ended bits = .element i rest → (∀ h m, slot = .record h m → h = hb ∧ m = mlb) →
    i.slot hb mlb = some slot ∧ i.fits hb mlb = true ∧
      (slot = .ending → i = .pad bits.length ∧ rest = [] ∧ bits.length < 8) ∧
      (slot ≠ .ending → encode hb mlb i ++ rest = bits)

/-- Where the source ends (R65, R67): inside a header, a priming byte or a reference no element stands, by name; at a record
boundary it is the end of the stream; fewer than 8 bits after a literal tag make it a SENTINEL. -/
def Obligations.StreamEndsAreToldApart : Prop :=
  ∀ (hb mlb : Nat) (bits : Bits),
    (bits.length < 9 → decode .header true bits = .reject .truncatedHeader) ∧
    (bits.length < 8 → decode .prime true bits = .reject .truncatedPrimeByte) ∧
    decode (.record hb mlb) true [] = .reject .endOfStream ∧
    (bits.length < hb + mlb → decode (.record hb mlb) true (false :: bits) = .reject .truncatedReference) ∧
    (bits.length < 8 → decode (.record hb mlb) true (true :: bits) = .element .sentinel bits)

/-- Words written out from the examples of R57, R59, R60, R99 and vector V10, bit by bit. -/
def Obligations.WrittenWordsDecode : Prop :=
  decode .header false [false, false, true, false, false, false, false, true, false] = .element (.header 4 2) [] ∧
  decode .header false [false, true, true, false, false, false, true, false, false] = .element (.header 12 4) [] ∧
  decode .prime false [false, true, false, false, false, false, false, true] = .element (.primeByte 0x41) [] ∧
  decode (.record 4 2) false [true, false, true, false, true, true, false, false, false] = .element (.literal 0x58) [] ∧
  decode (.record 4 2) false [false, false, false, false, false, true, true] = .element (.reference 0 3) [] ∧
  decode (.record 6 2) false [false, false, false, false, false, true, true, false, true] = .element (.reference 3 1) [] ∧
  decode (.record 4 2) true [true, false, false, false, false, false, false] =
    .element .sentinel [false, false, false, false, false, false] ∧
  decode .ending true [false, false, false, false, false, false] = .element (.pad 6) []

/-! ## Parameters and state -/

/-- The derived constants of every legal pair lie in the ranges that the spec's own enumeration gives (00_scope.md section 3,
the rule after R6, marked "[derived: from rule R5 and rule R6 by enumeration]"). -/
def Obligations.DerivedConstantsHaveTheirRanges : Prop :=
  ∀ hb mlb : Nat, 3 ≤ hb → hb ≤ 31 → 2 ≤ mlb → mlb ≤ 15 → mlb < hb →
    thresholdOf hb mlb = (if hb + mlb ≤ 7 then 1 else if hb + mlb ≤ 16 then 2 else if hb + mlb ≤ 25 then 3
      else if hb + mlb ≤ 34 then 4 else if hb + mlb ≤ 43 then 5 else 6) ∧
    8 ≤ capacityOf hb ∧ capacityOf hb ≤ 2 ^ 31 ∧ 4 ≤ windowOf hb mlb ∧ windowOf hb mlb ≤ 32773 ∧
    windowOf hb mlb ≤ capacityOf hb ∧ (capacityOf hb < 2 * windowOf hb mlb ↔ hb = mlb + 1 ∧ 4 ≤ mlb) ∧
    9 * (thresholdOf hb mlb - 1) ≤ 1 + hb + mlb ∧ 1 + hb + mlb < 9 * thresholdOf hb mlb

/-- The state after reset (R32), and that the block then waits (the host is silent at reset: log 1). -/
def Obligations.ResetLeavesTheTableOfValues : Prop :=
  State.reset.ctl = .idle ∧ State.reset.status = 0 ∧ State.reset.err = .none ∧
  State.reset.cfg = { cfgHb := 12, cfgMlb := 4, cfgSd := 0, cmd := .encode } ∧
  State.reset.hdr = { hb := 0, mlb := 0 } ∧
  State.reset.mem = { buf := [], hlen := 0, wlen := 0, wcap := 0 } ∧
  State.reset.writer = { wacc := [], wcnt := 0, bitsWritten := 0 } ∧
  State.reset.reader = { racc := [], rcnt := 0, bitsRead := 0 } ∧
  State.reset.srcEof = false ∧ State.reset.cleanEnd = false ∧ step State.reset = .next State.reset

/-- A reset, in any state (R136).  That the ports, the host's further actions and the draw counter stay is the model's choice
(log 28). -/
def Obligations.ResetWorksInAnyState : Prop :=
  ∀ (s : State) (rest : List HostEvent), s.host = .reset :: rest →
    ∃ t, step s = .next t ∧ t.ctl = .idle ∧ t.status = 0 ∧ t.err = .none ∧
      t.cfg = { cfgHb := 12, cfgMlb := 4, cfgSd := 0, cmd := .encode } ∧ t.hdr = { hb := 0, mlb := 0 } ∧
      t.mem = { buf := [], hlen := 0, wlen := 0, wcap := 0 } ∧ t.writer = { wacc := [], wcnt := 0, bitsWritten := 0 } ∧
      t.reader = { racc := [], rcnt := 0, bitsRead := 0 } ∧ t.srcEof = false ∧ t.cleanEnd = false ∧
      t.ports = s.ports ∧ t.host = rest ∧ t.freeCount = s.freeCount

/-- ENCODE and DECODE (R22, R33): at rest the per-call initialisation and the first STATE, nothing else; while BUSY nothing.
START runs the command that CMD selects.  That ENCODE and DECODE write CMD themselves is the model's reading (log 11). -/
def Obligations.CommandsStartACall : Prop :=
  ∀ s : State,
    (s.busy = false →
      exec .encode s = .next { s with
        cfg := { s.cfg with cmd := .encode }, err := .none, mem := { buf := [], hlen := 0, wlen := 0, wcap := 0 },
        writer := { wacc := [], wcnt := 0, bitsWritten := 0 }, reader := { racc := [], rcnt := 0, bitsRead := 0 },
        srcEof := false, cleanEnd := false, ctl := .eSetup } ∧
      exec .decode s = .next { s with
        cfg := { s.cfg with cmd := .decode }, err := .none, mem := { buf := [], hlen := 0, wlen := 0, wcap := 0 },
        writer := { wacc := [], wcnt := 0, bitsWritten := 0 }, reader := { racc := [], rcnt := 0, bitsRead := 0 },
        srcEof := false, cleanEnd := false, ctl := .dReadHeader }) ∧
    (s.busy = true → exec .encode s = .next s ∧ exec .decode s = .next s) ∧
    (∀ rest, s.host = .start :: rest →
      step s = exec (match s.cfg.cmd with | .encode => .encode | .decode => .decode) (s.setHost rest))

/-- Host access (R24): a write to CFG_HB, CFG_MLB, CFG_SD or CMD is taken at rest and ignored while BUSY; STATUS, ERR, HDR_HB and
HDR_MLB are readable at any time.  CLEAN_END's readability is log 25. -/
def Obligations.HostAccessKeepsTheRules : Prop :=
  ∀ (s : State) (rest : List HostEvent),
    (∀ v, s.host = .writeCfgHb v :: rest →
      step s = .next { s with host := rest, cfg := if s.busy then s.cfg else { s.cfg with cfgHb := v } }) ∧
    (∀ v, s.host = .writeCfgMlb v :: rest →
      step s = .next { s with host := rest, cfg := if s.busy then s.cfg else { s.cfg with cfgMlb := v } }) ∧
    (∀ v, s.host = .writeCfgSd v :: rest →
      step s = .next { s with host := rest, cfg := if s.busy then s.cfg else { s.cfg with cfgSd := v } }) ∧
    (∀ c, s.host = .writeCmd c :: rest →
      step s = .next { s with host := rest, cfg := if s.busy then s.cfg else { s.cfg with cmd := c } }) ∧
    s.hostRead .status = some s.status.toNat ∧ s.hostRead .err = some s.err.code.toNat ∧
    s.hostRead .hdrHb = some s.hdr.hb.toNat ∧ s.hostRead .hdrMlb = some s.hdr.mlb.toNat

/-- STATUS has at most one bit set, the one of the STATE (R19, R21), and ERR has the codes of R123. -/
def Obligations.StatusWordFollowsState : Prop :=
  (∀ s : State, s.status = (if s.ctl = .idle then 0 else if s.ctl = .done then 2 else if s.ctl = .error then 4 else 1)) ∧
  ErrCode.code .none = 0 ∧ (ErrorClass.toErr .configurationError).code = 1 ∧ (ErrorClass.toErr .truncatedInput).code = 2 ∧
  (ErrorClass.toErr .ioError).code = 3 ∧ (ErrorClass.toErr .corruptStream).code = 4

/-- The configuration registers are written by the host only (R20): no instruction writes CFG_*, and only the two commands CMD. -/
def Obligations.BlockNeverWritesConfiguration : Prop :=
  ∀ (i : Instr) (s t : State), exec i s = .next t →
    t.cfg.cfgHb = s.cfg.cfgHb ∧ t.cfg.cfgMlb = s.cfg.cfgMlb ∧ t.cfg.cfgSd = s.cfg.cfgSd ∧
      (i ≠ .encode → i ≠ .decode → t.cfg = s.cfg)

/-- DECODE ignores the configuration (R20): a step of the decoder from two states that differ in CFG_* and CMD only ends in two
states that differ in them only. -/
def Obligations.DecoderIgnoresConfiguration : Prop :=
  ∀ (s : State) (c : HostRegs), s.host = [] → s.ctl.side = .decoder →
    (∀ t, step s = .next t → step (s.setCfg c) = .next (t.setCfg c)) ∧
      (∀ r, step s = .refused r → step (s.setCfg c) = .refused r)

/-! ## Errors -/

/-- RAISE (R122, R123): ERR and STATE are written, the pending output bits are dropped, no port transaction is made, and the block
stops; the buffers, the working parameters and RACC are no longer meaningful (U11). -/
def Obligations.RaiseEntersError : Prop :=
  ∀ (e : ErrorClass) (s : State), ∃ t, exec (.raise e) s = .next t ∧ t.ctl = .error ∧ t.err = e.toErr ∧
    t.writer = { wacc := [], wcnt := 0, bitsWritten := s.writer.bitsWritten } ∧ t.ports = s.ports ∧
    t.reader.bitsRead = s.reader.bitsRead ∧ t.hdr = s.hdr ∧ t.cfg = s.cfg ∧ t.record = s.record ∧ t.search = s.search ∧
    t.srcEof = s.srcEof ∧ t.cleanEnd = s.cleanEnd ∧ t.host = s.host ∧ t.opResult = s.opResult ∧
    (s.host = [] → step t = .next t)

/-- ERROR and DONE are left by START and by reset only (R128), and START begins a fresh call with ERR = 0. -/
def Obligations.OnlyStartAndResetLeaveError : Prop :=
  ∀ s t : State, s.ctl = .error ∨ s.ctl = .done → step s = .next t →
    t.ctl = s.ctl ∨ (∃ rest, s.host = .reset :: rest ∨ ∃ r w, s.host = .resetDuring r w :: rest) ∨
      ∃ rest, s.host = .start :: rest ∧ t.err = .none ∧ t.mem.buf = [] ∧ t.writer.wacc = [] ∧ t.reader.racc = []

/-- At rest and with nothing from the host the block does nothing (R137). -/
def Obligations.RestingBlockWaits : Prop :=
  ∀ s : State, s.busy = false → s.host = [] → step s = .next s

/-- Attaching ports (R33, R138): fresh at rest, refused while BUSY (the model's form of U7: log 15). -/
def Obligations.PortsAreAttachedAtRestOnly : Prop :=
  ∀ (s : State) (rest : List HostEvent) (src : List SrcAnswer) (ans : List SnkAnswer), s.host = .attach src ans :: rest →
    (s.busy = false → step s = .next { s with host := rest, ports := { src := src, snk := [], snkFlushes := 0, snkAns := ans } }) ∧
    (s.busy = true → step s = .refused .portsInUse)

/-- Calls outside their precondition are refused by name (U4, U5, R81 with D26, R98: log 13, log 14). -/
def Obligations.CallsOutsidePreconditionsAreRefused : Prop :=
  ∀ s : State,
    (∀ n v, n = 0 ∨ 32 < n →
      exec (.bwWriteBits n v) s = .refused .fieldWidth ∧ exec (.brReadBits n) s = .refused .fieldWidth) ∧
    (∀ m, m = 0 ∨ s.mem.wlen < m → exec (.swrNext m) s = .refused .windowAdvance) ∧
    (s.mem.buf ≠ [] ∨ s.srcEof = true → exec .swrConstruct s = .refused .readerNotFresh) ∧
    (s.mem.win = [] → exec .eEmitRecord s = .refused .emptyWindow)

/-! ## The step -/

/-- STATE names the step the block performs next (R17); D_WRITE_DECODED takes the segment of the record just read (R111),
which the model computes from REC_* and the history at that step (the model's choice: log 12). -/
def Obligations.StepRunsTheInstructionStateNames : Prop :=
  ∀ s : State, s.host = [] →
    (s.ctl = .eSetup → step s = exec .eSetup s) ∧ (s.ctl = .eWriteHeader → step s = exec .eWriteHeader s) ∧
    (s.ctl = .ePrimeHistory → step s = exec .ePrimeHistory s) ∧ (s.ctl = .eEmitRecord → step s = exec .eEmitRecord s) ∧
    (s.ctl = .eWriteEnding → step s = exec .eWriteEnding s) ∧ (s.ctl = .eFlush → step s = exec .eFlush s) ∧
    (s.ctl = .dReadHeader → step s = exec .dReadHeader s) ∧ (s.ctl = .dInit → step s = exec .dInit s) ∧
    (s.ctl = .dReadRecord → step s = exec .dReadRecord s) ∧
    (s.ctl = .dWriteDecoded → s.record.tag = true → step s = exec (.dWriteDecoded [s.record.byte]) s) ∧
    (s.ctl = .dWriteDecoded → s.record.tag = false →
      step s = exec (.dWriteDecoded ((s.mem.hist.drop s.record.pos).take s.record.len)) s)

/-- The decoder's program is the stream (R104): where a header or a record is expected and the bits at the cursor decode to an
element, the step is the element's own meaning, which for the decoder is the model's reading of the table's rows (the model's
choice: log 9). -/
def Obligations.StepRunsTheElementOnTheWire : Prop :=
  ∀ (s : State) (i : Instr) (rest : Bits), s.host = [] →
    (s.ctl = .dReadHeader → decode .header (wireBits s).2 (wireBits s).1 = .element i rest → step s = exec i s) ∧
    (s.ctl = .dReadRecord → decode (.record s.params.hb s.params.mlb) (wireBits s).2 (wireBits s).1 = .element i rest →
      step s = exec i s)

/-- D_INIT is its WC priming bytes one after another (R58, R107).  That PRIME_BYTE is one turn of D_INIT, the last going on to
D_READ_RECORD, is the model's reading of the table's row (the model's choice: log 9). -/
def Obligations.InitRunsItsPrimingBytes : Prop :=
  ∀ (s : State) (bs : List Byte), s.host = [] → s.ctl = .dInit → s.mem = { buf := [], hlen := 0, wlen := 0, wcap := 0 } →
    1 ≤ s.params.wc → s.params.wc ≤ s.params.h → bs.length = s.params.wc → bytesBits bs <+: (wireBits s).1 →
    step s = runAll (bs.map .primeByte) s

/-- A table word placed by `withFetchWord` is what the next step runs (the model's reading of the table: log 22, log 23). -/
def Obligations.PlacedTableWordRunsNext : Prop :=
  ∀ (s : State) (nbits w : Nat) (i : Instr), decodeTableWord nbits w = some i →
    step (s.withFetchWord nbits w) = exec i ((s.withFetchWord nbits w).setHost [])

/-- The controller moves along the two transition tables only (R94, R104). -/
def Obligations.ControllerFollowsTheTransitionTables : Prop :=
  ∀ s t : State, s.host = [] → step s = .next t →
    match s.ctl with
    | .idle => t.ctl = .idle
    | .eSetup => t.ctl = .eWriteHeader ∨ t.ctl = .error
    | .eWriteHeader => t.ctl = .ePrimeHistory ∨ t.ctl = .error
    | .ePrimeHistory => t.ctl = (if 0 < t.mem.wlen then .eEmitRecord else .eWriteEnding) ∨ t.ctl = .error
    | .eEmitRecord => t.ctl = (if 0 < t.mem.wlen then .eEmitRecord else .eWriteEnding) ∨ t.ctl = .error
    | .eWriteEnding => t.ctl = .eFlush ∨ t.ctl = .error
    | .eFlush => t.ctl = .done ∨ t.ctl = .error
    | .dReadHeader => t.ctl = .dInit ∨ t.ctl = .error
    | .dInit => t.ctl = .dReadRecord ∨ t.ctl = .error
    | .dReadRecord => t.ctl = .dWriteDecoded ∨ (t.ctl = .done ∧ t.cleanEnd = true) ∨ t.ctl = .error
    | .dWriteDecoded => t.ctl = .dReadRecord ∨ t.ctl = .error
    | .done => t.ctl = .done
    | .error => t.ctl = .error

/-! ## Bit writer -/

/-- BW_WRITE_BIT (R71), pending bits, completed byte and failing sink. -/
def Obligations.WriteBitAppendsOneBit : Prop :=
  ∀ (b : Bool) (s : State), WriterOk s →
    (s.writer.wcnt < 7 → exec (.bwWriteBit b) s = .next { s with writer :=
      { wacc := s.writer.wacc ++ [b], wcnt := s.writer.wcnt + 1, bitsWritten := s.writer.bitsWritten + 1 } }) ∧
    (s.writer.wcnt = 7 → ∃ x : Byte, byteBits x = s.writer.wacc ++ [b] ∧
      (∀ rest, SinkTakes s rest → exec (.bwWriteBit b) s = .next { s with
        writer := { wacc := [], wcnt := 0, bitsWritten := s.writer.bitsWritten + 1 },
        ports := { s.ports with snk := s.ports.snk ++ [x], snkAns := rest } }) ∧
      (∀ rest, s.ports.snkAns = .fail :: rest → ∃ t, exec (.bwWriteBit b) s = .next t ∧
        RaisedFrom .ioError { s with
          writer := { wacc := [], wcnt := 0, bitsWritten := s.writer.bitsWritten + 1 },
          ports := { s.ports with snkAns := rest } } t))

/-- BW_WRITE_BITS and BW_WRITE_BYTE (R72, R73): the field's bits, bit n-1 first, at the offset the stream has. -/
def Obligations.WriteFieldsMostSignificantBitFirst : Prop :=
  (∀ n v k : Nat, k < n → (fieldBits n v)[k]? = some (v.testBit (n - 1 - k))) ∧
  ∀ s : State,
    (∀ n v : Nat, 1 ≤ n → n ≤ 32 → v < 2 ^ n → Emits (fieldBits n v) id s (exec (.bwWriteBits n v) s)) ∧
    (∀ b : Byte, Emits (fieldBits 8 b.toNat) id s (exec (.bwWriteByte b) s) ∧
      exec (.bwWriteByte b) s = exec (.bwWriteBits 8 b.toNat) s)

/-- BW_PAD (R74): zeros up to the byte boundary, none on it; exactly one byte goes to the sink otherwise. -/
def Obligations.PadZeroFillsToTheByte : Prop :=
  ∀ s : State, WriterOk s →
    Emits (List.replicate ((8 - s.writer.wcnt) % 8) false) id s (exec .bwPad s) ∧
    (s.writer.wcnt = 0 → exec .bwPad s = .next s) ∧
    (∀ t, SinkWilling s → exec .bwPad s = .next t → t.writer.wcnt = 0 ∧ t.writer.wacc = [] ∧
      (s.writer.wcnt ≠ 0 → t.ports.snk.length = s.ports.snk.length + 1 ∧
        t.writer.bitsWritten = s.writer.bitsWritten + (8 - s.writer.wcnt)))

/-- BW_FLUSH (R75, R43): one flush, no byte written; a failing flush is IOError. -/
def Obligations.FlushNeverWritesAByte : Prop :=
  ∀ (s : State) (rest : List SnkAnswer),
    (SinkTakes s rest → exec .bwFlush s = .next { s with
      ports := { s.ports with snkFlushes := s.ports.snkFlushes + 1, snkAns := rest } }) ∧
    (s.ports.snkAns = .fail :: rest → ∃ u t, exec .bwFlush s = .next t ∧ u = { s with ports := u.ports } ∧
      u.ports.snk = s.ports.snk ∧ u.ports.src = s.ports.src ∧ RaisedFrom .ioError u t)

/-! ## Bit reader -/

/-- BR_READ_BIT (R76): the next stream bit; a source byte is fetched only when no bit is left; Eof(0) at the end; IOError at a
failure.  What it returned stands in `opResult` (log 8). -/
def Obligations.ReadBitTakesTheNextStreamBit : Prop :=
  ∀ s : State,
    (∀ b bs e, wireBits s = (b :: bs, e) → ∃ t, Took 1 s t ∧ exec .brReadBit s = .next (t.setOpResult (.val b.toNat)) ∧
      (s.reader.racc ≠ [] → t.ports = s.ports ∧ t.srcEof = s.srcEof)) ∧
    (wireBits s = ([], true) → ∃ t, Took 0 s t ∧ t.srcEof = true ∧ exec .brReadBit s = .next (t.setOpResult (.eof 0))) ∧
    (wireBits s = ([], false) → ∃ u t, OnlyRead s u ∧ u.reader = s.reader ∧ exec .brReadBit s = .next t ∧
      RaisedFrom .ioError u t)

/-- BR_READ_BITS and BR_READ_BYTE (R77, R78): the field's value, most significant bit first; Eof(k) with the k bits taken and
lost; IOError at a failure. -/
def Obligations.ReadFieldsMostSignificantBitFirst : Prop :=
  ∀ (n : Nat) (i : Instr) (s : State), 1 ≤ n → n ≤ 32 → (i = .brReadBits n ∨ (i = .brReadByte ∧ n = 8)) →
    (n ≤ (wireBits s).1.length → ∃ t v, Took n s t ∧ exec i s = .next (t.setOpResult (.val v)) ∧ v < 2 ^ n ∧
      fieldBits n v = (wireBits s).1.take n) ∧
    ((wireBits s).1.length < n → (wireBits s).2 = true →
      ∃ t, Took (wireBits s).1.length s t ∧ t.srcEof = true ∧
        exec i s = .next (t.setOpResult (.eof (wireBits s).1.length))) ∧
    ((wireBits s).1.length < n → (wireBits s).2 = false →
      ∃ u t, OnlyRead s u ∧ u.reader.bitsRead = s.reader.bitsRead + (wireBits s).1.length ∧ exec i s = .next t ∧
        RaisedFrom .ioError u t)

/-- "Interrupted" answers are invisible (R41, R127): every instruction does the same with them left out. -/
def Obligations.InterruptedAnswersAreInvisible : Prop :=
  ∀ (i : Instr) (s : State), quietly (exec i s) = exec i (quiet s)

/-! ## Sliding buffer -/

/-- HistPush (R80, R54): append, then evict the oldest beyond H; on the decode side every retained byte is renumbered by the
number evicted.  For WLEN > 0 and for an empty segment, which R80 does not give an operand range to, that is the model's choice
(log 17). -/
def Obligations.HistPushAppendsThenEvicts : Prop :=
  ∀ (seg : List Byte) (s : State), ∃ m : Memory, exec (.histPush seg) s = .next { s with mem := m } ∧
    m.buf = (s.mem.buf ++ seg).drop (s.mem.hlen + seg.length - s.params.h) ∧
    m.hlen = min s.params.h (s.mem.hlen + seg.length) ∧ m.wlen = s.mem.wlen ∧ m.wcap = s.mem.wcap ∧
    (s.mem.wf → m.wf ∧ (s.mem.wlen = 0 → m.win = [] ∧
      ∀ k, m.histByte k = (s.mem.hist ++ seg)[s.mem.hlen + seg.length - s.params.h + k]?))

/-- SWR_CONSTRUCT (R81): 2 * WC bytes, the first half history, the second window; TruncatedInput or IOError when fewer come. -/
def Obligations.ConstructFillsHistoryAndWindow : Prop :=
  ∀ s : State, s.mem.buf = [] → s.srcEof = false →
    (2 * s.params.wc ≤ (sourceComing s).1.length → ∃ t, OnlyRefilled s t ∧ exec .swrConstruct s = .next t ∧ t.mem.wf ∧
      t.mem.hist = (sourceComing s).1.take s.params.wc ∧
      t.mem.win = ((sourceComing s).1.drop s.params.wc).take s.params.wc ∧ t.mem.hlen = s.params.wc ∧
      t.mem.wlen = s.params.wc ∧ t.mem.wcap = s.params.wc ∧
      sourceComing t = ((sourceComing s).1.drop (2 * s.params.wc), (sourceComing s).2) ∧ t.srcEof = false) ∧
    ((sourceComing s).1.length < 2 * s.params.wc → ∃ u t, OnlyRefilled s u ∧ exec .swrConstruct s = .next t ∧
      RaisedFrom (if (sourceComing s).2 then .truncatedInput else .ioError) u t ∧
      ((sourceComing s).2 = true → u.srcEof = true))

/-- SWR_NEXT (R82), its result the new view; IOError when the source fails before the `m` bytes. -/
def Obligations.NextMovesTheWindowOn : Prop :=
  ∀ (m : Nat) (s : State), s.mem.wf → 1 ≤ m → m ≤ s.mem.wlen →
    (m ≤ (sourceComing s).1.length ∨ (sourceComing s).2 = true →
      ∃ t, Advanced m s t ∧ exec (.swrNext m) s = .next (t.setOpResult (.view t.mem.hist t.mem.win))) ∧
    ((sourceComing s).1.length < m → (sourceComing s).2 = false →
      ∃ u t, OnlyRefilled s u ∧ exec (.swrNext m) s = .next t ∧ RaisedFrom .ioError u t)

/-- SWR_CURRENT (R83): the two slices of BUF, nothing changed but the model's own result field (log 8). -/
def Obligations.CurrentReturnsTheView : Prop :=
  ∀ s : State, exec .swrCurrent s =
    .next { s with opResult := .view (s.mem.buf.take s.mem.hlen) ((s.mem.buf.drop s.mem.hlen).take s.mem.wlen) }

/-- No byte is lost or reordered between the source and the history (41_sliding_window.md section 3): history, window and what is
still to come are one sequence, shortened at its old end only; the window stays full while data remain. -/
def Obligations.NextLosesOnlyEvictedBytes : Prop :=
  ∀ (m : Nat) (s t : State), s.mem.wf → 1 ≤ m → m ≤ s.mem.wlen →
    m ≤ (sourceComing s).1.length ∨ (sourceComing s).2 = true → exec (.swrNext m) s = .next t →
    t.mem.hist ++ t.mem.win ++ (sourceComing t).1 =
      (s.mem.hist ++ s.mem.win ++ (sourceComing s).1).drop (s.mem.hlen + m - s.params.h) ∧
    t.mem.hlen ≤ s.params.h ∧ (t.mem.wlen = s.mem.wlen ∨ (sourceComing t).1 = [])

/-! ## Search -/

/-- FIRST_MATCH, said without its loop: the smallest index with a match and the whole common prefix there; (0, 0) where there is
none (42_match_search.md, corner case (a) of FIRST_MATCH, "[derived]" there). -/
def Obligations.FirstMatchIsTheOldestRun : Prop :=
  ∀ (seq sub : List Byte) (s : State), ∃ (p l : Nat) (r : SearchRegs),
    exec (.firstMatch seq sub) s = .next ((s.setSearch r).setOpResult (.range p l)) ∧
    ((l = 0 ∧ p = 0 ∧ ∀ q, matchAt seq sub q = 0) ∨
      (0 < l ∧ l = matchAt seq sub p ∧ ∀ q, q < p → matchAt seq sub q = 0)) ∧
    (seq.drop p).take l = sub.take l ∧ r = { s.search with start := r.start, count := r.count }

/-- BEST_MATCH, said without its loop: the longest of the counted candidates, the earliest of equals, all counted at depth 0 and
the first `depth` otherwise; its range lies in `seq` and equals the start of `sub` (42_match_search.md, the properties after
BEST_MATCH's rule, "[derived: from rule R88 and rule R89]" there; R91). -/
def Obligations.BestMatchIsTheLongestCounted : Prop :=
  ∀ (seq sub : List Byte) (thr depth : Nat) (s : State), ∃ r : SearchRegs,
    exec (.bestMatch seq sub thr depth) s = .next ((s.setSearch r).setOpResult (.range r.bestPos r.bestLen)) ∧
    IsBest seq sub thr depth r.bestPos r.bestLen ∧ (r.bestLen = 0 ∨ thr ≤ r.bestLen) ∧
    r.bestPos + r.bestLen ≤ seq.length ∧ r.bestLen ≤ sub.length ∧
    (seq.drop r.bestPos).take r.bestLen = sub.take r.bestLen

/-! ## Encoder -/

/-- E_SETUP (R95): the parameter checks come before any source read, then the constants, then the reader.  HB_MAX and MLB_MAX
have their defaults 31 and 15, which 5 and 4 bits cannot exceed (log 21). -/
def Obligations.SetupChecksThenConstructs : Prop :=
  ∀ s : State,
    let hb := s.cfg.cfgHb.toNat
    let mlb := s.cfg.cfgMlb.toNat
    (hb < 3 ∨ mlb < 2 ∨ hb ≤ mlb → ∃ t, exec .eSetup s = .next t ∧
      RaisedFrom .configurationError { s with hdr := { hb := s.cfg.cfgHb, mlb := s.cfg.cfgMlb } } t) ∧
    (3 ≤ hb → 2 ≤ mlb → mlb < hb → s.mem.buf = [] → s.srcEof = false →
      let thr := (1 + hb + mlb) / 9 + 1
      let wc := 2 ^ mlb + thr - 1
      let u : State := { s with
        hdr := { hb := s.cfg.cfgHb, mlb := s.cfg.cfgMlb },
        params := { hb := hb, mlb := mlb, sd := s.cfg.cfgSd.toNat, thr := thr, h := 2 ^ hb, wc := wc } }
      (2 * wc ≤ (sourceComing s).1.length → ∃ t, OnlyRefilled u t ∧ exec .eSetup s = .next (t.setCtl .eWriteHeader) ∧
        t.mem.hist = (sourceComing s).1.take wc ∧ t.mem.win = ((sourceComing s).1.drop wc).take wc ∧ t.mem.hlen = wc ∧
        t.mem.wlen = wc ∧ t.mem.wcap = wc ∧
        sourceComing t = ((sourceComing s).1.drop (2 * wc), (sourceComing s).2) ∧ t.srcEof = false) ∧
      ((sourceComing s).1.length < 2 * wc → ∃ v t, OnlyRefilled u v ∧ exec .eSetup s = .next t ∧
        RaisedFrom (if (sourceComing s).2 then .truncatedInput else .ioError) v t))

/-- E_WRITE_HEADER (R96). -/
def Obligations.WriteHeaderEmitsBothFields : Prop :=
  ∀ s : State, Emits (fieldBits 5 s.params.hb ++ fieldBits 4 s.params.mlb) (fun u => u.setCtl .ePrimeHistory) s
    (exec .eWriteHeader s)

/-- E_PRIME_HISTORY (R97): every byte of HIST, no tag bits; the reader is not advanced. -/
def Obligations.PrimeHistoryEmitsTheHistory : Prop :=
  ∀ s : State, Emits (bytesBits s.mem.hist)
    (fun u => u.setCtl (if 0 < s.mem.wlen then .eEmitRecord else .eWriteEnding)) s (exec .ePrimeHistory s)

/-- EMIT_REFERENCE (R99): tag 0, the position, the length less THR.  For p >= HLEN or l > WLEN, outside R99's operands, it is the
model's choice that the same is written (log 14), of a field too wide its low bits (log 16); for l < THR, where the spec states no
l - THR, the model writes some value of the field's width, which the statement leaves open, and all else is as before (log 35). -/
def Obligations.EmitReferenceWritesBiasedLength : Prop :=
  ∀ (p l : Nat) (s : State), 1 ≤ s.params.hb → s.params.hb ≤ 32 → 1 ≤ s.params.mlb → s.params.mlb ≤ 32 →
    (s.params.thr ≤ l → Emits (false :: (fieldBits s.params.hb p ++ fieldBits s.params.mlb (l - s.params.thr))) id
      { s with record := { s.record with tag := false, pos := p, len := l } } (exec (.emitReference p l) s)) ∧
    (l < s.params.thr → ∃ e, e < 2 ^ s.params.mlb ∧ Emits (false :: (fieldBits s.params.hb p ++ fieldBits s.params.mlb e)) id
      { s with record := { s.record with tag := false, pos := p, len := l }, freeCount := s.freeCount + 1 } (exec (.emitReference p l) s))

/-- EMIT_LITERAL (R100): tag 1, the byte. -/
def Obligations.EmitLiteralWritesTagAndByte : Prop :=
  ∀ (b : Byte) (s : State),
    Emits (true :: fieldBits 8 b.toNat) id { s with record := { s.record with tag := true, byte := b } }
      (exec (.emitLiteral b) s)

/-- E_EMIT_RECORD (R98): search the view, write a REFERENCE for a found match and the LITERAL WIN[0] otherwise, advance by the
record's length, go on while the window is not empty; a failing port is IOError. -/
def Obligations.EmitRecordSearchesWritesAdvances : Prop :=
  ∀ s : State, EncoderBuffer s → 0 < s.mem.wlen →
    let r := bestMatch s.mem.hist s.mem.win s.params.thr s.params.sd s.search
    let b := s.mem.win.headD 0
    let m := if 0 < r.bestLen then r.bestLen else 1
    let i : Instr := if 0 < r.bestLen then .reference r.bestPos (r.bestLen - s.params.thr) else .literal b
    let v : State := { s with
      search := r
      record := if 0 < r.bestLen then { s.record with tag := false, pos := r.bestPos, len := r.bestLen }
        else { s.record with tag := true, byte := b } }
    (SinkWilling s → m ≤ (sourceComing s).1.length ∨ (sourceComing s).2 = true →
      ∃ u t, Wrote (encode s.params.hb s.params.mlb i) v u ∧ Advanced m u t ∧
        exec .eEmitRecord s = .next (t.setCtl (if 0 < t.mem.wlen then .eEmitRecord else .eWriteEnding))) ∧
    (WriterOk s → ∀ k rest, s.ports.snkAns = List.replicate k .ok ++ .fail :: rest →
      k < completedBytes s (encode s.params.hb s.params.mlb i) →
      ∃ u t, OnlyWrote v u ∧ u.ports.snkAns = rest ∧ exec .eEmitRecord s = .next t ∧ RaisedFrom .ioError u t ∧
        bytesBits u.ports.snk = (outBits s ++ encode s.params.hb s.params.mlb i).take (8 * (s.ports.snk.length + k))) ∧
    (SinkWilling s → (sourceComing s).1.length < m → (sourceComing s).2 = false →
      ∃ u x t, Wrote (encode s.params.hb s.params.mlb i) v u ∧ OnlyRefilled u x ∧ exec .eEmitRecord s = .next t ∧
        RaisedFrom .ioError x t) ∧
    (∃ t, exec .eEmitRecord s = .next t ∧
      ((t.ctl = (if 0 < t.mem.wlen then .eEmitRecord else .eWriteEnding) ∧ t.err = s.err) ∨
        (t.ctl = .error ∧ t.err = .ioError)))

/-- E_WRITE_ENDING (R101): nothing on a byte boundary, else the sentinel and zeros up to it. -/
def Obligations.EndingClosesTheLastByte : Prop :=
  ∀ s : State, WriterOk s → s.writer.wcnt = s.writer.bitsWritten % 8 →
    Emits (if s.writer.bitsWritten % 8 = 0 then [] else true :: List.replicate (7 - s.writer.bitsWritten % 8) false)
      (fun u => u.setCtl .eFlush) s (exec .eWriteEnding s) ∧
    (∀ t, exec .eWriteEnding s = .next t → t.ctl = .eFlush → t.writer.wcnt = 0 ∧ t.writer.bitsWritten % 8 = 0)

/-- E_FLUSH and D_DONE (R102, R114): one flush, then DONE with the buffers discarded; a failing flush is IOError. -/
def Obligations.FlushEndsTheCall : Prop :=
  ∀ (i : Instr) (s : State) (rest : List SnkAnswer), i = .eFlush ∨ i = .dDone →
    (SinkTakes s rest → ∃ t, exec i s = .next t ∧ SameButDiscarded { s with
      ctl := .done
      ports := { s.ports with snkFlushes := s.ports.snkFlushes + 1, snkAns := rest } } t) ∧
    (s.ports.snkAns = .fail :: rest → ∃ u t, exec i s = .next t ∧ u = { s with ports := u.ports } ∧
      u.ports.snk = s.ports.snk ∧ u.ports.src = s.ports.src ∧ RaisedFrom .ioError u t)

/-! ## Decoder -/

/-- D_READ_HEADER (R105, R106): both fields are read, kept in HDR_HB and HDR_MLB and only then checked; the constants follow.
HB_MAX and MLB_MAX have their defaults (log 21); that a field which was not read keeps its value is the model's reading, U12 lets
it be any (log 29). -/
def Obligations.ReadHeaderChecksAfterBothFields : Prop :=
  ∀ s : State,
    let a := fieldVal ((wireBits s).1.take 5)
    let b := fieldVal (((wireBits s).1.drop 5).take 4)
    let hdr : HeaderRegs := { hb := BitVec.ofNat 5 a, mlb := BitVec.ofNat 4 b }
    let thr := (1 + a + b) / 9 + 1
    (9 ≤ (wireBits s).1.length → ∃ u, Took 9 s u ∧
      (3 ≤ a → 2 ≤ b → b < a → exec .dReadHeader s = .next { u with
        hdr := hdr
        params := { hb := a, mlb := b, sd := s.params.sd, thr := thr, h := 2 ^ a, wc := 2 ^ b + thr - 1 }
        ctl := .dInit }) ∧
      (a < 3 ∨ b < 2 ∨ a ≤ b → ∃ t, exec .dReadHeader s = .next t ∧
        RaisedFrom .configurationError { u with hdr := hdr } t)) ∧
    ((wireBits s).1.length < 9 → ∃ u t, exec .dReadHeader s = .next t ∧
      RaisedFrom (if (wireBits s).2 then .truncatedInput else .ioError) u t ∧ OnlyRead s (u.setHdr s.hdr) ∧
      u.reader.bitsRead = s.reader.bitsRead + (wireBits s).1.length ∧
      u.hdr = (if 5 ≤ (wireBits s).1.length then { s.hdr with hb := BitVec.ofNat 5 a } else s.hdr))

/-- D_INIT (R107): exactly WC bytes, each to the sink and then to the history; TruncatedInput when fewer come, with the bytes
before it written; IOError at a failing source, and at a failing sink with the bytes before it written. -/
def Obligations.InitPrimesHistoryAndSink : Prop :=
  ∀ s : State, s.mem = { buf := [], hlen := 0, wlen := 0, wcap := 0 } → s.params.wc ≤ s.params.h →
    (SinkWilling s → 8 * s.params.wc ≤ (wireBits s).1.length → ∃ bs t, bytesBits bs = (wireBits s).1.take (8 * s.params.wc) ∧
      exec .dInit s = .next t ∧
      t = { s with
        ctl := .dReadRecord
        mem := { buf := bs, hlen := s.params.wc, wlen := 0, wcap := 0 }
        reader := t.reader
        srcEof := t.srcEof
        ports := { s.ports with src := t.ports.src, snk := s.ports.snk ++ bs, snkAns := t.ports.snkAns } } ∧
      wireBits t = ((wireBits s).1.drop (8 * s.params.wc), (wireBits s).2) ∧
      t.reader.bitsRead = s.reader.bitsRead + 8 * s.params.wc ∧
      (ReaderOk s → ReaderOk t ∧ (t.reader.racc.length < 8 ∨ t.reader = s.reader))) ∧
    (SinkWilling s → (wireBits s).1.length < 8 * s.params.wc → ∃ bs u t, bytesBits bs <+: (wireBits s).1 ∧
      bs.length = (wireBits s).1.length / 8 ∧ exec .dInit s = .next t ∧
      RaisedFrom (if (wireBits s).2 then .truncatedInput else .ioError) u t ∧ u.ports.snk = s.ports.snk ++ bs ∧
      u.reader.bitsRead = s.reader.bitsRead + (wireBits s).1.length) ∧
    (∀ k rest, s.ports.snkAns = List.replicate k .ok ++ .fail :: rest → k < s.params.wc →
      8 * (k + 1) ≤ (wireBits s).1.length → ∃ bs u t, bytesBits bs = (wireBits s).1.take (8 * k) ∧
        exec .dInit s = .next t ∧ RaisedFrom .ioError u t ∧ u.ports.snk = s.ports.snk ++ bs ∧ u.ports.snkAns = rest ∧
        u.reader.bitsRead = s.reader.bitsRead + 8 * (k + 1))

/-- D_READ_RECORD (R108): no bit is a clean end, an IOError where its flush fails (R114); tag 1 goes on as READ_LITERAL, tag 0 as READ_REFERENCE; a whole literal and a
whole reference inside the history go on to D_WRITE_DECODED. -/
def Obligations.ReadRecordDispatchesOnTheTag : Prop :=
  ∀ s : State,
    (wireBits s = ([], true) → SinkWilling s → ∃ u t, Took 0 s u ∧ exec .dReadRecord s = .next t ∧ CleanDone u t) ∧
    (∀ rest, wireBits s = ([], true) → s.ports.snkAns = .fail :: rest → ∃ t, exec .dReadRecord s = .next t ∧
      t.ctl = .error ∧ t.err = .ioError ∧ t.ports.snk = s.ports.snk ∧ t.reader.bitsRead = s.reader.bitsRead) ∧
    (∀ bs e, wireBits s = (true :: bs, e) → ∃ u, Took 1 s u ∧
      exec .dReadRecord s = exec .readLiteral { u with record := { s.record with tag := true } }) ∧
    (∀ bs e, wireBits s = (false :: bs, e) → ∃ u, Took 1 s u ∧
      exec .dReadRecord s = exec .readReference { u with record := { s.record with tag := false } }) ∧
    (∀ x bs e, wireBits s = (true :: (byteBits x ++ bs), e) → ∃ u, Took 9 s u ∧ exec .dReadRecord s = .next { u with
      record := { s.record with tag := true, byte := x }, ctl := .dWriteDecoded }) ∧
    (∀ p e bs z, 1 ≤ s.params.hb → s.params.hb ≤ 32 → 1 ≤ s.params.mlb → s.params.mlb ≤ 32 → p < 2 ^ s.params.hb →
      e < 2 ^ s.params.mlb → p + (e + s.params.thr) ≤ s.mem.hlen →
      wireBits s = (false :: (fieldBits s.params.hb p ++ (fieldBits s.params.mlb e ++ bs)), z) →
      ∃ u, Took (1 + s.params.hb + s.params.mlb) s u ∧ exec .dReadRecord s = .next { u with
        record := { s.record with tag := false, pos := p, len := e + s.params.thr }, ctl := .dWriteDecoded }) ∧
    (wireBits s = ([], false) → ∃ u t, OnlyRead s u ∧ exec .dReadRecord s = .next t ∧ RaisedFrom .ioError u t)

/-- READ_LITERAL (R109): the byte into REC_BYTE; the end of the source inside the payload is a clean end. -/
def Obligations.ReadLiteralOrEndCleanly : Prop :=
  ∀ s : State,
    (8 ≤ (wireBits s).1.length → ∃ u x, Took 8 s u ∧ byteBits x = (wireBits s).1.take 8 ∧
      exec .readLiteral s = .next { u with record := { s.record with byte := x }, ctl := .dWriteDecoded }) ∧
    ((wireBits s).1.length < 8 → (wireBits s).2 = true → ∃ u, Took (wireBits s).1.length s u ∧ u.srcEof = true ∧
      (SinkWilling s → ∃ t, exec .readLiteral s = .next t ∧ CleanDone u t) ∧
      (∀ rest, s.ports.snkAns = .fail :: rest → ∃ t, exec .readLiteral s = .next t ∧ t.ctl = .error ∧ t.err = .ioError ∧
        t.ports.snk = s.ports.snk)) ∧
    ((wireBits s).1.length < 8 → (wireBits s).2 = false → ∃ u t, OnlyRead s u ∧ exec .readLiteral s = .next t ∧
      RaisedFrom .ioError u t)

/-- READ_REFERENCE (R110): both fields, then the bound; CorruptStream outside the history, with the pair in REC_POS and REC_LEN;
TruncatedInput when the source ends inside either field. -/
def Obligations.ReadReferenceChecksTheBound : Prop :=
  ∀ s : State, 1 ≤ s.params.hb → s.params.hb ≤ 32 → 1 ≤ s.params.mlb → s.params.mlb ≤ 32 →
    (s.params.hb + s.params.mlb ≤ (wireBits s).1.length →
      let p := fieldVal ((wireBits s).1.take s.params.hb)
      let l := fieldVal (((wireBits s).1.drop s.params.hb).take s.params.mlb) + s.params.thr
      ∃ u, Took (s.params.hb + s.params.mlb) s u ∧
        (p + l ≤ s.mem.hlen → exec .readReference s = .next { u with
          record := { s.record with pos := p, len := l }, ctl := .dWriteDecoded }) ∧
        (s.mem.hlen < p + l → ∃ t, exec .readReference s = .next t ∧
          RaisedFrom .corruptStream { u with record := { s.record with pos := p, len := l } } t)) ∧
    ((wireBits s).1.length < s.params.hb + s.params.mlb → ∃ u t, exec .readReference s = .next t ∧
      RaisedFrom (if (wireBits s).2 then .truncatedInput else .ioError) u t ∧ OnlyRead s (u.setRecord s.record) ∧
      u.reader.bitsRead = s.reader.bitsRead + (wireBits s).1.length ∧
      u.record.tag = s.record.tag ∧ u.record.byte = s.record.byte ∧ u.record.len = s.record.len)

/-- D_WRITE_DECODED (R111): the whole segment to the sink, then one push to the history; a failing sink is IOError with the bytes
before it written and the history not updated. -/
def Obligations.WriteDecodedFillsSinkThenHistory : Prop :=
  ∀ (seg : List Byte) (s : State), s.mem.wf → s.mem.wlen = 0 →
    (SinkWilling s ∨ (∃ rest, s.ports.snkAns = List.replicate seg.length .ok ++ rest) →
      ∃ u m, OnlyWrote s u ∧ u.writer = s.writer ∧ u.ports.snk = s.ports.snk ++ seg ∧
      exec (.dWriteDecoded seg) s = .next { u with mem := m, ctl := .dReadRecord } ∧ m.wf ∧
      m.hist = (s.mem.hist ++ seg).drop (s.mem.hlen + seg.length - s.params.h) ∧
      m.hlen = min s.params.h (s.mem.hlen + seg.length) ∧ m.wlen = 0 ∧ m.wcap = s.mem.wcap) ∧
    (∀ k rest, s.ports.snkAns = List.replicate k .ok ++ .fail :: rest → k < seg.length →
      ∃ u t, OnlyWrote s u ∧ u.writer = s.writer ∧ u.ports.snk = s.ports.snk ++ seg.take k ∧ u.ports.snkAns = rest ∧
        exec (.dWriteDecoded seg) s = .next t ∧ RaisedFrom .ioError u t)

/-! ## Elements -/

/-- To the encoder an element is its emission (the model's reading of the six rows: log 9; R96, R97, R99 to R101, R74).  For
PAD of another count than reaches the byte boundary it is the model's choice (log 34). -/
def Obligations.EncoderEmitsItsElements : Prop :=
  ∀ s : State, s.ctl.side = .encoder →
    (∀ hb mlb, Emits (encode s.params.hb s.params.mlb (.header hb mlb)) id s (exec (.header hb mlb) s)) ∧
    (∀ b, Emits (encode s.params.hb s.params.mlb (.primeByte b)) id s (exec (.primeByte b) s)) ∧
    (∀ b, Emits (encode s.params.hb s.params.mlb (.literal b)) id
      { s with record := { s.record with tag := true, byte := b } } (exec (.literal b) s)) ∧
    (∀ p e, 1 ≤ s.params.hb → s.params.hb ≤ 32 → 1 ≤ s.params.mlb → s.params.mlb ≤ 32 →
      Emits (encode s.params.hb s.params.mlb (.reference p e)) id
        { s with record := { s.record with tag := false, pos := p, len := e + s.params.thr } } (exec (.reference p e) s)) ∧
    Emits (encode s.params.hb s.params.mlb .sentinel) id s (exec .sentinel s) ∧
    (∀ n, Emits (encode s.params.hb s.params.mlb (.pad n)) id s (exec (.pad n) s))

/-- At rest an element does nothing (the model's reading: log 9); to the decoder PAD is dropped payload (log 10). -/
def Obligations.RestingBlockIgnoresElements : Prop :=
  (∀ (s : State) (i : Instr), s.busy = false →
    ((∃ hb mlb, i = .header hb mlb) ∨ (∃ b, i = .primeByte b) ∨ (∃ b, i = .literal b) ∨ (∃ p e, i = .reference p e) ∨
      i = .sentinel ∨ ∃ n, i = .pad n) → exec i s = .next s) ∧
  ∀ (s : State) (n : Nat), s.ctl.side = .decoder → exec (.pad n) s = exec .readLiteral s

/-! ## The whole machine -/

/-- Bytes written to the sink stay written, in every instruction, whatever happens (R42, R48, R122). -/
def Obligations.SinkOnlyGrows : Prop :=
  ∀ (i : Instr) (s t : State), exec i s = .next t → s.ports.snk <+: t.ports.snk

/-- The decoder undoes the encoder's record (44_decoder.md section 4): from the same history, the bits the encoder wrote for one
record give the decoder the bytes the encoder moved on by, and again the same history. -/
def Obligations.DecoderUndoesOneRecord : Prop :=
  ∀ (e e' d : State) (bits rest : Bits) (ended : Bool),
    e.host = [] → e.ctl = .eEmitRecord → EncoderBuffer e → 0 < e.mem.wlen → step e = .next e' → e'.ctl ≠ .error →
    outBits e' = outBits e ++ bits →
    d.host = [] → d.ctl = .dReadRecord → DecoderBuffer d → d.params.hb = e.params.hb → d.params.mlb = e.params.mlb →
    d.mem.hist = e.mem.hist → SinkWilling d → wireBits d = (bits ++ rest, ended) →
    ∃ d1 d2 m, step d = .next d1 ∧ step d1 = .next d2 ∧ d2.ctl = .dReadRecord ∧ d2.mem.hist = e'.mem.hist ∧
      wireBits d2 = (rest, ended) ∧ 1 ≤ m ∧ m ≤ e.mem.wlen ∧ d2.ports.snk = d.ports.snk ++ e.mem.win.take m ∧
      e'.mem.win.take (e.mem.wlen - m) = e.mem.win.drop m

/-- Round trip and header fidelity (44_decoder.md section 4): for every legal parameter set, every depth and every input of at
least 2 * WC bytes, ENCODE ends in DONE with some stream in the sink, and DECODE of that stream, on any resting block, ends
cleanly with the input in the sink and the parameters in HDR_HB and HDR_MLB. -/
def Obligations.DecodeOfEncodeIsTheInput : Prop :=
  ∀ (hb : BitVec 5) (mlb : BitVec 4) (sd : BitVec 32) (x : List Byte) (s : State),
    3 ≤ hb.toNat → 2 ≤ mlb.toNat → mlb.toNat < hb.toNat → 2 * windowOf hb.toNat mlb.toNat ≤ x.length → s.busy = false →
    s.host = [.writeCfgHb hb, .writeCfgMlb mlb, .writeCfgSd sd, .writeCmd .encode, .attach (x.map .byte) [], .start] →
    ∃ n t, Host.Core.run core n s = .next t ∧ t.ctl = .done ∧ t.err = .none ∧ t.hdr = { hb := hb, mlb := mlb } ∧
      t.ports.snkFlushes = 1 ∧
      ∀ d : State, d.busy = false → d.host = [.writeCmd .decode, .attach (t.ports.snk.map .byte) [], .start] →
        ∃ m u, Host.Core.run core m d = .next u ∧ u.ctl = .done ∧ u.err = .none ∧ u.cleanEnd = true ∧ u.ports.snk = x ∧
          u.hdr = { hb := hb, mlb := mlb } ∧ u.ports.snkFlushes = 1

/-- The state after reset is a good state. -/
def Obligations.ResetStateIsGood : Prop := Inv State.reset

/-- Every step keeps a good state good: buffer and window in their bounds (R27), the record inside the history, the parameters a
legal set, the pending bits counted (R28, R29), every register within its width, ERR set in ERROR only (R21), CLEAN_END only at
the end (R19). -/
def Obligations.StepKeepsGoodStatesGood : Prop :=
  ∀ s t : State, Inv s → step s = .next t → Inv t

/-- From a good state the machine always goes on: it is not refused unless the host exchanges the ports of a running call. -/
def Obligations.GoodStatesGoOn : Prop :=
  ∀ s : State, Inv s → HostKeepsOff s → ∃ t, step s = .next t

/-- A good state with nothing from the host runs for ever without a refusal or a fault. -/
def Obligations.CallsRunWithoutRefusal : Prop :=
  ∀ s : State, Inv s → s.host = [] → SafeRun s

/-- A reset inside a controller step (R136, R130, R144), in the model's form of it (log 33): the registers as after any reset, in
the sink what the step had written before it and no more.  D_WRITE_DECODED, E_PRIME_HISTORY and D_INIT are said out. -/
def Obligations.ResetWorksInsideAStep : Prop :=
  ∀ (s : State) (r w : Nat) (rest : List HostEvent), s.host = .resetDuring r w :: rest →
    ∃ t, step s = .next t ∧ t.ctl = .idle ∧ t.status = 0 ∧ t.err = .none ∧
      t.cfg = { cfgHb := 12, cfgMlb := 4, cfgSd := 0, cmd := .encode } ∧ t.hdr = { hb := 0, mlb := 0 } ∧
      t.mem = { buf := [], hlen := 0, wlen := 0, wcap := 0 } ∧ t.writer = { wacc := [], wcnt := 0, bitsWritten := 0 } ∧
      t.reader = { racc := [], rcnt := 0, bitsRead := 0 } ∧ t.srcEof = false ∧ t.cleanEnd = false ∧ t.host = rest ∧
      s.ports.snk <+: t.ports.snk ∧ (∃ k, k ≤ r ∧ t.ports.src = s.ports.src.drop k) ∧
      (∃ k, k ≤ w ∧ t.ports.snkAns = s.ports.snkAns.drop k) ∧ (s.busy = false → t.ports = s.ports) ∧
      (SinkWilling s →
        (s.ctl = .dWriteDecoded → w < (decodedSegment s).length → t.ports.snk = s.ports.snk ++ (decodedSegment s).take w) ∧
        (s.ctl = .ePrimeHistory → WriterOk s → w < completedBytes s (bytesBits s.mem.hist) →
          bytesBits t.ports.snk = (outBits s ++ bytesBits s.mem.hist).take (8 * (s.ports.snk.length + w))) ∧
        (s.ctl = .dInit → FreshBuffer s → s.params.wc ≤ s.params.h → s.ports.src.length < r → w < s.params.wc →
          8 * (w + 1) ≤ (wireBits s).1.length →
          bytesBits t.ports.snk = bytesBits s.ports.snk ++ (wireBits s).1.take (8 * w)))
end

