-- ==== Sys2Proof/Laws/Bits.lean ====
section
/-! SUPPORT. Fields, bytes and bit strings: lengths, values and the two inverses. -/

namespace Sys2Proof

@[simp] theorem fieldBits_length (n v : Nat) : (fieldBits n v).length = n := by
  induction n with
  | zero => rfl
  | succ n ih => simp [fieldBits, ih]

theorem fieldValFrom_eq (v : Nat) (bs : Bits) : fieldValFrom v bs = v * 2 ^ bs.length + fieldVal bs := by
  induction bs generalizing v with
  | nil => simp [fieldVal, fieldValFrom]
  | cons b bs ih =>
    simp only [fieldVal, fieldValFrom, List.length_cons]
    rw [ih (2 * v + b.toNat), ih (2 * 0 + b.toNat)]
    rw [Nat.pow_succ]; ring

@[simp] theorem fieldVal_nil : fieldVal [] = 0 := rfl

theorem fieldVal_cons (b : Bool) (bs : Bits) : fieldVal (b :: bs) = b.toNat * 2 ^ bs.length + fieldVal bs := by
  rw [fieldVal, fieldValFrom, fieldValFrom_eq]; simp

theorem fieldVal_lt (bs : Bits) : fieldVal bs < 2 ^ bs.length := by
  induction bs with
  | nil => simp
  | cons b bs ih =>
    rw [fieldVal_cons, List.length_cons, Nat.pow_succ]
    have : b.toNat ≤ 1 := Bool.toNat_le b
    nlinarith [Nat.mul_le_mul_right (2 ^ bs.length) this]

/-- A field read back is the value written, modulo its width. -/
theorem fieldVal_fieldBits (n v : Nat) : fieldVal (fieldBits n v) = v % 2 ^ n := by
  induction n with
  | zero => simp [fieldBits, Nat.mod_one]
  | succ n ih =>
    rw [fieldBits, fieldVal_cons, ih, fieldBits_length, Nat.pow_succ, Nat.mod_mul]
    have h2 : (v / 2 ^ n % 2 == 1).toNat = v / 2 ^ n % 2 := by
      rcases Nat.mod_two_eq_zero_or_one (v / 2 ^ n) with h | h <;> simp [h]
    rw [h2]; ring

theorem fieldVal_fieldBits_of_lt {n v : Nat} (h : v < 2 ^ n) : fieldVal (fieldBits n v) = v := by
  rw [fieldVal_fieldBits, Nat.mod_eq_of_lt h]

/-- Bits written back are the bits read. -/
theorem fieldBits_fieldVal (bs : Bits) : fieldBits bs.length (fieldVal bs) = bs := by
  suffices ∀ (bs : Bits) (k : Nat), fieldBits bs.length (k * 2 ^ bs.length + fieldVal bs) = bs by
    simpa using this bs 0
  intro bs
  induction bs with
  | nil => intro k; rfl
  | cons b bs ih =>
    intro k
    have hlt := fieldVal_lt bs
    have e : k * 2 ^ (bs.length + 1) + (b.toNat * 2 ^ bs.length + fieldVal bs) =
        (2 * k + b.toNat) * 2 ^ bs.length + fieldVal bs := by rw [Nat.pow_succ]; ring
    rw [List.length_cons, fieldBits, fieldVal_cons, e, ih]
    congr 1
    rw [Nat.add_comm, Nat.add_mul_div_right _ _ (by positivity), Nat.div_eq_of_lt hlt]
    cases b <;> simp

@[simp] theorem byteBits_length (b : Byte) : (byteBits b).length = 8 := by simp [byteBits]

@[simp] theorem bitsByte_byteBits (b : Byte) : bitsByte (byteBits b) = b := by
  rw [bitsByte, byteBits, fieldVal_fieldBits_of_lt b.isLt]; simp

theorem byteBits_bitsByte {bs : Bits} (h : bs.length = 8) : byteBits (bitsByte bs) = bs := by
  have hlt : fieldVal bs < 2 ^ 8 := by simpa [h] using fieldVal_lt bs
  have : (bitsByte bs).toNat = fieldVal bs := by
    simp only [bitsByte, BitVec.toNat_ofNat]; exact Nat.mod_eq_of_lt hlt
  rw [byteBits, this, ← h, fieldBits_fieldVal]

@[simp] theorem bytesBits_nil : bytesBits [] = [] := rfl

@[simp] theorem bytesBits_cons (b : Byte) (l : List Byte) : bytesBits (b :: l) = byteBits b ++ bytesBits l := rfl

@[simp] theorem bytesBits_append (l m : List Byte) : bytesBits (l ++ m) = bytesBits l ++ bytesBits m := by
  simp [bytesBits]

@[simp] theorem bytesBits_length (l : List Byte) : (bytesBits l).length = 8 * l.length := by
  induction l with
  | nil => rfl
  | cons b l ih => simp [ih]; omega

/-- The bits of a byte sequence determine it. -/
theorem bytesBits_injective {l m : List Byte} (h : bytesBits l = bytesBits m) : l = m := by
  induction l generalizing m with
  | nil => cases m with
    | nil => rfl
    | cons b m =>
      have := congrArg List.length h
      simp at this; omega
  | cons a l ih =>
    cases m with
    | nil =>
      have := congrArg List.length h
      simp at this
    | cons b m =>
      obtain ⟨h1, h2⟩ := List.append_inj h (by simp)
      rw [ih h2, ← bitsByte_byteBits a, h1, bitsByte_byteBits]

/-- Reading a field on: the value so far, doubled for each bit (R77). -/
theorem fieldValFrom_zero (bs : Bits) : fieldValFrom 0 bs = fieldVal bs := rfl

end Sys2Proof
end

