-- ==== Sys2Proof/Laws/State.lean ====
section
/-! SUPPORT. What each named update of State does to each field; all true by rfl. -/

namespace Sys2Proof.Machine

section
variable (s : State) (x : HostRegs)
@[simp] theorem State.setCfg_cfg : (s.setCfg x).cfg = x := rfl
@[simp] theorem State.setCfg_hdr : (s.setCfg x).hdr = s.hdr := rfl
@[simp] theorem State.setCfg_ctl : (s.setCfg x).ctl = s.ctl := rfl
@[simp] theorem State.setCfg_err : (s.setCfg x).err = s.err := rfl
@[simp] theorem State.setCfg_srcEof : (s.setCfg x).srcEof = s.srcEof := rfl
@[simp] theorem State.setCfg_cleanEnd : (s.setCfg x).cleanEnd = s.cleanEnd := rfl
@[simp] theorem State.setCfg_params : (s.setCfg x).params = s.params := rfl
@[simp] theorem State.setCfg_record : (s.setCfg x).record = s.record := rfl
@[simp] theorem State.setCfg_search : (s.setCfg x).search = s.search := rfl
@[simp] theorem State.setCfg_mem : (s.setCfg x).mem = s.mem := rfl
@[simp] theorem State.setCfg_writer : (s.setCfg x).writer = s.writer := rfl
@[simp] theorem State.setCfg_reader : (s.setCfg x).reader = s.reader := rfl
@[simp] theorem State.setCfg_ports : (s.setCfg x).ports = s.ports := rfl
@[simp] theorem State.setCfg_host : (s.setCfg x).host = s.host := rfl
@[simp] theorem State.setCfg_opResult : (s.setCfg x).opResult = s.opResult := rfl
@[simp] theorem State.setCfg_freeCount : (s.setCfg x).freeCount = s.freeCount := rfl
@[simp] theorem State.setCfg_set (y : HostRegs) : (s.setCfg x).setCfg y = s.setCfg y := rfl
end

section
variable (s : State) (x : HeaderRegs)
@[simp] theorem State.setHdr_cfg : (s.setHdr x).cfg = s.cfg := rfl
@[simp] theorem State.setHdr_hdr : (s.setHdr x).hdr = x := rfl
@[simp] theorem State.setHdr_ctl : (s.setHdr x).ctl = s.ctl := rfl
@[simp] theorem State.setHdr_err : (s.setHdr x).err = s.err := rfl
@[simp] theorem State.setHdr_srcEof : (s.setHdr x).srcEof = s.srcEof := rfl
@[simp] theorem State.setHdr_cleanEnd : (s.setHdr x).cleanEnd = s.cleanEnd := rfl
@[simp] theorem State.setHdr_params : (s.setHdr x).params = s.params := rfl
@[simp] theorem State.setHdr_record : (s.setHdr x).record = s.record := rfl
@[simp] theorem State.setHdr_search : (s.setHdr x).search = s.search := rfl
@[simp] theorem State.setHdr_mem : (s.setHdr x).mem = s.mem := rfl
@[simp] theorem State.setHdr_writer : (s.setHdr x).writer = s.writer := rfl
@[simp] theorem State.setHdr_reader : (s.setHdr x).reader = s.reader := rfl
@[simp] theorem State.setHdr_ports : (s.setHdr x).ports = s.ports := rfl
@[simp] theorem State.setHdr_host : (s.setHdr x).host = s.host := rfl
@[simp] theorem State.setHdr_opResult : (s.setHdr x).opResult = s.opResult := rfl
@[simp] theorem State.setHdr_freeCount : (s.setHdr x).freeCount = s.freeCount := rfl
@[simp] theorem State.setHdr_set (y : HeaderRegs) : (s.setHdr x).setHdr y = s.setHdr y := rfl
end

section
variable (s : State) (x : Ctl)
@[simp] theorem State.setCtl_cfg : (s.setCtl x).cfg = s.cfg := rfl
@[simp] theorem State.setCtl_hdr : (s.setCtl x).hdr = s.hdr := rfl
@[simp] theorem State.setCtl_ctl : (s.setCtl x).ctl = x := rfl
@[simp] theorem State.setCtl_err : (s.setCtl x).err = s.err := rfl
@[simp] theorem State.setCtl_srcEof : (s.setCtl x).srcEof = s.srcEof := rfl
@[simp] theorem State.setCtl_cleanEnd : (s.setCtl x).cleanEnd = s.cleanEnd := rfl
@[simp] theorem State.setCtl_params : (s.setCtl x).params = s.params := rfl
@[simp] theorem State.setCtl_record : (s.setCtl x).record = s.record := rfl
@[simp] theorem State.setCtl_search : (s.setCtl x).search = s.search := rfl
@[simp] theorem State.setCtl_mem : (s.setCtl x).mem = s.mem := rfl
@[simp] theorem State.setCtl_writer : (s.setCtl x).writer = s.writer := rfl
@[simp] theorem State.setCtl_reader : (s.setCtl x).reader = s.reader := rfl
@[simp] theorem State.setCtl_ports : (s.setCtl x).ports = s.ports := rfl
@[simp] theorem State.setCtl_host : (s.setCtl x).host = s.host := rfl
@[simp] theorem State.setCtl_opResult : (s.setCtl x).opResult = s.opResult := rfl
@[simp] theorem State.setCtl_freeCount : (s.setCtl x).freeCount = s.freeCount := rfl
@[simp] theorem State.setCtl_set (y : Ctl) : (s.setCtl x).setCtl y = s.setCtl y := rfl
end

section
variable (s : State) (x : ErrCode)
@[simp] theorem State.setErr_cfg : (s.setErr x).cfg = s.cfg := rfl
@[simp] theorem State.setErr_hdr : (s.setErr x).hdr = s.hdr := rfl
@[simp] theorem State.setErr_ctl : (s.setErr x).ctl = s.ctl := rfl
@[simp] theorem State.setErr_err : (s.setErr x).err = x := rfl
@[simp] theorem State.setErr_srcEof : (s.setErr x).srcEof = s.srcEof := rfl
@[simp] theorem State.setErr_cleanEnd : (s.setErr x).cleanEnd = s.cleanEnd := rfl
@[simp] theorem State.setErr_params : (s.setErr x).params = s.params := rfl
@[simp] theorem State.setErr_record : (s.setErr x).record = s.record := rfl
@[simp] theorem State.setErr_search : (s.setErr x).search = s.search := rfl
@[simp] theorem State.setErr_mem : (s.setErr x).mem = s.mem := rfl
@[simp] theorem State.setErr_writer : (s.setErr x).writer = s.writer := rfl
@[simp] theorem State.setErr_reader : (s.setErr x).reader = s.reader := rfl
@[simp] theorem State.setErr_ports : (s.setErr x).ports = s.ports := rfl
@[simp] theorem State.setErr_host : (s.setErr x).host = s.host := rfl
@[simp] theorem State.setErr_opResult : (s.setErr x).opResult = s.opResult := rfl
@[simp] theorem State.setErr_freeCount : (s.setErr x).freeCount = s.freeCount := rfl
@[simp] theorem State.setErr_set (y : ErrCode) : (s.setErr x).setErr y = s.setErr y := rfl
end

section
variable (s : State) (x : Bool)
@[simp] theorem State.setSrcEof_cfg : (s.setSrcEof x).cfg = s.cfg := rfl
@[simp] theorem State.setSrcEof_hdr : (s.setSrcEof x).hdr = s.hdr := rfl
@[simp] theorem State.setSrcEof_ctl : (s.setSrcEof x).ctl = s.ctl := rfl
@[simp] theorem State.setSrcEof_err : (s.setSrcEof x).err = s.err := rfl
@[simp] theorem State.setSrcEof_srcEof : (s.setSrcEof x).srcEof = x := rfl
@[simp] theorem State.setSrcEof_cleanEnd : (s.setSrcEof x).cleanEnd = s.cleanEnd := rfl
@[simp] theorem State.setSrcEof_params : (s.setSrcEof x).params = s.params := rfl
@[simp] theorem State.setSrcEof_record : (s.setSrcEof x).record = s.record := rfl
@[simp] theorem State.setSrcEof_search : (s.setSrcEof x).search = s.search := rfl
@[simp] theorem State.setSrcEof_mem : (s.setSrcEof x).mem = s.mem := rfl
@[simp] theorem State.setSrcEof_writer : (s.setSrcEof x).writer = s.writer := rfl
@[simp] theorem State.setSrcEof_reader : (s.setSrcEof x).reader = s.reader := rfl
@[simp] theorem State.setSrcEof_ports : (s.setSrcEof x).ports = s.ports := rfl
@[simp] theorem State.setSrcEof_host : (s.setSrcEof x).host = s.host := rfl
@[simp] theorem State.setSrcEof_opResult : (s.setSrcEof x).opResult = s.opResult := rfl
@[simp] theorem State.setSrcEof_freeCount : (s.setSrcEof x).freeCount = s.freeCount := rfl
@[simp] theorem State.setSrcEof_set (y : Bool) : (s.setSrcEof x).setSrcEof y = s.setSrcEof y := rfl
end

section
variable (s : State) (x : Bool)
@[simp] theorem State.setCleanEnd_cfg : (s.setCleanEnd x).cfg = s.cfg := rfl
@[simp] theorem State.setCleanEnd_hdr : (s.setCleanEnd x).hdr = s.hdr := rfl
@[simp] theorem State.setCleanEnd_ctl : (s.setCleanEnd x).ctl = s.ctl := rfl
@[simp] theorem State.setCleanEnd_err : (s.setCleanEnd x).err = s.err := rfl
@[simp] theorem State.setCleanEnd_srcEof : (s.setCleanEnd x).srcEof = s.srcEof := rfl
@[simp] theorem State.setCleanEnd_cleanEnd : (s.setCleanEnd x).cleanEnd = x := rfl
@[simp] theorem State.setCleanEnd_params : (s.setCleanEnd x).params = s.params := rfl
@[simp] theorem State.setCleanEnd_record : (s.setCleanEnd x).record = s.record := rfl
@[simp] theorem State.setCleanEnd_search : (s.setCleanEnd x).search = s.search := rfl
@[simp] theorem State.setCleanEnd_mem : (s.setCleanEnd x).mem = s.mem := rfl
@[simp] theorem State.setCleanEnd_writer : (s.setCleanEnd x).writer = s.writer := rfl
@[simp] theorem State.setCleanEnd_reader : (s.setCleanEnd x).reader = s.reader := rfl
@[simp] theorem State.setCleanEnd_ports : (s.setCleanEnd x).ports = s.ports := rfl
@[simp] theorem State.setCleanEnd_host : (s.setCleanEnd x).host = s.host := rfl
@[simp] theorem State.setCleanEnd_opResult : (s.setCleanEnd x).opResult = s.opResult := rfl
@[simp] theorem State.setCleanEnd_freeCount : (s.setCleanEnd x).freeCount = s.freeCount := rfl
@[simp] theorem State.setCleanEnd_set (y : Bool) : (s.setCleanEnd x).setCleanEnd y = s.setCleanEnd y := rfl
end

section
variable (s : State) (x : Params)
@[simp] theorem State.setParams_cfg : (s.setParams x).cfg = s.cfg := rfl
@[simp] theorem State.setParams_hdr : (s.setParams x).hdr = s.hdr := rfl
@[simp] theorem State.setParams_ctl : (s.setParams x).ctl = s.ctl := rfl
@[simp] theorem State.setParams_err : (s.setParams x).err = s.err := rfl
@[simp] theorem State.setParams_srcEof : (s.setParams x).srcEof = s.srcEof := rfl
@[simp] theorem State.setParams_cleanEnd : (s.setParams x).cleanEnd = s.cleanEnd := rfl
@[simp] theorem State.setParams_params : (s.setParams x).params = x := rfl
@[simp] theorem State.setParams_record : (s.setParams x).record = s.record := rfl
@[simp] theorem State.setParams_search : (s.setParams x).search = s.search := rfl
@[simp] theorem State.setParams_mem : (s.setParams x).mem = s.mem := rfl
@[simp] theorem State.setParams_writer : (s.setParams x).writer = s.writer := rfl
@[simp] theorem State.setParams_reader : (s.setParams x).reader = s.reader := rfl
@[simp] theorem State.setParams_ports : (s.setParams x).ports = s.ports := rfl
@[simp] theorem State.setParams_host : (s.setParams x).host = s.host := rfl
@[simp] theorem State.setParams_opResult : (s.setParams x).opResult = s.opResult := rfl
@[simp] theorem State.setParams_freeCount : (s.setParams x).freeCount = s.freeCount := rfl
@[simp] theorem State.setParams_set (y : Params) : (s.setParams x).setParams y = s.setParams y := rfl
end

section
variable (s : State) (x : RecordRegs)
@[simp] theorem State.setRecord_cfg : (s.setRecord x).cfg = s.cfg := rfl
@[simp] theorem State.setRecord_hdr : (s.setRecord x).hdr = s.hdr := rfl
@[simp] theorem State.setRecord_ctl : (s.setRecord x).ctl = s.ctl := rfl
@[simp] theorem State.setRecord_err : (s.setRecord x).err = s.err := rfl
@[simp] theorem State.setRecord_srcEof : (s.setRecord x).srcEof = s.srcEof := rfl
@[simp] theorem State.setRecord_cleanEnd : (s.setRecord x).cleanEnd = s.cleanEnd := rfl
@[simp] theorem State.setRecord_params : (s.setRecord x).params = s.params := rfl
@[simp] theorem State.setRecord_record : (s.setRecord x).record = x := rfl
@[simp] theorem State.setRecord_search : (s.setRecord x).search = s.search := rfl
@[simp] theorem State.setRecord_mem : (s.setRecord x).mem = s.mem := rfl
@[simp] theorem State.setRecord_writer : (s.setRecord x).writer = s.writer := rfl
@[simp] theorem State.setRecord_reader : (s.setRecord x).reader = s.reader := rfl
@[simp] theorem State.setRecord_ports : (s.setRecord x).ports = s.ports := rfl
@[simp] theorem State.setRecord_host : (s.setRecord x).host = s.host := rfl
@[simp] theorem State.setRecord_opResult : (s.setRecord x).opResult = s.opResult := rfl
@[simp] theorem State.setRecord_freeCount : (s.setRecord x).freeCount = s.freeCount := rfl
@[simp] theorem State.setRecord_set (y : RecordRegs) : (s.setRecord x).setRecord y = s.setRecord y := rfl
end

section
variable (s : State) (x : SearchRegs)
@[simp] theorem State.setSearch_cfg : (s.setSearch x).cfg = s.cfg := rfl
@[simp] theorem State.setSearch_hdr : (s.setSearch x).hdr = s.hdr := rfl
@[simp] theorem State.setSearch_ctl : (s.setSearch x).ctl = s.ctl := rfl
@[simp] theorem State.setSearch_err : (s.setSearch x).err = s.err := rfl
@[simp] theorem State.setSearch_srcEof : (s.setSearch x).srcEof = s.srcEof := rfl
@[simp] theorem State.setSearch_cleanEnd : (s.setSearch x).cleanEnd = s.cleanEnd := rfl
@[simp] theorem State.setSearch_params : (s.setSearch x).params = s.params := rfl
@[simp] theorem State.setSearch_record : (s.setSearch x).record = s.record := rfl
@[simp] theorem State.setSearch_search : (s.setSearch x).search = x := rfl
@[simp] theorem State.setSearch_mem : (s.setSearch x).mem = s.mem := rfl
@[simp] theorem State.setSearch_writer : (s.setSearch x).writer = s.writer := rfl
@[simp] theorem State.setSearch_reader : (s.setSearch x).reader = s.reader := rfl
@[simp] theorem State.setSearch_ports : (s.setSearch x).ports = s.ports := rfl
@[simp] theorem State.setSearch_host : (s.setSearch x).host = s.host := rfl
@[simp] theorem State.setSearch_opResult : (s.setSearch x).opResult = s.opResult := rfl
@[simp] theorem State.setSearch_freeCount : (s.setSearch x).freeCount = s.freeCount := rfl
@[simp] theorem State.setSearch_set (y : SearchRegs) : (s.setSearch x).setSearch y = s.setSearch y := rfl
end

section
variable (s : State) (x : Memory)
@[simp] theorem State.setMem_cfg : (s.setMem x).cfg = s.cfg := rfl
@[simp] theorem State.setMem_hdr : (s.setMem x).hdr = s.hdr := rfl
@[simp] theorem State.setMem_ctl : (s.setMem x).ctl = s.ctl := rfl
@[simp] theorem State.setMem_err : (s.setMem x).err = s.err := rfl
@[simp] theorem State.setMem_srcEof : (s.setMem x).srcEof = s.srcEof := rfl
@[simp] theorem State.setMem_cleanEnd : (s.setMem x).cleanEnd = s.cleanEnd := rfl
@[simp] theorem State.setMem_params : (s.setMem x).params = s.params := rfl
@[simp] theorem State.setMem_record : (s.setMem x).record = s.record := rfl
@[simp] theorem State.setMem_search : (s.setMem x).search = s.search := rfl
@[simp] theorem State.setMem_mem : (s.setMem x).mem = x := rfl
@[simp] theorem State.setMem_writer : (s.setMem x).writer = s.writer := rfl
@[simp] theorem State.setMem_reader : (s.setMem x).reader = s.reader := rfl
@[simp] theorem State.setMem_ports : (s.setMem x).ports = s.ports := rfl
@[simp] theorem State.setMem_host : (s.setMem x).host = s.host := rfl
@[simp] theorem State.setMem_opResult : (s.setMem x).opResult = s.opResult := rfl
@[simp] theorem State.setMem_freeCount : (s.setMem x).freeCount = s.freeCount := rfl
@[simp] theorem State.setMem_set (y : Memory) : (s.setMem x).setMem y = s.setMem y := rfl
end

section
variable (s : State) (x : BitWriter)
@[simp] theorem State.setWriter_cfg : (s.setWriter x).cfg = s.cfg := rfl
@[simp] theorem State.setWriter_hdr : (s.setWriter x).hdr = s.hdr := rfl
@[simp] theorem State.setWriter_ctl : (s.setWriter x).ctl = s.ctl := rfl
@[simp] theorem State.setWriter_err : (s.setWriter x).err = s.err := rfl
@[simp] theorem State.setWriter_srcEof : (s.setWriter x).srcEof = s.srcEof := rfl
@[simp] theorem State.setWriter_cleanEnd : (s.setWriter x).cleanEnd = s.cleanEnd := rfl
@[simp] theorem State.setWriter_params : (s.setWriter x).params = s.params := rfl
@[simp] theorem State.setWriter_record : (s.setWriter x).record = s.record := rfl
@[simp] theorem State.setWriter_search : (s.setWriter x).search = s.search := rfl
@[simp] theorem State.setWriter_mem : (s.setWriter x).mem = s.mem := rfl
@[simp] theorem State.setWriter_writer : (s.setWriter x).writer = x := rfl
@[simp] theorem State.setWriter_reader : (s.setWriter x).reader = s.reader := rfl
@[simp] theorem State.setWriter_ports : (s.setWriter x).ports = s.ports := rfl
@[simp] theorem State.setWriter_host : (s.setWriter x).host = s.host := rfl
@[simp] theorem State.setWriter_opResult : (s.setWriter x).opResult = s.opResult := rfl
@[simp] theorem State.setWriter_freeCount : (s.setWriter x).freeCount = s.freeCount := rfl
@[simp] theorem State.setWriter_set (y : BitWriter) : (s.setWriter x).setWriter y = s.setWriter y := rfl
end

section
variable (s : State) (x : BitReader)
@[simp] theorem State.setReader_cfg : (s.setReader x).cfg = s.cfg := rfl
@[simp] theorem State.setReader_hdr : (s.setReader x).hdr = s.hdr := rfl
@[simp] theorem State.setReader_ctl : (s.setReader x).ctl = s.ctl := rfl
@[simp] theorem State.setReader_err : (s.setReader x).err = s.err := rfl
@[simp] theorem State.setReader_srcEof : (s.setReader x).srcEof = s.srcEof := rfl
@[simp] theorem State.setReader_cleanEnd : (s.setReader x).cleanEnd = s.cleanEnd := rfl
@[simp] theorem State.setReader_params : (s.setReader x).params = s.params := rfl
@[simp] theorem State.setReader_record : (s.setReader x).record = s.record := rfl
@[simp] theorem State.setReader_search : (s.setReader x).search = s.search := rfl
@[simp] theorem State.setReader_mem : (s.setReader x).mem = s.mem := rfl
@[simp] theorem State.setReader_writer : (s.setReader x).writer = s.writer := rfl
@[simp] theorem State.setReader_reader : (s.setReader x).reader = x := rfl
@[simp] theorem State.setReader_ports : (s.setReader x).ports = s.ports := rfl
@[simp] theorem State.setReader_host : (s.setReader x).host = s.host := rfl
@[simp] theorem State.setReader_opResult : (s.setReader x).opResult = s.opResult := rfl
@[simp] theorem State.setReader_freeCount : (s.setReader x).freeCount = s.freeCount := rfl
@[simp] theorem State.setReader_set (y : BitReader) : (s.setReader x).setReader y = s.setReader y := rfl
end

section
variable (s : State) (x : Ports)
@[simp] theorem State.setPorts_cfg : (s.setPorts x).cfg = s.cfg := rfl
@[simp] theorem State.setPorts_hdr : (s.setPorts x).hdr = s.hdr := rfl
@[simp] theorem State.setPorts_ctl : (s.setPorts x).ctl = s.ctl := rfl
@[simp] theorem State.setPorts_err : (s.setPorts x).err = s.err := rfl
@[simp] theorem State.setPorts_srcEof : (s.setPorts x).srcEof = s.srcEof := rfl
@[simp] theorem State.setPorts_cleanEnd : (s.setPorts x).cleanEnd = s.cleanEnd := rfl
@[simp] theorem State.setPorts_params : (s.setPorts x).params = s.params := rfl
@[simp] theorem State.setPorts_record : (s.setPorts x).record = s.record := rfl
@[simp] theorem State.setPorts_search : (s.setPorts x).search = s.search := rfl
@[simp] theorem State.setPorts_mem : (s.setPorts x).mem = s.mem := rfl
@[simp] theorem State.setPorts_writer : (s.setPorts x).writer = s.writer := rfl
@[simp] theorem State.setPorts_reader : (s.setPorts x).reader = s.reader := rfl
@[simp] theorem State.setPorts_ports : (s.setPorts x).ports = x := rfl
@[simp] theorem State.setPorts_host : (s.setPorts x).host = s.host := rfl
@[simp] theorem State.setPorts_opResult : (s.setPorts x).opResult = s.opResult := rfl
@[simp] theorem State.setPorts_freeCount : (s.setPorts x).freeCount = s.freeCount := rfl
@[simp] theorem State.setPorts_set (y : Ports) : (s.setPorts x).setPorts y = s.setPorts y := rfl
end

section
variable (s : State) (x : List HostEvent)
@[simp] theorem State.setHost_cfg : (s.setHost x).cfg = s.cfg := rfl
@[simp] theorem State.setHost_hdr : (s.setHost x).hdr = s.hdr := rfl
@[simp] theorem State.setHost_ctl : (s.setHost x).ctl = s.ctl := rfl
@[simp] theorem State.setHost_err : (s.setHost x).err = s.err := rfl
@[simp] theorem State.setHost_srcEof : (s.setHost x).srcEof = s.srcEof := rfl
@[simp] theorem State.setHost_cleanEnd : (s.setHost x).cleanEnd = s.cleanEnd := rfl
@[simp] theorem State.setHost_params : (s.setHost x).params = s.params := rfl
@[simp] theorem State.setHost_record : (s.setHost x).record = s.record := rfl
@[simp] theorem State.setHost_search : (s.setHost x).search = s.search := rfl
@[simp] theorem State.setHost_mem : (s.setHost x).mem = s.mem := rfl
@[simp] theorem State.setHost_writer : (s.setHost x).writer = s.writer := rfl
@[simp] theorem State.setHost_reader : (s.setHost x).reader = s.reader := rfl
@[simp] theorem State.setHost_ports : (s.setHost x).ports = s.ports := rfl
@[simp] theorem State.setHost_host : (s.setHost x).host = x := rfl
@[simp] theorem State.setHost_opResult : (s.setHost x).opResult = s.opResult := rfl
@[simp] theorem State.setHost_freeCount : (s.setHost x).freeCount = s.freeCount := rfl
@[simp] theorem State.setHost_set (y : List HostEvent) : (s.setHost x).setHost y = s.setHost y := rfl
end

section
variable (s : State) (x : OpResult)
@[simp] theorem State.setOpResult_cfg : (s.setOpResult x).cfg = s.cfg := rfl
@[simp] theorem State.setOpResult_hdr : (s.setOpResult x).hdr = s.hdr := rfl
@[simp] theorem State.setOpResult_ctl : (s.setOpResult x).ctl = s.ctl := rfl
@[simp] theorem State.setOpResult_err : (s.setOpResult x).err = s.err := rfl
@[simp] theorem State.setOpResult_srcEof : (s.setOpResult x).srcEof = s.srcEof := rfl
@[simp] theorem State.setOpResult_cleanEnd : (s.setOpResult x).cleanEnd = s.cleanEnd := rfl
@[simp] theorem State.setOpResult_params : (s.setOpResult x).params = s.params := rfl
@[simp] theorem State.setOpResult_record : (s.setOpResult x).record = s.record := rfl
@[simp] theorem State.setOpResult_search : (s.setOpResult x).search = s.search := rfl
@[simp] theorem State.setOpResult_mem : (s.setOpResult x).mem = s.mem := rfl
@[simp] theorem State.setOpResult_writer : (s.setOpResult x).writer = s.writer := rfl
@[simp] theorem State.setOpResult_reader : (s.setOpResult x).reader = s.reader := rfl
@[simp] theorem State.setOpResult_ports : (s.setOpResult x).ports = s.ports := rfl
@[simp] theorem State.setOpResult_host : (s.setOpResult x).host = s.host := rfl
@[simp] theorem State.setOpResult_opResult : (s.setOpResult x).opResult = x := rfl
@[simp] theorem State.setOpResult_freeCount : (s.setOpResult x).freeCount = s.freeCount := rfl
@[simp] theorem State.setOpResult_set (y : OpResult) : (s.setOpResult x).setOpResult y = s.setOpResult y := rfl
end

section
variable (s : State) (x : Nat)
@[simp] theorem State.setFreeCount_cfg : (s.setFreeCount x).cfg = s.cfg := rfl
@[simp] theorem State.setFreeCount_hdr : (s.setFreeCount x).hdr = s.hdr := rfl
@[simp] theorem State.setFreeCount_ctl : (s.setFreeCount x).ctl = s.ctl := rfl
@[simp] theorem State.setFreeCount_err : (s.setFreeCount x).err = s.err := rfl
@[simp] theorem State.setFreeCount_srcEof : (s.setFreeCount x).srcEof = s.srcEof := rfl
@[simp] theorem State.setFreeCount_cleanEnd : (s.setFreeCount x).cleanEnd = s.cleanEnd := rfl
@[simp] theorem State.setFreeCount_params : (s.setFreeCount x).params = s.params := rfl
@[simp] theorem State.setFreeCount_record : (s.setFreeCount x).record = s.record := rfl
@[simp] theorem State.setFreeCount_search : (s.setFreeCount x).search = s.search := rfl
@[simp] theorem State.setFreeCount_mem : (s.setFreeCount x).mem = s.mem := rfl
@[simp] theorem State.setFreeCount_writer : (s.setFreeCount x).writer = s.writer := rfl
@[simp] theorem State.setFreeCount_reader : (s.setFreeCount x).reader = s.reader := rfl
@[simp] theorem State.setFreeCount_ports : (s.setFreeCount x).ports = s.ports := rfl
@[simp] theorem State.setFreeCount_host : (s.setFreeCount x).host = s.host := rfl
@[simp] theorem State.setFreeCount_opResult : (s.setFreeCount x).opResult = s.opResult := rfl
@[simp] theorem State.setFreeCount_freeCount : (s.setFreeCount x).freeCount = x := rfl
@[simp] theorem State.setFreeCount_set (y : Nat) : (s.setFreeCount x).setFreeCount y = s.setFreeCount y := rfl
end

end Sys2Proof.Machine
end

