-- ==== Sys2Proof/Laws/Ops.lean ====
section
/-! SUPPORT. One lemma for each shared operation that says once everything it can do: results, raising, frame. -/

namespace Sys2Proof.Machine

/-! ## Results -/

section
variable {α β : Type}

@[simp] theorem Res.bind_ok (a : α) (s : State) (f : α → State → Res β) : (Res.ok a s).bind f = f a s := rfl
@[simp] theorem Res.bind_raised (s : State) (f : α → State → Res β) : (Res.raised s).bind f = .raised s := rfl
@[simp] theorem Res.bind_refused (r : Refusal) (f : α → State → Res β) : (Res.refused r).bind f = .refused r := rfl
@[simp] theorem Res.outcome_ok (a : α) (s : State) : (Res.ok a s).outcome = .next s := rfl
@[simp] theorem Res.outcome_raised (s : State) : (Res.raised s : Res α).outcome = .next s := rfl
@[simp] theorem Res.outcome_refused (r : Refusal) : (Res.refused r : Res α).outcome = .refused r := rfl
@[simp] theorem Res.outcomeOf_ok (g : α → OpResult) (a : α) (s : State) :
    (Res.ok a s).outcomeOf g = .next (s.setOpResult (g a)) := rfl
@[simp] theorem Res.outcomeOf_raised (g : α → OpResult) (s : State) : (Res.raised s).outcomeOf g = .next s := rfl
@[simp] theorem Res.outcomeOf_refused (g : α → OpResult) (r : Refusal) :
    (Res.refused r).outcomeOf g = .refused r := rfl

/-- An operation that is not refused ends in `P` with a result or in `Q` by a raise. -/
def Res.Ends (P : α → State → Prop) (Q : State → Prop) : Res α → Prop
  | .ok a t => P a t
  | .raised t => Q t
  | .refused _ => False

theorem Res.Ends.bind {P : α → State → Prop} {P' : β → State → Prop} {Q : State → Prop} {x : Res α}
    {f : α → State → Res β} (hx : x.Ends P Q) (hf : ∀ a t, P a t → (f a t).Ends P' Q) : (x.bind f).Ends P' Q := by
  cases x with
  | ok a t => exact hf a t hx
  | raised t => exact hx
  | refused r => exact hx

theorem Res.Ends.mono {P P' : α → State → Prop} {Q Q' : State → Prop} {x : Res α} (hx : x.Ends P Q)
    (hp : ∀ a t, P a t → P' a t) (hq : ∀ t, Q t → Q' t) : x.Ends P' Q' := by
  cases x with
  | ok a t => exact hp a t hx
  | raised t => exact hq t hx
  | refused r => exact hx

/-- The next state of an operation's instruction. -/
theorem Res.Ends.next {P : α → State → Prop} {Q : State → Prop} {x : Res α} (hx : x.Ends P Q) :
    ∃ t, x.outcome = .next t ∧ ((∃ a, P a t) ∨ Q t) := by
  cases x with
  | ok a t => exact ⟨t, rfl, .inl ⟨a, hx⟩⟩
  | raised t => exact ⟨t, rfl, .inr hx⟩
  | refused r => exact hx.elim

end

/-! ## Error entry, DONE, start -/

section
variable (e : ErrorClass) (s : State)

@[simp] theorem discard_cfg : (discard s).cfg = s.cfg := rfl
@[simp] theorem discard_hdr : (discard s).hdr = s.hdr := rfl
@[simp] theorem discard_ctl : (discard s).ctl = s.ctl := rfl
@[simp] theorem discard_err : (discard s).err = s.err := rfl
@[simp] theorem discard_srcEof : (discard s).srcEof = s.srcEof := rfl
@[simp] theorem discard_cleanEnd : (discard s).cleanEnd = s.cleanEnd := rfl
@[simp] theorem discard_record : (discard s).record = s.record := rfl
@[simp] theorem discard_search : (discard s).search = s.search := rfl
@[simp] theorem discard_writer : (discard s).writer = s.writer := rfl
@[simp] theorem discard_bitsRead : (discard s).reader.bitsRead = s.reader.bitsRead := rfl
@[simp] theorem discard_ports : (discard s).ports = s.ports := rfl
@[simp] theorem discard_host : (discard s).host = s.host := rfl
@[simp] theorem discard_opResult : (discard s).opResult = s.opResult := rfl

theorem discard_same : SameButDiscarded s (discard s) := rfl

theorem raiseError_from : RaisedFrom e s (raiseError e s) := rfl

@[simp] theorem raiseError_cfg : (raiseError e s).cfg = s.cfg := rfl
@[simp] theorem raiseError_hdr : (raiseError e s).hdr = s.hdr := rfl
@[simp] theorem raiseError_ctl : (raiseError e s).ctl = .error := rfl
@[simp] theorem raiseError_err : (raiseError e s).err = e.toErr := rfl
@[simp] theorem raiseError_srcEof : (raiseError e s).srcEof = s.srcEof := rfl
@[simp] theorem raiseError_cleanEnd : (raiseError e s).cleanEnd = s.cleanEnd := rfl
@[simp] theorem raiseError_record : (raiseError e s).record = s.record := rfl
@[simp] theorem raiseError_search : (raiseError e s).search = s.search := rfl
@[simp] theorem raiseError_writer : (raiseError e s).writer = { s.writer with wacc := [], wcnt := 0 } := rfl
@[simp] theorem raiseError_bitsRead : (raiseError e s).reader.bitsRead = s.reader.bitsRead := rfl
@[simp] theorem raiseError_ports : (raiseError e s).ports = s.ports := rfl
@[simp] theorem raiseError_host : (raiseError e s).host = s.host := rfl
@[simp] theorem raiseError_opResult : (raiseError e s).opResult = s.opResult := rfl

@[simp] theorem raising_eq {α : Type} : (raising e s : Res α) = .raised (raiseError e s) := rfl

end

/-- The free values at DONE and ERROR keep the widths (U11, log 6). -/
theorem discard_reader (s : State) : ReaderOk (discard s) := by
  refine ⟨rfl, ?_⟩
  simp only [discard, State.setFreeCount_reader, State.setReader_reader, List.length_take]
  omega

theorem discard_widths {s : State} (hr : s.record.pos < 2 ^ 31 ∧ s.record.len < 2 ^ 16)
    (hs : s.search.off < 2 ^ 32 ∧ s.search.start < 2 ^ 32 ∧ s.search.count < 2 ^ 16 ∧ s.search.found < 2 ^ 32 ∧
      s.search.bestPos < 2 ^ 31 ∧ s.search.bestLen < 2 ^ 16) (hw : s.writer.wcnt < 2 ^ 3) : FitsWidths (discard s) := by
  refine ⟨⟨?_, ?_, ?_, ?_, ?_, ?_⟩, hr, hs, ⟨?_, ?_, ?_⟩, hw, Nat.lt_of_le_of_lt (discard_reader s).2 (by decide)⟩ <;>
    exact Nat.mod_lt _ (by positivity)

/-- A raise leads into the invariant from any state whose record and search registers fit (R122). -/
theorem raiseError_inv {e : ErrorClass} {s : State} (hr : s.record.pos < 2 ^ 31 ∧ s.record.len < 2 ^ 16)
    (hs : s.search.off < 2 ^ 32 ∧ s.search.start < 2 ^ 32 ∧ s.search.count < 2 ^ 16 ∧ s.search.found < 2 ^ 32 ∧
      s.search.bestPos < 2 ^ 31 ∧ s.search.bestLen < 2 ^ 16) : Inv (raiseError e s) where
  call := trivial
  widths := discard_widths hr hs (by simp)
  writer := ⟨rfl, by simp⟩
  cursor := fun h => absurd rfl h
  reader := discard_reader _
  err := by cases e <;> simp [ErrorClass.toErr]
  clean := fun _ => .inr rfl

/-- DONE keeps the invariant (R102, R114). -/
theorem enterDone_inv {s : State} (hw : FitsWidths s) (hr : WriterOk s) (hc : s.writer.wcnt = s.writer.bitsWritten % 8)
    (he : s.err = .none) : Inv (enterDone s) where
  call := trivial
  widths := discard_widths (s := s.setCtl .done) hw.2.1 hw.2.2.1 hw.2.2.2.2.1
  writer := hr
  cursor := fun _ => hc
  reader := discard_reader _
  err := by simp [enterDone, he]
  clean := fun _ => .inl rfl

/-! ## The ports -/

/-- What `srcPoll` answers is the head of what is coming (R41). -/
theorem srcPoll_coming (l : List SrcAnswer) :
    (∃ b r, srcPoll l = (.byte b, r) ∧ srcComing l = (b :: (srcComing r).1, (srcComing r).2)) ∨
      (∃ r, srcPoll l = (.eof, r) ∧ srcComing l = ([], true)) ∨
      ∃ r, srcPoll l = (.fail, r) ∧ srcComing l = ([], false) := by
  induction l with
  | nil => exact .inr (.inl ⟨_, rfl, rfl⟩)
  | cons a l ih =>
    cases a with
    | byte b => exact .inl ⟨b, l, rfl, rfl⟩
    | interrupted => simpa [srcPoll, srcComing] using ih
    | endOfData => exact .inr (.inl ⟨_, rfl, rfl⟩)
    | fail => exact .inr (.inr ⟨_, rfl, rfl⟩)

theorem OnlyRead.refl (s : State) : OnlyRead s s := rfl

theorem OnlyRead.trans {s t u : State} (h : OnlyRead s t) (k : OnlyRead t u) : OnlyRead s u := by
  unfold OnlyRead at *
  rw [k, h]; rfl

/-- SrcRead in its three outcomes (R41): the byte at the head of what is coming, or the latched end, or a failure. -/
theorem srcRead_cases (s : State) :
    (∃ b bs e t, sourceComing s = (b :: bs, e) ∧ srcRead s = (.byte b, t) ∧ sourceComing t = (bs, e) ∧ OnlyRead s t ∧
        t.reader = s.reader ∧ s.srcEof = false ∧ t.srcEof = false) ∨
      (∃ t, sourceComing s = ([], true) ∧ srcRead s = (.eof, t) ∧ sourceComing t = ([], true) ∧ OnlyRead s t ∧
        t.reader = s.reader ∧ t.srcEof = true) ∨
      ∃ t, sourceComing s = ([], false) ∧ srcRead s = (.fail, t) ∧ OnlyRead s t ∧ t.reader = s.reader ∧
        s.srcEof = false ∧ t.srcEof = false := by
  unfold srcRead sourceComing
  cases h : s.srcEof with
  | true => exact .inr (.inl ⟨s, rfl, rfl, by simp [h], rfl, rfl, h⟩)
  | false =>
    obtain ⟨b, r, h1, h2⟩ | ⟨r, h1, h2⟩ | ⟨r, h1, h2⟩ := srcPoll_coming s.ports.src
    · exact .inl ⟨b, _, _, s.setPorts { s.ports with src := r }, h2, by simp [h1], by simp [h],
        by simp [OnlyRead, State.setPorts, State.setSrcEof, State.setReader], rfl, rfl, h⟩
    · exact .inr (.inl ⟨(s.setPorts { s.ports with src := r }).setSrcEof true, h2, by simp [h1], by simp,
        by simp [OnlyRead, State.setPorts, State.setSrcEof, State.setReader], rfl, rfl⟩)
    · exact .inr (.inr ⟨s.setPorts { s.ports with src := r }, h2, by simp [h1],
        by simp [OnlyRead, State.setPorts, State.setSrcEof, State.setReader], rfl, rfl, h⟩)

theorem OnlyWrote.refl (s : State) : OnlyWrote s s := rfl

theorem OnlyWrote.trans {s t u : State} (h : OnlyWrote s t) (k : OnlyWrote t u) : OnlyWrote s u := by
  unfold OnlyWrote at *
  rw [k, h]; rfl

/-- An IOError raised in a state in which only some of the writing of `bits` has happened since `s`. -/
def RaisedWriting (bits : Bits) (s t : State) : Prop :=
  ∃ u, OnlyWrote s u ∧ s.ports.snk <+: u.ports.snk ∧ bytesBits u.ports.snk <+: outBits s ++ bits ∧
    t = raiseError .ioError u ∧ ¬ SinkWilling s

/-- What writing `bits` makes of the sink's coming answers: one for each completed byte, the first failure raises (R42, R71). -/
structure Meets {α : Type} (bits : Bits) (s : State) (x : Res α) (k : Nat) (rest : List SnkAnswer) : Prop where
  taken : completedBytes s bits ≤ k →
    ∃ r t, x = .ok r t ∧ t.ports.snkAns = List.replicate (k - completedBytes s bits) .ok ++ rest
  fails : k < completedBytes s bits → ∀ more, rest = .fail :: more → ∃ u, x = .raised (raiseError .ioError u) ∧
    OnlyWrote s u ∧ u.ports.snkAns = more ∧ bytesBits u.ports.snk = (outBits s ++ bits).take (8 * (s.ports.snk.length + k))

/-- `x` writes `bits`, or raises on the way, which a willing sink never makes it do (R71, R72, R120). -/
structure Writes {α : Type} (bits : Bits) (s : State) (x : Res α) : Prop where
  ends : x.Ends (fun _ t => Wrote bits s t ∧ s.ports.snk <+: t.ports.snk ∧ (SinkWilling s → SinkWilling t))
    (RaisedWriting bits s)
  meets : WriterOk s → ∀ k rest, s.ports.snkAns = List.replicate k .ok ++ rest → Meets bits s x k rest

/-- A raise of `e` from a state in which only reading has happened since `s`. -/
def RaisedReading (e : ErrorClass) (s t : State) : Prop := ∃ u, OnlyRead s u ∧ t = raiseError e u

/-- What a poll of the sink says of its coming answers (R42; log 3). -/
theorem snkPoll_cases (l : List SnkAnswer) :
    (∃ r, snkPoll l = (.ok, r) ∧ ((∀ a ∈ l, a = SnkAnswer.ok) → ∀ a ∈ r, a = SnkAnswer.ok)) ∨
      ∃ r, snkPoll l = (.fail, r) ∧ ¬ ∀ a ∈ l, a = SnkAnswer.ok := by
  cases l with
  | nil => exact .inl ⟨[], rfl, id⟩
  | cons a r =>
    cases a with
    | ok => exact .inl ⟨r, rfl, fun h b hb => h b (List.mem_cons_of_mem _ hb)⟩
    | fail => exact .inr ⟨r, rfl, fun h => by cases h _ List.mem_cons_self⟩

/-- A byte the sink takes, or fails (R42). -/
theorem snkWrite_takes {b : Byte} {s : State} {rest : List SnkAnswer} (h : SinkTakes s rest) :
    snkWrite b s = .ok () (s.setPorts { s.ports with snk := s.ports.snk ++ [b], snkAns := rest }) := by
  obtain h | ⟨h, rfl⟩ := h <;> simp [snkWrite, snkPoll, h]

theorem snkWrite_fails {b : Byte} {s : State} {rest : List SnkAnswer} (h : s.ports.snkAns = .fail :: rest) :
    snkWrite b s = .raised (raiseError .ioError (s.setPorts { s.ports with snkAns := rest })) := by
  simp [snkWrite, snkPoll, h]

/-- SnkWrite appends or raises (R42). -/
theorem snkWrite_ends (b : Byte) (s : State) :
    (snkWrite b s).Ends
      (fun _ t => OnlyWrote s t ∧ t.writer = s.writer ∧ t.ports.snk = s.ports.snk ++ [b] ∧ (SinkWilling s → SinkWilling t))
      (fun t => ∃ u, OnlyWrote s u ∧ u.writer = s.writer ∧ u.ports.snk = s.ports.snk ∧ t = raiseError .ioError u ∧
        ¬ SinkWilling s) := by
  unfold snkWrite
  obtain ⟨r, hr, hw⟩ | ⟨r, hr, hw⟩ := snkPoll_cases s.ports.snkAns <;> rw [hr]
  · exact ⟨rfl, rfl, rfl, hw⟩
  · exact ⟨s.setPorts { s.ports with snkAns := r }, rfl, rfl, rfl, rfl, hw⟩

end Sys2Proof.Machine
end

