-- ==== Sys2Proof/Laws/BitIo.lean ====
section
/-! SUPPORT. What the bit writer and the bit reader do, once for each operation. -/

namespace Sys2Proof.Machine

/-! ## Writing -/

theorem Wrote.refl (s : State) : Wrote [] s s := ⟨rfl, by simp, rfl, id⟩

theorem Wrote.trans {a b : Bits} {s t u : State} (h : Wrote a s t) (k : Wrote b t u) : Wrote (a ++ b) s u :=
  ⟨h.only.trans k.only, by rw [k.out, h.out, List.append_assoc], by
    rw [k.count, h.count, List.length_append, Nat.add_assoc], fun w => k.writer (h.writer w)⟩

theorem OnlyWrote.record {s t : State} (h : OnlyWrote s t) : t.record = s.record := by rw [h]; rfl
theorem OnlyWrote.params {s t : State} (h : OnlyWrote s t) : t.params = s.params := by rw [h]; rfl
theorem OnlyWrote.mem {s t : State} (h : OnlyWrote s t) : t.mem = s.mem := by rw [h]; rfl
theorem OnlyWrote.search {s t : State} (h : OnlyWrote s t) : t.search = s.search := by rw [h]; rfl
theorem OnlyWrote.ctl {s t : State} (h : OnlyWrote s t) : t.ctl = s.ctl := by rw [h]; rfl
theorem OnlyWrote.err {s t : State} (h : OnlyWrote s t) : t.err = s.err := by rw [h]; rfl
theorem OnlyWrote.srcEof {s t : State} (h : OnlyWrote s t) : t.srcEof = s.srcEof := by rw [h]; rfl
theorem OnlyWrote.cleanEnd {s t : State} (h : OnlyWrote s t) : t.cleanEnd = s.cleanEnd := by rw [h]; rfl
theorem OnlyWrote.reader {s t : State} (h : OnlyWrote s t) : t.reader = s.reader := by rw [h]; rfl
theorem OnlyWrote.cfg {s t : State} (h : OnlyWrote s t) : t.cfg = s.cfg := by rw [h]; rfl
theorem OnlyWrote.hdr {s t : State} (h : OnlyWrote s t) : t.hdr = s.hdr := by rw [h]; rfl
theorem OnlyWrote.host {s t : State} (h : OnlyWrote s t) : t.host = s.host := by rw [h]; rfl
theorem OnlyWrote.src {s t : State} (h : OnlyWrote s t) : t.ports.src = s.ports.src := by rw [h]; rfl
theorem OnlyWrote.snkFlushes {s t : State} (h : OnlyWrote s t) : t.ports.snkFlushes = s.ports.snkFlushes := by
  rw [h]; rfl

/-- Over written bits WCNT grows by their number, modulo 8 (R28). -/
theorem Wrote.counted {bits : Bits} {s t : State} (h : Wrote bits s t) (hs : WriterOk s) :
    t.writer.wcnt = (s.writer.wcnt + bits.length) % 8 := by
  have ht := h.writer hs
  have hl := congrArg List.length h.out
  simp only [outBits, List.length_append, bytesBits_length] at hl
  have h1 := hs.1; have h2 := ht.1; have h3 := ht.2
  omega

/-- The sink grows by the completed bytes (R71). -/
theorem Wrote.sinkLength {bits : Bits} {s t : State} (h : Wrote bits s t) (hs : WriterOk s) :
    t.ports.snk.length = s.ports.snk.length + completedBytes s bits := by
  have ht := h.writer hs
  have hl := congrArg List.length h.out
  simp only [outBits, List.length_append, bytesBits_length] at hl
  have h1 := hs.1; have h2 := ht.1; have h3 := ht.2; have h4 := hs.2
  simp only [completedBytes]
  omega

/-- Bytes completed by two writes in a row (R72). -/
theorem Wrote.completed {a : Bits} {s t : State} (h : Wrote a s t) (hs : WriterOk s) (b : Bits) :
    completedBytes s (a ++ b) = completedBytes s a + completedBytes t b := by
  simp only [completedBytes, h.counted hs, List.length_append]
  omega

/-- One write after another (R72). -/
theorem Writes.bind {α β : Type} {a b : Bits} {s : State} {x : Res α} {f : α → State → Res β} (hx : Writes a s x)
    (hf : ∀ r t, Wrote a s t → Writes b t (f r t)) : Writes (a ++ b) s (x.bind f) := by
  obtain ⟨hx, hm⟩ := hx
  constructor
  · cases x with
    | ok r t =>
      obtain ⟨ht, hp, hw⟩ := hx
      refine (hf r t ht).ends.mono ?_ ?_
      · rintro - u ⟨hu, hq, hv⟩
        exact ⟨ht.trans hu, hp.trans hq, hv ∘ hw⟩
      · rintro _ ⟨u, hu, hq, hb, rfl, hn⟩
        exact ⟨u, ht.only.trans hu, hp.trans hq, by rw [ht.out, List.append_assoc] at hb; exact hb, rfl, hn ∘ hw⟩
    | raised t =>
      obtain ⟨u, hu, hq, hb, rfl, hn⟩ := hx
      exact ⟨u, hu, hq, by rw [← List.append_assoc]; exact hb.trans (List.prefix_append _ _), rfl, hn⟩
    | refused r => exact hx.elim
  · intro hs k rest hk
    have hm := hm hs k rest hk
    by_cases hka : completedBytes s a ≤ k
    · obtain ⟨r, t, rfl, hrest⟩ := hm.taken hka
      have hn := hx.1.completed hs b
      have hf := (hf r t hx.1).meets (hx.1.writer hs) _ _ hrest
      constructor
      · intro hle
        obtain ⟨q, u, hu, hq⟩ := hf.taken (by omega)
        exact ⟨q, u, hu, by rw [hq, hn, Nat.sub_sub]⟩
      · intro hlt more hmore
        obtain ⟨u, hu, ho, hq, hb⟩ := hf.fails (by omega) more hmore
        refine ⟨u, hu, hx.1.only.trans ho, hq, ?_⟩
        rw [hb, hx.1.out, hx.1.sinkLength hs, List.append_assoc, show s.ports.snk.length + completedBytes s a +
          (k - completedBytes s a) = s.ports.snk.length + k by omega]
    · have hlen : completedBytes s a ≤ completedBytes s (a ++ b) := by
        simp only [completedBytes, List.length_append]; omega
      refine ⟨fun hle => absurd (hlen.trans hle) hka, fun _ more hmore => ?_⟩
      obtain ⟨u, rfl, ho, hq, hb⟩ := hm.fails (Nat.lt_of_not_le hka) more hmore
      refine ⟨u, rfl, ho, hq, ?_⟩
      rw [hb, ← List.append_assoc]
      refine (List.take_append_of_le_length ?_).symm
      rw [Nat.not_le, completedBytes] at hka
      simp only [outBits, List.length_append, bytesBits_length]
      have := hs.1
      omega

theorem Writes.ok {α : Type} {a : Bits} {s t : State} {x : Res α} {r : α} (h : Writes a s x) (hx : x = .ok r t) :
    Wrote a s t := by
  have h := h.ends
  rw [hx] at h; exact h.1

theorem Writes.nil {α : Type} (r : α) (s : State) : Writes [] s (.ok r s) where
  ends := ⟨Wrote.refl s, List.prefix_rfl, id⟩
  meets := fun hs k rest hk => by
    have h0 : completedBytes s [] = 0 := Nat.div_eq_of_lt hs.2
    refine ⟨fun _ => ⟨r, s, rfl, by rw [h0]; exact hk⟩, fun h => ?_⟩
    rw [h0] at h; exact absurd h (Nat.not_lt_zero _)

/-- With a willing sink nothing is raised. -/
theorem Writes.willing {α : Type} {a : Bits} {s : State} {x : Res α} (h : Writes a s x) (hw : SinkWilling s) :
    ∃ r t, x = .ok r t ∧ Wrote a s t ∧ SinkWilling t := by
  have h := h.ends
  cases x with
  | ok r t => exact ⟨r, t, rfl, h.1, h.2.2 hw⟩
  | raised t => obtain ⟨_, _, _, _, _, hn⟩ := h; exact absurd hw hn
  | refused r => exact h.elim

/-- A writing operation, closed by a register update, as an instruction. -/
theorem Writes.emits {α : Type} {a : Bits} {s : State} {x : Res α} (h : Writes a s x) (finish : State → State) :
    Emits a finish s (x.bind fun _ t => Res.ok () (finish t)).outcome where
  willing := fun hw => by
    obtain ⟨r, t, rfl, ht, -⟩ := h.willing hw
    exact ⟨t, ht, rfl⟩
  any := by
    have h := h.ends
    cases x with
    | ok r t => exact ⟨_, rfl, .inl ⟨t, h.1, rfl⟩⟩
    | raised t =>
      obtain ⟨u, hu, hq, hb, rfl, -⟩ := h
      exact ⟨_, rfl, .inr ⟨u, hu, hq, hb, raiseError_from _ _⟩⟩
    | refused r => exact h.elim
  taken := fun hs rest hk => by
    obtain ⟨r, t, rfl, hr⟩ := (h.meets hs _ rest hk).taken le_rfl
    exact ⟨t, h.ends.1, by simpa using hr, rfl⟩
  fails := fun hs k rest hk hlt => by
    obtain ⟨u, rfl, ho, hr, hb⟩ := (h.meets hs k _ hk).fails hlt rest rfl
    exact ⟨u, _, rfl, ho, hr, hb, raiseError_from _ _⟩

/-- A writing operation as an instruction. -/
theorem Writes.emits_id {α : Type} {a : Bits} {s : State} {x : Res α} (h : Writes a s x) : Emits a id s x.outcome := by
  have := h.emits id
  cases x <;> exact this

/-- BW_WRITE_BIT (R71): the bit joins the stream, or the completed byte meets a failing sink. -/
theorem writeBit_ends (b : Bool) (s : State) : Writes [b] s (writeBit b s) := by
  constructor
  · unfold writeBit
    split
    case isTrue h8 =>
      refine (snkWrite_ends _ _).mono ?_ ?_
      · rintro - t ⟨ho, hw, hs, hv⟩
        refine ⟨⟨?_, ?_, ?_, ?_⟩, ?_, hv⟩
        · unfold OnlyWrote at *; rw [ho]; rfl
        · simp only [outBits, hw, hs, State.setWriter_writer, State.setWriter_ports, bytesBits_append, bytesBits_cons,
            bytesBits_nil, byteBits_bitsByte h8, List.append_nil, List.append_assoc]
        · rw [hw]; simp
        · intro _; rw [WriterOk, hw]; simp
        · rw [hs]; simp
      · rintro t ⟨u, ho, -, hs, rfl, hn⟩
        refine ⟨u, ?_, by rw [hs]; simp, by rw [hs, outBits, List.append_assoc]; exact List.prefix_append _ _, rfl, hn⟩
        unfold OnlyWrote at *; rw [ho]; rfl
    case isFalse h8 =>
      refine ⟨⟨rfl, ?_, ?_, ?_⟩, by simp, id⟩
      · simp [outBits]
      · simp
      · rintro ⟨h1, h2⟩
        refine ⟨rfl, ?_⟩
        simp only [State.setWriter_writer, List.length_append, List.length_cons, List.length_nil] at *
        omega
  · rintro ⟨h1, h2⟩ k rest hk
    unfold writeBit
    simp only [List.length_append, List.length_cons, List.length_nil, ← h1]
    split
    case isTrue h8 =>
      have hc : completedBytes s [b] = 1 := by simp only [completedBytes, List.length_cons, List.length_nil]; omega
      cases k with
      | zero =>
        refine ⟨fun h => by omega, fun _ more hmore => ?_⟩
        have hf : s.ports.snkAns = .fail :: more := by rw [hk, hmore]; rfl
        refine ⟨_, snkWrite_fails hf, rfl, rfl, ?_⟩
        simp only [outBits, State.setPorts_ports, State.setWriter_ports, Nat.add_zero, List.append_assoc]
        rw [List.take_append_of_le_length (by simp [bytesBits_length]), List.take_of_length_le (by simp [bytesBits_length])]
      | succ k =>
        refine ⟨fun _ => ⟨(), _, snkWrite_takes (.inl (by rw [State.setWriter_ports, hk, List.replicate_succ]; rfl)), ?_⟩,
          fun h => by omega⟩
        rw [hc]; rfl
    case isFalse h8 =>
      have hc : completedBytes s [b] = 0 := by simp only [completedBytes, List.length_cons, List.length_nil]; omega
      exact ⟨fun _ => ⟨(), _, rfl, by rw [hc]; exact hk⟩, fun h => by omega⟩

/-- Bits in order (R72). -/
theorem writeBitList_ends (bits : Bits) (s : State) : Writes bits s (writeBitList bits s) := by
  induction bits generalizing s with
  | nil => exact Writes.nil () s
  | cons b bits ih => exact (writeBit_ends b s).bind fun _ t _ => ih t

/-- BW_WRITE_BITS within the widths that have a meaning (R72). -/
theorem writeBits_ends {n : Nat} (v : Nat) (s : State) (h : fieldWidthOk n = true) :
    Writes (fieldBits n v) s (writeBits n v s) := by
  rw [writeBits, if_pos h]
  exact writeBitList_ends _ s

/-- BW_WRITE_BYTE (R73). -/
theorem writeByte_ends (b : Byte) (s : State) : Writes (byteBits b) s (writeByte b s) := writeBits_ends _ _ rfl

/-- The bytes of E_PRIME_HISTORY (R97). -/
theorem writeBytes_ends (l : List Byte) (s : State) : Writes (bytesBits l) s (writeBytes l s) := by
  induction l generalizing s with
  | nil => exact Writes.nil () s
  | cons b l ih => exact (writeByte_ends b s).bind fun _ t _ => ih t

/-! ### PAD -/

/-- BW_PAD zero-fills to the byte boundary (R74): its loop writes exactly the zeros that are missing. -/
theorem padLoop_ends {k : Nat} {s : State} (hs : WriterOk s) (hk : (8 - s.writer.wcnt) % 8 ≤ k) :
    Writes (List.replicate ((8 - s.writer.wcnt) % 8) false) s (padLoop k s) := by
  induction k generalizing s with
  | zero =>
    have h0 : s.writer.wcnt = 0 := by have := hs.2; omega
    rw [h0]; exact Writes.nil () s
  | succ k ih =>
    rw [padLoop]
    split
    case isTrue h0 => rw [h0]; exact Writes.nil () s
    case isFalse h0 =>
      have hlt := hs.2
      have hlen := hs.1
      have hcnt : (8 - s.writer.wcnt) % 8 = 1 + (8 - (s.writer.wcnt + 1)) % 8 := by omega
      rw [hcnt, List.replicate_add]
      refine (writeBit_ends false s).bind fun _ t ht => ?_
      have hwt := ht.writer hs
      have hc : t.writer.wcnt = (s.writer.wcnt + 1) % 8 := by
        have hl := congrArg List.length ht.out
        simp only [outBits, List.length_append, bytesBits_length, List.length_cons, List.length_nil] at hl
        have := hwt.1; have := hwt.2
        omega
      have he : (8 - (s.writer.wcnt + 1)) % 8 = (8 - t.writer.wcnt) % 8 := by omega
      rw [he]
      exact ih hwt (by omega)

/-- After BW_PAD no bit is pending (R74). -/
theorem Wrote.padded {s t : State} (h : Wrote (List.replicate ((8 - s.writer.wcnt) % 8) false) s t) (hs : WriterOk s) :
    t.writer.wcnt = 0 := by
  have := h.counted hs
  rw [List.length_replicate] at this
  have := hs.2
  omega

theorem padToByte_ends {s : State} (hs : WriterOk s) :
    Writes (List.replicate ((8 - s.writer.wcnt) % 8) false) s (padToByte s) := padLoop_ends hs (by omega)

/-! ### The sink -/

/-- SnkFlush counts the flush, then goes on or raises (R43). -/
theorem snkFlush_ends (s : State) :
    (snkFlush s).Ends
      (fun _ t => ∃ r, t = s.setPorts { s.ports with snkFlushes := s.ports.snkFlushes + 1, snkAns := r })
      (fun t => ∃ r, t = raiseError .ioError
        (s.setPorts { s.ports with snkFlushes := s.ports.snkFlushes + 1, snkAns := r })) := by
  unfold snkFlush
  generalize snkPoll s.ports.snkAns = p
  obtain ⟨a, r⟩ := p
  cases a
  · exact ⟨r, rfl⟩
  · exact ⟨r, rfl⟩

/-- A flush the sink takes, or fails (R43). -/
theorem snkFlush_takes {s : State} {rest : List SnkAnswer} (h : SinkTakes s rest) :
    snkFlush s = .ok () (s.setPorts { s.ports with snkFlushes := s.ports.snkFlushes + 1, snkAns := rest }) := by
  obtain h | ⟨h, rfl⟩ := h <;> simp [snkFlush, snkPoll, h]

theorem snkFlush_fails {s : State} {rest : List SnkAnswer} (h : s.ports.snkAns = .fail :: rest) :
    snkFlush s = .raised (raiseError .ioError
      (s.setPorts { s.ports with snkFlushes := s.ports.snkFlushes + 1, snkAns := rest })) := by
  simp [snkFlush, snkPoll, h]

theorem SinkWilling.takes {s : State} (h : SinkWilling s) : ∃ rest, SinkTakes s rest := by
  cases hl : s.ports.snkAns with
  | nil => exact ⟨[], .inr ⟨hl, rfl⟩⟩
  | cons a r =>
    obtain rfl := h a (by rw [hl]; exact List.mem_cons_self)
    exact ⟨r, .inl hl⟩

/-- `write_all` appends all its bytes, or raises with some of them written (R42, R111). -/
theorem snkWriteAll_ends (l : List Byte) (s : State) :
    (snkWriteAll l s).Ends
      (fun _ t => OnlyWrote s t ∧ t.writer = s.writer ∧ t.ports.snk = s.ports.snk ++ l ∧ (SinkWilling s → SinkWilling t))
      (fun t => ∃ u, OnlyWrote s u ∧ u.writer = s.writer ∧ s.ports.snk <+: u.ports.snk ∧
        u.ports.snk <+: s.ports.snk ++ l ∧ t = raiseError .ioError u ∧ ¬ SinkWilling s) := by
  induction l generalizing s with
  | nil => exact ⟨rfl, rfl, by simp, id⟩
  | cons b l ih =>
    refine Res.Ends.bind (P := fun _ t => OnlyWrote s t ∧ t.writer = s.writer ∧ t.ports.snk = s.ports.snk ++ [b] ∧
      (SinkWilling s → SinkWilling t)) ((snkWrite_ends b s).mono (fun _ _ h => h) ?_) ?_
    · rintro t ⟨u, ho, hw, hs, rfl, hn⟩
      exact ⟨u, ho, hw, by rw [hs], by rw [hs]; exact List.prefix_append _ _, rfl, hn⟩
    · rintro - t ⟨ho, hw, hs, hv⟩
      refine (ih t).mono ?_ ?_
      · rintro - u ⟨ho', hw', hs', hv'⟩
        exact ⟨ho.trans ho', by rw [hw', hw], by rw [hs', hs]; simp, hv' ∘ hv⟩
      · rintro _ ⟨u, hu, hw', hq, hr, rfl, hn⟩
        rw [hs] at hq hr
        exact ⟨u, ho.trans hu, hw'.trans hw, (List.prefix_append _ _).trans hq, by simpa using hr, rfl, hn ∘ hv⟩

theorem snkWriteAll_willing (l : List Byte) {s : State} (h : SinkWilling s) :
    ∃ t, snkWriteAll l s = .ok () t ∧ OnlyWrote s t ∧ t.writer = s.writer ∧ t.ports.snk = s.ports.snk ++ l ∧
      SinkWilling t := by
  have := snkWriteAll_ends l s
  cases hx : snkWriteAll l s with
  | ok a t => rw [hx] at this; exact ⟨t, rfl, this.1, this.2.1, this.2.2.1, this.2.2.2 h⟩
  | raised t => rw [hx] at this; obtain ⟨_, _, _, _, _, _, hn⟩ := this; exact absurd h hn
  | refused r => rw [hx] at this; exact this.elim

/-- `write_all` and the sink's coming answers: the first failure raises with the bytes before it written (R42, R111). -/
theorem snkWriteAll_takes {l : List Byte} {s : State} {rest : List SnkAnswer}
    (h : s.ports.snkAns = List.replicate l.length .ok ++ rest) :
    snkWriteAll l s = .ok () (s.setPorts { s.ports with snk := s.ports.snk ++ l, snkAns := rest }) := by
  induction l generalizing s with
  | nil => rw [List.append_nil, ← show s.ports.snkAns = rest from h]; rfl
  | cons b l ih => rw [snkWriteAll, snkWrite_takes (.inl h), Res.bind_ok, ih rfl]; simp

theorem snkWriteAll_fails {l : List Byte} {s : State} {k : Nat} {rest : List SnkAnswer}
    (h : s.ports.snkAns = List.replicate k .ok ++ .fail :: rest) (hk : k < l.length) :
    snkWriteAll l s = .raised (raiseError .ioError
      (s.setPorts { s.ports with snk := s.ports.snk ++ l.take k, snkAns := rest })) := by
  induction l generalizing s k with
  | nil => exact absurd hk (Nat.not_lt_zero k)
  | cons b l ih =>
    cases k with
    | zero => rw [snkWriteAll, snkWrite_fails h, Res.bind_raised, List.take_zero, List.append_nil]
    | succ k =>
      rw [snkWriteAll, snkWrite_takes (.inl h), Res.bind_ok, ih rfl (Nat.lt_of_succ_lt_succ hk)]; simp

/-! ## Reading -/

/-- `OnlyRead` with the three changed parts named, for substitution. -/
theorem OnlyRead.parts {s t : State} (h : OnlyRead s t) : ∃ r p e,
    t = ((s.setReader r).setPorts { s.ports with src := p }).setSrcEof e := ⟨_, _, _, h⟩

/-- Reading, a header field, reading again: all of it reading, but for the header. -/
theorem OnlyRead.thenHdr {s t u : State} {x : HeaderRegs} (h : OnlyRead s t) (k : OnlyRead (t.setHdr x) u) :
    OnlyRead s (u.setHdr s.hdr) := by
  obtain ⟨r, p, e, ht⟩ := h.parts
  obtain ⟨r', p', e', hu⟩ := k.parts
  simp only [OnlyRead, hu, ht, State.setReader, State.setPorts, State.setSrcEof, State.setHdr]

/-- Reading, a record field, reading again: all of it reading, but for the record. -/
theorem OnlyRead.thenRecord {s t u : State} {x : RecordRegs} (h : OnlyRead s t) (k : OnlyRead (t.setRecord x) u) :
    OnlyRead s (u.setRecord s.record) := by
  obtain ⟨r, p, e, ht⟩ := h.parts
  obtain ⟨r', p', e', hu⟩ := k.parts
  simp only [OnlyRead, hu, ht, State.setReader, State.setPorts, State.setSrcEof, State.setRecord]

theorem OnlyRead.record {s t : State} (h : OnlyRead s t) : t.record = s.record := by rw [h]; rfl
theorem OnlyRead.params {s t : State} (h : OnlyRead s t) : t.params = s.params := by rw [h]; rfl
theorem OnlyRead.mem {s t : State} (h : OnlyRead s t) : t.mem = s.mem := by rw [h]; rfl
theorem OnlyRead.search {s t : State} (h : OnlyRead s t) : t.search = s.search := by rw [h]; rfl
theorem OnlyRead.ctl {s t : State} (h : OnlyRead s t) : t.ctl = s.ctl := by rw [h]; rfl
theorem OnlyRead.err {s t : State} (h : OnlyRead s t) : t.err = s.err := by rw [h]; rfl
theorem OnlyRead.cleanEnd {s t : State} (h : OnlyRead s t) : t.cleanEnd = s.cleanEnd := by rw [h]; rfl
theorem OnlyRead.writer {s t : State} (h : OnlyRead s t) : t.writer = s.writer := by rw [h]; rfl
theorem OnlyRead.cfg {s t : State} (h : OnlyRead s t) : t.cfg = s.cfg := by rw [h]; rfl
theorem OnlyRead.hdr {s t : State} (h : OnlyRead s t) : t.hdr = s.hdr := by rw [h]; rfl
theorem OnlyRead.host {s t : State} (h : OnlyRead s t) : t.host = s.host := by rw [h]; rfl
theorem OnlyRead.snk {s t : State} (h : OnlyRead s t) : t.ports.snk = s.ports.snk := by rw [h]; rfl
theorem OnlyRead.snkAns {s t : State} (h : OnlyRead s t) : t.ports.snkAns = s.ports.snkAns := by rw [h]; rfl
theorem OnlyRead.willing {s t : State} (h : OnlyRead s t) (w : SinkWilling s) : SinkWilling t := by
  unfold SinkWilling; rw [h.snkAns]; exact w

/-- The bits at hand, then the bits of the bytes to come (R29, R41). -/
theorem wireBits_eq (s : State) :
    wireBits s = (s.reader.racc ++ bytesBits (sourceComing s).1, (sourceComing s).2) := by
  unfold wireBits sourceComing
  cases s.srcEof <;> simp

theorem Took.refl (s : State) : Took 0 s s := ⟨rfl, rfl, rfl, id, fun _ => .inr rfl⟩

theorem Took.trans {m n : Nat} {s t u : State} (h : Took m s t) (k : Took n t u) : Took (m + n) s u :=
  ⟨h.only.trans k.only, by rw [k.wire, h.wire, List.drop_drop], by rw [k.count, h.count, Nat.add_assoc],
    fun r => k.reader (h.reader r), fun r => (k.lazy (h.reader r)).elim .inl fun e => by rw [e]; exact h.lazy r⟩

@[simp] theorem wireBits_setHdr (s : State) (x : HeaderRegs) : wireBits (s.setHdr x) = wireBits s := rfl
@[simp] theorem wireBits_setRecord (s : State) (x : RecordRegs) : wireBits (s.setRecord x) = wireBits s := rfl

/-- Two takes with a header field written between them. -/
theorem Took.thenHdr {m n : Nat} {s t u : State} {x : HeaderRegs} (h : Took m s t) (k : Took n (t.setHdr x) u) :
    Took (m + n) s (u.setHdr s.hdr) :=
  ⟨h.only.thenHdr k.only, by rw [wireBits_setHdr, k.wire, wireBits_setHdr, h.wire, List.drop_drop],
    by rw [State.setHdr_reader, k.count, State.setHdr_reader, h.count, Nat.add_assoc], fun r => k.reader (h.reader r),
    fun r => (k.lazy (h.reader r)).elim .inl fun e => by rw [State.setHdr_reader, e]; exact h.lazy r⟩

/-- Two takes with a record field written between them. -/
theorem Took.thenRecord {m n : Nat} {s t u : State} {x : RecordRegs} (h : Took m s t) (k : Took n (t.setRecord x) u) :
    Took (m + n) s (u.setRecord s.record) :=
  ⟨h.only.thenRecord k.only, by rw [wireBits_setRecord, k.wire, wireBits_setRecord, h.wire, List.drop_drop],
    by rw [State.setRecord_reader, k.count, State.setRecord_reader, h.count, Nat.add_assoc], fun r => k.reader (h.reader r),
    fun r => (k.lazy (h.reader r)).elim .inl fun e => by rw [State.setRecord_reader, e]; exact h.lazy r⟩

/-- A bit taken from bits at hand (R76). -/
theorem takeBit_took {s t : State} {b : Bool} {bs rest : Bits} {e : Bool} (hst : OnlyRead s t)
    (hw : wireBits s = (b :: bs ++ rest, e)) (hc : (sourceComing t).2 = e)
    (hr : bytesBits (sourceComing t).1 = rest) (hn : t.reader.bitsRead = s.reader.bitsRead)
    (hl : ReaderOk s → bs.length < 8) : ∃ u, takeBit (b :: bs) t = .ok (some b) u ∧ Took 1 s u := by
  refine ⟨_, rfl, hst.trans ?_, ?_, by simp [hn], fun ok => ⟨rfl, Nat.le_of_lt (hl ok)⟩, fun ok => .inl (hl ok)⟩
  · simp [OnlyRead, State.setReader, State.setPorts, State.setSrcEof]
  · have hsc : ∀ x, sourceComing (t.setReader x) = sourceComing t := fun _ => rfl
    rw [wireBits_eq, hsc, hw, hr, hc]; simp

/-- BR_READ_BIT (R76): the next stream bit, or Eof(0) at the end, or IOError where the source fails. -/
theorem readBit_cases (s : State) :
    (∃ b bs e t, wireBits s = (b :: bs, e) ∧ readBit s = .ok (some b) t ∧ Took 1 s t) ∨
      (∃ t, wireBits s = ([], true) ∧ readBit s = .ok none t ∧ Took 0 s t ∧ t.srcEof = true) ∨
      ∃ u, wireBits s = ([], false) ∧ readBit s = .raised (raiseError .ioError u) ∧ OnlyRead s u ∧
        u.reader = s.reader := by
  cases h : s.reader.racc with
  | cons b bs =>
    have hw : wireBits s = (b :: bs ++ bytesBits (sourceComing s).1, (sourceComing s).2) := by rw [wireBits_eq, h]
    obtain ⟨u, hu, ht⟩ := takeBit_took (OnlyRead.refl s) hw rfl rfl rfl fun ok => by
      have := ok.1; have := ok.2; rw [h, List.length_cons] at *; omega
    exact .inl ⟨b, _, _, u, hw, by rw [readBit, h]; exact hu, ht⟩
  | nil =>
    have hw := wireBits_eq s
    rw [h, List.nil_append] at hw
    obtain ⟨b, bs, e, t, h1, h2, h3, ho, hr, -, -⟩ | ⟨t, h1, h2, h3, ho, hr, he⟩ | ⟨t, h1, h2, ho, hr, -, -⟩ :=
      srcRead_cases s
    · have hb : byteBits b = (b.toNat / 2 ^ 7 % 2 == 1) :: fieldBits 7 b.toNat := rfl
      rw [h1, bytesBits_cons, hb] at hw
      obtain ⟨u, hu, ht⟩ := takeBit_took ho hw (by rw [h3]) (by rw [h3]) (by rw [hr]) (fun _ => by simp)
      exact .inl ⟨_, _, e, u, hw, by rw [readBit, h]; simp only [h2]; rw [hb]; exact hu, ht⟩
    · rw [h1] at hw
      refine .inr (.inl ⟨t, hw, by rw [readBit, h]; simp only [h2], ⟨ho, ?_, by rw [hr]; rfl, ?_, fun _ => .inr hr⟩, he⟩)
      · rw [wireBits_eq t, h3, hr, h, hw]; rfl
      · intro ok; rw [ReaderOk, hr]; exact ok
    · rw [h1] at hw
      exact .inr (.inr ⟨t, hw, by rw [readBit, h]; simp only [h2]; rfl, ho, hr⟩)

/-- BR_READ_BIT where the next stream bit is known (R76). -/
theorem readBit_cons {s : State} {b : Bool} {bs : Bits} {e : Bool} (h : wireBits s = (b :: bs, e)) :
    ∃ t, readBit s = .ok (some b) t ∧ Took 1 s t := by
  obtain ⟨b', bs', e', t, h1, h2, h3⟩ | ⟨t, h1, -⟩ | ⟨t, h1, -⟩ := readBit_cases s
  · rw [h] at h1
    simp only [Prod.mk.injEq, List.cons.injEq] at h1
    obtain ⟨⟨rfl, rfl⟩, rfl⟩ := h1
    exact ⟨t, h2, h3⟩
  · rw [h] at h1; cases h1
  · rw [h] at h1; cases h1

/-- The loop of BR_READ_BITS when the bits are there (R77). -/
theorem readBitsFrom_val {n : Nat} {s : State} (k v : Nat) (hn : n ≤ (wireBits s).1.length) :
    ∃ t, readBitsFrom n k v s = .ok (.val (fieldValFrom v ((wireBits s).1.take n))) t ∧ Took n s t := by
  induction n generalizing s k v with
  | zero => exact ⟨s, by simp [readBitsFrom, fieldValFrom], Took.refl s⟩
  | succ n ih =>
    obtain ⟨b, bs, e, t, hw, hb, ht⟩ | ⟨t, hw, -⟩ | ⟨u, hw, -⟩ := readBit_cases s
    · have hwt : (wireBits t).1 = bs := by rw [ht.wire, hw]; rfl
      rw [hw, List.length_cons] at hn
      obtain ⟨u, hu, htu⟩ := ih (k + 1) (2 * v + b.toNat) (by rw [hwt]; omega)
      refine ⟨u, ?_, by rw [Nat.add_comm]; exact ht.trans htu⟩
      rw [readBitsFrom, hb, Res.bind_ok, hw]
      simp only [List.take_succ_cons, fieldValFrom]
      rw [hu, hwt]
    · rw [hw] at hn; simp at hn
    · rw [hw] at hn; simp at hn

/-- The loop of BR_READ_BITS when the source ends first (R77): the bits there are taken and lost. -/
theorem readBitsFrom_eof {n : Nat} {s : State} (k v : Nat) (hn : (wireBits s).1.length < n) (he : (wireBits s).2 = true) :
    ∃ t, readBitsFrom n k v s = .ok (.eof (k + (wireBits s).1.length)) t ∧ Took (wireBits s).1.length s t ∧
      t.srcEof = true := by
  induction n generalizing s k v with
  | zero => omega
  | succ n ih =>
    obtain ⟨b, bs, e, t, hw, hb, ht⟩ | ⟨t, hw, hb, ht, hs⟩ | ⟨u, hw, -⟩ := readBit_cases s
    · have hwt : wireBits t = (bs, e) := by rw [ht.wire, hw]; rfl
      rw [hw] at hn he
      simp only [List.length_cons] at hn
      obtain ⟨u, hu, htu, hs⟩ := ih (s := t) (k + 1) (2 * v + b.toNat) (by rw [hwt]; simp only; omega) (by rw [hwt]; exact he)
      rw [hwt] at hu htu
      refine ⟨u, ?_, ?_, hs⟩
      · rw [readBitsFrom, hb, Res.bind_ok, hw]
        simp only [List.length_cons]
        rw [hu, Nat.add_assoc, Nat.add_comm 1]
      · rw [hw, List.length_cons, Nat.add_comm]; exact ht.trans htu
    · refine ⟨t, ?_, by rw [hw]; exact ht, hs⟩
      rw [readBitsFrom, hb, Res.bind_ok, hw]; simp
    · rw [hw] at he; simp at he

/-- The loop of BR_READ_BITS when the source fails first (R77, R120). -/
theorem readBitsFrom_fail {n : Nat} {s : State} (k v : Nat) (hn : (wireBits s).1.length < n)
    (he : (wireBits s).2 = false) :
    ∃ u, readBitsFrom n k v s = .raised (raiseError .ioError u) ∧ OnlyRead s u ∧
      u.reader.bitsRead = s.reader.bitsRead + (wireBits s).1.length := by
  induction n generalizing s k v with
  | zero => omega
  | succ n ih =>
    obtain ⟨b, bs, e, t, hw, hb, ht⟩ | ⟨t, hw, hb, ht, hs⟩ | ⟨u, hw, hb, ho, hr⟩ := readBit_cases s
    · have hwt : wireBits t = (bs, e) := by rw [ht.wire, hw]; rfl
      rw [hw] at hn he
      simp only [List.length_cons] at hn
      obtain ⟨u, hu, htu, hs⟩ := ih (s := t) (k + 1) (2 * v + b.toNat) (by rw [hwt]; simp only; omega) (by rw [hwt]; exact he)
      refine ⟨u, ?_, ht.only.trans htu, ?_⟩
      · rw [readBitsFrom, hb, Res.bind_ok]; simp only; rw [hu]
      · rw [hs, ht.count, hwt, hw]; simp only [List.length_cons]; omega
    · rw [hw] at he; simp at he
    · refine ⟨u, ?_, ho, by rw [hr, hw]; rfl⟩
      rw [readBitsFrom, hb, Res.bind_raised]

/-- BR_READ_BITS in its three outcomes (R77). -/
theorem readBits_val {n : Nat} {s : State} (h : fieldWidthOk n = true) (hn : n ≤ (wireBits s).1.length) :
    ∃ t, readBits n s = .ok (.val (fieldVal ((wireBits s).1.take n))) t ∧ Took n s t := by
  rw [readBits, if_pos h]; exact readBitsFrom_val 0 0 hn

theorem readBits_eof {n : Nat} {s : State} (h : fieldWidthOk n = true) (hn : (wireBits s).1.length < n)
    (he : (wireBits s).2 = true) :
    ∃ t, readBits n s = .ok (.eof (wireBits s).1.length) t ∧ Took (wireBits s).1.length s t ∧ t.srcEof = true := by
  rw [readBits, if_pos h]; simpa using readBitsFrom_eof 0 0 hn he

theorem readBits_fail {n : Nat} {s : State} (h : fieldWidthOk n = true) (hn : (wireBits s).1.length < n)
    (he : (wireBits s).2 = false) :
    ∃ u, readBits n s = .raised (raiseError .ioError u) ∧ OnlyRead s u ∧
      u.reader.bitsRead = s.reader.bitsRead + (wireBits s).1.length := by
  rw [readBits, if_pos h]; exact readBitsFrom_fail 0 0 hn he

/-- What a read leaves, whatever it answers: the value fits the field, only reading has happened (R77). -/
theorem readBits_ends {n : Nat} (s : State) (h : fieldWidthOk n = true) :
    (readBits n s).Ends
      (fun r t => OnlyRead s t ∧ (ReaderOk s → ReaderOk t) ∧ ∀ v, r = .val v → v < 2 ^ n) (RaisedReading .ioError s) := by
  by_cases hn : n ≤ (wireBits s).1.length
  · obtain ⟨t, ht, hk⟩ := readBits_val h hn
    rw [ht]
    refine ⟨hk.only, hk.reader, ?_⟩
    rintro v ⟨⟩
    simpa [List.length_take, Nat.min_eq_left hn] using fieldVal_lt ((wireBits s).1.take n)
  · cases he : (wireBits s).2 with
    | true =>
      obtain ⟨t, ht, hk, -⟩ := readBits_eof h (by omega) he
      rw [ht]; exact ⟨hk.only, hk.reader, by simp⟩
    | false =>
      obtain ⟨u, hu, ho, -⟩ := readBits_fail h (by omega) he
      rw [hu]; exact ⟨u, ho, rfl⟩

theorem readBit_ends (s : State) :
    (readBit s).Ends (fun _ t => OnlyRead s t ∧ (ReaderOk s → ReaderOk t)) (RaisedReading .ioError s) := by
  obtain ⟨b, bs, e, t, hw, hb, ht⟩ | ⟨t, hw, hb, ht, hs⟩ | ⟨u, hw, hb, ho, hr⟩ := readBit_cases s
  · rw [hb]; exact ⟨ht.only, ht.reader⟩
  · rw [hb]; exact ⟨ht.only, ht.reader⟩
  · rw [hb]; exact ⟨u, ho, rfl⟩

end Sys2Proof.Machine
end

