-- ==== Sys2Proof/Laws/Blind.lean ====
section
/-! SUPPORT. Changes of the state that the operations cannot see: an operation run on the changed state does the same, and ends
in the changed state.  Used for the configuration registers and for the source's "interrupted" answers. -/

namespace Sys2Proof.Machine

/-- An operation's ending, with its state changed by `f`. -/
def Res.map {α : Type} (f : State → State) : Res α → Res α
  | .ok a s => .ok a (f s)
  | .raised s => .raised (f s)
  | .refused r => .refused r

@[simp] theorem Res.map_ok {α : Type} (f : State → State) (a : α) (s : State) : (Res.ok a s).map f = .ok a (f s) := rfl
@[simp] theorem Res.map_raised {α : Type} (f : State → State) (s : State) :
    (Res.raised s : Res α).map f = .raised (f s) := rfl
@[simp] theorem Res.map_refused {α : Type} (f : State → State) (r : Refusal) :
    (Res.refused r : Res α).map f = .refused r := rfl

/-- `f` changes nothing that an operation other than E_SETUP and the host's reads. -/
structure Blind (f : State → State) : Prop where
  hdr : ∀ s, (f s).hdr = s.hdr
  ctl : ∀ s, (f s).ctl = s.ctl
  params : ∀ s, (f s).params = s.params
  record : ∀ s, (f s).record = s.record
  search : ∀ s, (f s).search = s.search
  mem : ∀ s, (f s).mem = s.mem
  writer : ∀ s, (f s).writer = s.writer
  reader : ∀ s, (f s).reader = s.reader
  srcEof : ∀ s, (f s).srcEof = s.srcEof
  freeCount : ∀ s, (f s).freeCount = s.freeCount
  snk : ∀ s, (f s).ports.snk = s.ports.snk
  snkAns : ∀ s, (f s).ports.snkAns = s.ports.snkAns
  snkFlushes : ∀ s, (f s).ports.snkFlushes = s.ports.snkFlushes
  setHdr : ∀ s x, (f s).setHdr x = f (s.setHdr x)
  setCtl : ∀ s x, (f s).setCtl x = f (s.setCtl x)
  setErr : ∀ s x, (f s).setErr x = f (s.setErr x)
  setCleanEnd : ∀ s x, (f s).setCleanEnd x = f (s.setCleanEnd x)
  setParams : ∀ s x, (f s).setParams x = f (s.setParams x)
  setRecord : ∀ s x, (f s).setRecord x = f (s.setRecord x)
  setSearch : ∀ s x, (f s).setSearch x = f (s.setSearch x)
  setMem : ∀ s x, (f s).setMem x = f (s.setMem x)
  setWriter : ∀ s x, (f s).setWriter x = f (s.setWriter x)
  setReader : ∀ s x, (f s).setReader x = f (s.setReader x)
  setOpResult : ∀ s x, (f s).setOpResult x = f (s.setOpResult x)
  setFreeCount : ∀ s x, (f s).setFreeCount x = f (s.setFreeCount x)
  setSink : ∀ s a b c, (f s).setPorts { (f s).ports with snk := a, snkFlushes := b, snkAns := c } =
    f (s.setPorts { s.ports with snk := a, snkFlushes := b, snkAns := c })
  src : ∀ s, srcRead (f s) = ((srcRead s).1, f (srcRead s).2)

theorem Blind.bind {f : State → State} (_ : Blind f) {α β : Type} {x y : Res α} {g k : α → State → Res β} (hx : y = x.map f)
    (hg : ∀ a t, k a (f t) = (g a t).map f) : y.bind k = (x.bind g).map f := by
  subst hx
  cases x with
  | ok a t => exact hg a t
  | raised t => rfl
  | refused r => rfl

section
variable {f : State → State} (hf : Blind f)
include hf

theorem Blind.discard (s : State) : discard (f s) = f (discard s) := by
  simp only [Machine.discard, hf.freeCount, hf.reader, hf.setMem, hf.setParams, hf.setReader, hf.setFreeCount]

theorem Blind.raiseError (e : ErrorClass) (s : State) : raiseError e (f s) = f (raiseError e s) := by
  simp only [Machine.raiseError, hf.writer, hf.setErr, hf.setCtl, hf.setWriter, hf.discard]

theorem Blind.raising {α : Type} (e : ErrorClass) (s : State) :
    (raising e (f s) : Res α) = (raising e s).map f := by
  simp only [raising_eq, Res.map_raised, hf.raiseError]

theorem Blind.enterDone (s : State) : enterDone (f s) = f (enterDone s) := by
  simp only [Machine.enterDone, hf.setCtl, hf.discard]

theorem Blind.snkWrite (b : Byte) (s : State) : snkWrite b (f s) = (snkWrite b s).map f := by
  have h := fun a c => hf.setSink s a s.ports.snkFlushes c
  unfold Machine.snkWrite
  rw [hf.snkAns, hf.snk]
  have e1 : ∀ a c, { (f s).ports with snk := a, snkAns := c } =
      ({ (f s).ports with snk := a, snkFlushes := s.ports.snkFlushes, snkAns := c } : Ports) := fun a c => by
    rw [← hf.snkFlushes]
  have e2 : ∀ c, { (f s).ports with snkAns := c } =
      ({ (f s).ports with snk := s.ports.snk, snkFlushes := s.ports.snkFlushes, snkAns := c } : Ports) := fun c => by
    rw [← hf.snkFlushes, ← hf.snk]
  obtain ⟨r, hr, -⟩ | ⟨r, hr, -⟩ := snkPoll_cases s.ports.snkAns <;> rw [hr] <;> simp only
  · rw [e1, h]; rfl
  · rw [e2, h, hf.raising]

theorem Blind.snkFlush (s : State) : snkFlush (f s) = (snkFlush s).map f := by
  have h := fun a c => hf.setSink s s.ports.snk a c
  unfold Machine.snkFlush
  rw [hf.snkAns, hf.snkFlushes]
  have e1 : ∀ a c, { (f s).ports with snkFlushes := a, snkAns := c } =
      ({ (f s).ports with snk := s.ports.snk, snkFlushes := a, snkAns := c } : Ports) := fun a c => by
    rw [← hf.snk]
  obtain ⟨r, hr, -⟩ | ⟨r, hr, -⟩ := snkPoll_cases s.ports.snkAns <;> rw [hr] <;> simp only
  · rw [e1, h]; rfl
  · rw [e1, h, hf.raising]

theorem Blind.snkWriteAll (l : List Byte) (s : State) : snkWriteAll l (f s) = (snkWriteAll l s).map f := by
  induction l generalizing s with
  | nil => rfl
  | cons b l ih => exact hf.bind (hf.snkWrite b s) fun _ t => ih t

theorem Blind.writeBit (b : Bool) (s : State) : writeBit b (f s) = (writeBit b s).map f := by
  unfold Machine.writeBit
  rw [hf.writer]
  split
  · rw [hf.setWriter, hf.snkWrite]
  · rw [hf.setWriter]; rfl

theorem Blind.writeBitList (l : Bits) (s : State) : writeBitList l (f s) = (writeBitList l s).map f := by
  induction l generalizing s with
  | nil => rfl
  | cons b l ih => exact hf.bind (hf.writeBit b s) fun _ t => ih t

theorem Blind.writeBits (n v : Nat) (s : State) : writeBits n v (f s) = (writeBits n v s).map f := by
  unfold Machine.writeBits
  split
  · exact hf.writeBitList _ s
  · rfl

theorem Blind.writeByte (b : Byte) (s : State) : writeByte b (f s) = (writeByte b s).map f := hf.writeBits _ _ s

theorem Blind.writeBytes (l : List Byte) (s : State) : writeBytes l (f s) = (writeBytes l s).map f := by
  induction l generalizing s with
  | nil => rfl
  | cons b l ih => exact hf.bind (hf.writeByte b s) fun _ t => ih t

theorem Blind.padToByte (s : State) : padToByte (f s) = (padToByte s).map f := by
  suffices ∀ k s, padLoop k (f s) = (padLoop k s).map f from this 8 s
  intro k
  induction k with
  | zero => intro s; rfl
  | succ k ih =>
    intro s
    rw [padLoop, padLoop, hf.writer]
    split
    · rfl
    · exact hf.bind (hf.writeBit false s) fun _ t => ih t

theorem Blind.takeBit (l : Bits) (s : State) : takeBit l (f s) = (takeBit l s).map f := by
  cases l with
  | nil => rfl
  | cons b l => unfold Machine.takeBit; simp only; rw [hf.setReader, hf.reader]; rfl

theorem Blind.readBit (s : State) : readBit (f s) = (readBit s).map f := by
  unfold Machine.readBit
  rw [hf.reader, hf.src]
  cases s.reader.racc with
  | cons b l => exact hf.takeBit _ s
  | nil =>
    cases h : srcRead s with
    | mk o t =>
      cases o with
      | byte b => exact hf.takeBit _ t
      | eof => rfl
      | fail => exact hf.raising _ t

theorem Blind.readBits (n : Nat) (s : State) : readBits n (f s) = (readBits n s).map f := by
  suffices ∀ n k v s, readBitsFrom n k v (f s) = (readBitsFrom n k v s).map f by
    unfold Machine.readBits
    split
    · exact this n 0 0 s
    · rfl
  intro n
  induction n with
  | zero => intro k v s; rfl
  | succ n ih =>
    intro k v s
    refine hf.bind (hf.readBit s) fun r t => ?_
    cases r with
    | none => rfl
    | some b => exact ih _ _ t

theorem Blind.fillBuffer (n : Nat) (s : State) : fillBuffer n (f s) = (fillBuffer n s).map f := by
  induction n generalizing s with
  | zero => rfl
  | succ n ih =>
    rw [Machine.fillBuffer, Machine.fillBuffer, hf.src]
    cases h : srcRead s with
    | mk o t =>
      cases o with
      | byte b =>
        have : appendByte b (f t) = f (appendByte b t) := by unfold appendByte; rw [hf.mem, hf.setMem]
        simp only
        rw [this]; exact ih _
      | eof => exact hf.raising _ t
      | fail => exact hf.raising _ t

theorem Blind.constructReader (s : State) : constructReader (f s) = (constructReader s).map f := by
  unfold Machine.constructReader
  rw [hf.mem, hf.srcEof, hf.params]
  split
  · refine hf.bind (hf.fillBuffer _ s) fun _ t => ?_
    rw [hf.setMem, hf.mem, hf.params]; rfl
  · rfl

theorem Blind.refillWindow (n k : Nat) (s : State) : refillWindow n k (f s) = (refillWindow n k s).map f := by
  induction n generalizing k s with
  | zero => rfl
  | succ n ih =>
    rw [Machine.refillWindow, Machine.refillWindow, hf.src]
    cases h : srcRead s with
    | mk o t =>
      cases o with
      | byte b =>
        have : appendByte b (f t) = f (appendByte b t) := by unfold appendByte; rw [hf.mem, hf.setMem]
        simp only
        rw [this]; exact ih _ _
      | eof => rfl
      | fail => exact hf.raising _ t

theorem Blind.advanceReader (m : Nat) (s : State) : advanceReader m (f s) = (advanceReader m s).map f := by
  unfold Machine.advanceReader
  rw [hf.mem]
  split
  · refine hf.bind (hf.refillWindow _ _ s) fun k t => ?_
    rw [hf.setMem, hf.mem, hf.params]; rfl
  · rfl

theorem Blind.pushHistory (seg : List Byte) (s : State) : pushHistory seg (f s) = f (pushHistory seg s) := by
  unfold Machine.pushHistory
  rw [hf.mem, hf.params, hf.setMem]

end

/-- The configuration is not seen (R20). -/
theorem blind_setCfg (c : HostRegs) : Blind (fun s => s.setCfg c) := by
  refine ⟨?_, ?_, ?_, ?_, ?_, ?_, ?_, ?_, ?_, ?_, ?_, ?_, ?_, ?_, ?_, ?_, ?_, ?_, ?_, ?_, ?_, ?_, ?_, ?_, ?_, ?_, ?_⟩ <;>
    intros <;> try rfl
  rename_i s
  have hp : (s.setCfg c).ports.src = s.ports.src := rfl
  have he : (s.setCfg c).srcEof = s.srcEof := rfl
  unfold srcRead
  simp only [hp, he]
  cases s.srcEof with
  | true => rfl
  | false =>
    simp only [Bool.false_eq_true, if_false]
    generalize srcPoll s.ports.src = p
    obtain ⟨o, r⟩ := p
    cases o <;> rfl

/-- "Interrupted" answers are not seen (R41, R127). -/
theorem srcPoll_quiet (l : List SrcAnswer) :
    srcPoll (l.filter fun a => a != .interrupted) =
      ((srcPoll l).1, (srcPoll l).2.filter fun a => a != .interrupted) := by
  induction l with
  | nil => rfl
  | cons a l ih => cases a <;> simp [srcPoll, ih]

theorem blind_quiet : Blind quiet := by
  refine ⟨?_, ?_, ?_, ?_, ?_, ?_, ?_, ?_, ?_, ?_, ?_, ?_, ?_, ?_, ?_, ?_, ?_, ?_, ?_, ?_, ?_, ?_, ?_, ?_, ?_, ?_, ?_⟩ <;>
    intros <;> try rfl
  rename_i s
  have hp : (quiet s).ports.src = s.ports.src.filter fun a => a != .interrupted := rfl
  have he : (quiet s).srcEof = s.srcEof := rfl
  unfold srcRead
  rw [he, hp, srcPoll_quiet]
  cases s.srcEof with
  | true => rfl
  | false =>
    simp only [Bool.false_eq_true, if_false]
    generalize srcPoll s.ports.src = p
    obtain ⟨o, r⟩ := p
    cases o <;> rfl

end Sys2Proof.Machine
end

