-- ==== Sys2Proof/Laws/Window.lean ====
section
/-! SUPPORT. What the sliding-buffer operations do to the two views, once for each; every one keeps `Memory.wf`. -/

namespace Sys2Proof.Machine

/-! ## The views -/

@[simp] theorem Memory.hist_length {m : Memory} (h : m.wf) : m.hist.length = m.hlen := by
  have : m.buf.length = m.hlen + m.wlen := h
  simp only [Memory.hist, List.length_take]; omega

@[simp] theorem Memory.win_length {m : Memory} (h : m.wf) : m.win.length = m.wlen := by
  have : m.buf.length = m.hlen + m.wlen := h
  simp only [Memory.win, List.length_take, List.length_drop]; omega

/-- BUF is the history followed by the window (R26, R27). -/
theorem Memory.buf_eq {m : Memory} (h : m.wf) : m.buf = m.hist ++ m.win := by
  have hl : m.buf.length = m.hlen + m.wlen := h
  rw [Memory.hist, Memory.win, List.take_of_length_le (l := m.buf.drop m.hlen) (by simp; omega),
    List.take_append_drop]

/-- Two well-formed buffers with the same views and capacity are the same data. -/
theorem Memory.ext_views {m n : Memory} (hm : m.wf) (hn : n.wf) (h : m.hist = n.hist) (w : m.win = n.win)
    (c : m.wcap = n.wcap) : m = n := by
  refine Memory.ext ?_ ?_ ?_ c
  · rw [Memory.buf_eq hm, Memory.buf_eq hn, h, w]
  · rw [← Memory.hist_length hm, ← Memory.hist_length hn, h]
  · rw [← Memory.win_length hm, ← Memory.win_length hn, w]

/-- The views of a buffer written as history and window. -/
theorem Memory.views_mk (x y : List Byte) (c : Nat) :
    (Memory.mk (x ++ y) x.length y.length c).hist = x ∧ (Memory.mk (x ++ y) x.length y.length c).win = y := by
  simp [Memory.hist, Memory.win]

theorem reset_mem_wf : State.reset.mem.wf := by decide

/-! ## Eviction and push -/

/-- Eviction keeps the form, drops the oldest bytes beyond the capacity and leaves the window alone (R54, R80, R82). -/
theorem Memory.evict_spec {m : Memory} (h : m.wf) (cap : Nat) :
    (m.evict cap).wf ∧ (m.evict cap).hist = m.hist.drop (m.hlen - cap) ∧ (m.evict cap).win = m.win ∧
      (m.evict cap).hlen = min cap m.hlen ∧ (m.evict cap).wlen = m.wlen ∧ (m.evict cap).wcap = m.wcap := by
  have hl : m.buf.length = m.hlen + m.wlen := h
  refine ⟨?_, ?_, ?_, ?_, rfl, rfl⟩
  · simp only [Memory.wf, Memory.evict, List.length_drop]; omega
  · simp only [Memory.hist, Memory.evict, List.drop_take]
  · simp only [Memory.win, Memory.evict, List.drop_drop]
    congr 2; omega
  · simp only [Memory.evict]; omega

/-- HistPush with an empty window (R80). -/
theorem Memory.push_spec {m : Memory} (h : m.wf) (hw : m.wlen = 0) (seg : List Byte) (cap : Nat) :
    (m.push seg cap).wf ∧ (m.push seg cap).hist = (m.hist ++ seg).drop (m.hlen + seg.length - cap) ∧
      (m.push seg cap).win = [] ∧ (m.push seg cap).hlen = min cap (m.hlen + seg.length) ∧ (m.push seg cap).wlen = 0 ∧
      (m.push seg cap).wcap = m.wcap := by
  have hl : m.buf.length = m.hlen + m.wlen := h
  have hwf : Memory.wf { m with buf := m.buf ++ seg, hlen := m.hlen + seg.length } := by
    simp only [Memory.wf, List.length_append]; omega
  obtain ⟨h1, h2, h3, h4, h5, h6⟩ := Memory.evict_spec hwf cap
  refine ⟨h1, ?_, ?_, h4, h5.trans hw, h6⟩
  · rw [Memory.push, h2]
    have : m.buf.take m.hlen = m.buf := List.take_of_length_le (by omega)
    simp only [Memory.hist, this]
    rw [List.take_of_length_le (by simp; omega)]
  · rw [Memory.push, h3]; simp [Memory.win, hw]

/-- HistPush keeps the form whatever the window holds (R27, R80). -/
theorem Memory.push_wf {m : Memory} (h : m.wf) (seg : List Byte) (cap : Nat) : (m.push seg cap).wf := by
  have hl : m.buf.length = m.hlen + m.wlen := h
  refine (Memory.evict_spec (m := { m with buf := m.buf ++ seg, hlen := m.hlen + seg.length }) ?_ cap).1
  simp only [Memory.wf, List.length_append]; omega

/-- SWR_NEXT's registers, before the eviction (R82): `m` bytes move from window to history, `k` new ones are at the tail. -/
theorem Memory.advance_spec {m : Memory} (h : m.wf) {moved : Nat} (hm : moved ≤ m.wlen) (new : List Byte) :
    (Memory.advance { m with buf := m.buf ++ new } moved new.length).wf ∧
      (Memory.advance { m with buf := m.buf ++ new } moved new.length).hist = m.hist ++ m.win.take moved ∧
      (Memory.advance { m with buf := m.buf ++ new } moved new.length).win = m.win.drop moved ++ new := by
  have hl : m.buf.length = m.hlen + m.wlen := h
  refine ⟨?_, ?_, ?_⟩
  · simp only [Memory.wf, Memory.advance, List.length_append]; omega
  · simp only [Memory.hist, Memory.win, Memory.advance]
    rw [List.take_append_of_le_length (by omega), List.take_take, Nat.min_eq_left hm, List.take_add]
  · simp only [Memory.win, Memory.advance]
    rw [List.drop_append_of_le_length (by omega), ← List.drop_drop, List.drop_take,
      List.take_of_length_le (l := (m.buf.drop m.hlen).drop moved) (by simp; omega),
      List.take_of_length_le (by simp; omega)]

/-! ## Reading into the buffer -/

theorem OnlyRefilled.refl (s : State) : OnlyRefilled s s := rfl

theorem OnlyRefilled.trans {s t u : State} (h : OnlyRefilled s t) (k : OnlyRefilled t u) : OnlyRefilled s u := by
  unfold OnlyRefilled at *
  rw [k, h]; rfl

theorem OnlyRefilled.record {s t : State} (h : OnlyRefilled s t) : t.record = s.record := by rw [h]; rfl
theorem OnlyRefilled.params {s t : State} (h : OnlyRefilled s t) : t.params = s.params := by rw [h]; rfl
theorem OnlyRefilled.search {s t : State} (h : OnlyRefilled s t) : t.search = s.search := by rw [h]; rfl
theorem OnlyRefilled.ctl {s t : State} (h : OnlyRefilled s t) : t.ctl = s.ctl := by rw [h]; rfl
theorem OnlyRefilled.err {s t : State} (h : OnlyRefilled s t) : t.err = s.err := by rw [h]; rfl
theorem OnlyRefilled.cleanEnd {s t : State} (h : OnlyRefilled s t) : t.cleanEnd = s.cleanEnd := by rw [h]; rfl
theorem OnlyRefilled.writer {s t : State} (h : OnlyRefilled s t) : t.writer = s.writer := by rw [h]; rfl
theorem OnlyRefilled.reader {s t : State} (h : OnlyRefilled s t) : t.reader = s.reader := by rw [h]; rfl
theorem OnlyRefilled.cfg {s t : State} (h : OnlyRefilled s t) : t.cfg = s.cfg := by rw [h]; rfl
theorem OnlyRefilled.hdr {s t : State} (h : OnlyRefilled s t) : t.hdr = s.hdr := by rw [h]; rfl
theorem OnlyRefilled.host {s t : State} (h : OnlyRefilled s t) : t.host = s.host := by rw [h]; rfl
theorem OnlyRefilled.snk {s t : State} (h : OnlyRefilled s t) : t.ports.snk = s.ports.snk := by rw [h]; rfl

/-- A read that leaves the bit reader alone is a refill that leaves the buffer alone. -/
theorem OnlyRead.refilled {s t : State} (h : OnlyRead s t) (hr : t.reader = s.reader) : OnlyRefilled s t := by
  have e := h
  unfold OnlyRead at e; unfold OnlyRefilled
  rw [h.mem]
  rw [hr] at e
  exact e

/-- `bytes` were appended to BUF from the source, nothing else happened. -/
structure Filled (bytes : List Byte) (s t : State) : Prop where
  only : OnlyRefilled s t
  mem : t.mem = { s.mem with buf := s.mem.buf ++ bytes }

theorem Filled.refl (s : State) : Filled [] s s := ⟨rfl, by simp⟩

theorem Filled.trans {a b : List Byte} {s t u : State} (h : Filled a s t) (k : Filled b t u) : Filled (a ++ b) s u :=
  ⟨h.only.trans k.only, by rw [k.mem, h.mem]; simp⟩

theorem appendByte_filled {s t : State} {b : Byte} (ho : OnlyRead s t) (hr : t.reader = s.reader) :
    Filled [b] s (appendByte b t) := by
  have h := ho.refilled hr
  refine ⟨?_, by rw [appendByte, State.setMem_mem, ho.mem]⟩
  unfold OnlyRefilled at *
  rw [appendByte, h]; rfl

theorem sourceComing_append (b : Byte) (t : State) : sourceComing (appendByte b t) = sourceComing t := rfl

/-- A byte is delivered only while SRC_EOF is 0, and leaves it so (R41). -/
theorem sourceComing_eof {s : State} (h : (sourceComing s).1 ≠ []) : s.srcEof = false := by
  unfold sourceComing at h
  cases hs : s.srcEof with
  | false => rfl
  | true => rw [hs] at h; simp at h

/-- SWR_CONSTRUCT's reads with enough bytes to come (R81): SRC_EOF is untouched. -/
theorem fillBuffer_ok {n : Nat} {s : State} (hn : n ≤ (sourceComing s).1.length) :
    ∃ t, fillBuffer n s = .ok () t ∧ Filled ((sourceComing s).1.take n) s t ∧
      sourceComing t = ((sourceComing s).1.drop n, (sourceComing s).2) ∧ t.srcEof = s.srcEof := by
  induction n generalizing s with
  | zero => exact ⟨s, rfl, Filled.refl s, rfl, rfl⟩
  | succ n ih =>
    obtain ⟨b, bs, e, t, h1, h2, h3, ho, hr, hs, ht⟩ | ⟨t, h1, -⟩ | ⟨t, h1, -⟩ := srcRead_cases s
    · rw [h1] at hn
      obtain ⟨u, hu, hf, hc, he⟩ := ih (s := appendByte b t) (by
        rw [sourceComing_append, h3]; simpa using hn)
      rw [sourceComing_append, h3] at hf hc
      refine ⟨u, by rw [fillBuffer, h2]; exact hu, ?_, by rw [hc, h1]; rfl, ?_⟩
      · rw [h1]; exact (appendByte_filled ho hr).trans hf
      · rw [he, hs]; exact ht
    · rw [h1] at hn; simp at hn
    · rw [h1] at hn; simp at hn

/-- SWR_CONSTRUCT's reads with too few bytes to come (R81): TruncatedInput at the end of data, IOError at a failure. -/
theorem fillBuffer_short {n : Nat} {s : State} (hn : (sourceComing s).1.length < n) :
    ∃ u, fillBuffer n s =
        .raised (raiseError (if (sourceComing s).2 then .truncatedInput else .ioError) u) ∧ OnlyRefilled s u ∧
      ((sourceComing s).2 = true → u.srcEof = true) := by
  induction n generalizing s with
  | zero => omega
  | succ n ih =>
    obtain ⟨b, bs, e, t, h1, h2, h3, ho, hr, hs, ht⟩ | ⟨t, h1, h2, -, ho, hr, he⟩ | ⟨t, h1, h2, ho, hr, -, -⟩ :=
      srcRead_cases s
    · rw [h1] at hn
      obtain ⟨u, hu, hf, he⟩ := ih (s := appendByte b t) (by
        rw [sourceComing_append, h3]; simpa using hn)
      rw [sourceComing_append, h3] at hu he
      exact ⟨u, by rw [fillBuffer, h2, h1]; exact hu, (appendByte_filled ho hr).only.trans hf, by rw [h1]; exact he⟩
    · exact ⟨t, by rw [fillBuffer, h2, h1]; rfl, ho.refilled hr, fun _ => he⟩
    · exact ⟨t, by rw [fillBuffer, h2, h1]; rfl, ho.refilled hr, by rw [h1]; simp⟩

/-- SWR_NEXT's reads (R82): up to `n` bytes, stopping at the end of data, which latches SRC_EOF. -/
theorem refillWindow_ok {n : Nat} {s : State} (k : Nat) (h : n ≤ (sourceComing s).1.length ∨ (sourceComing s).2 = true) :
    ∃ t, refillWindow n k s = .ok (k + ((sourceComing s).1.take n).length) t ∧
      Filled ((sourceComing s).1.take n) s t ∧ sourceComing t = ((sourceComing s).1.drop n, (sourceComing s).2) ∧
      t.srcEof = (s.srcEof || decide ((sourceComing s).1.length < n)) := by
  induction n generalizing s k with
  | zero => exact ⟨s, rfl, Filled.refl s, rfl, by simp⟩
  | succ n ih =>
    obtain ⟨b, bs, e, t, h1, h2, h3, ho, hr, hs, ht⟩ | ⟨t, h1, h2, h3, ho, hr, he⟩ | ⟨t, h1, -⟩ := srcRead_cases s
    · rw [h1] at h
      obtain ⟨u, hu, hf, hc, he⟩ := ih (s := appendByte b t) (k + 1) (by
        rw [sourceComing_append, h3]; simpa using h)
      rw [sourceComing_append, h3] at hu hf hc he
      refine ⟨u, ?_, ?_, by rw [hc, h1]; rfl, ?_⟩
      · rw [refillWindow, h2, h1]; simp only [List.take_succ_cons, List.length_cons]
        rw [hu, Nat.add_assoc, Nat.add_comm 1]
      · rw [h1]; exact (appendByte_filled ho hr).trans hf
      · have ha : (appendByte b t).srcEof = false := ht
        rw [he, ha, hs, h1]; simp
    · refine ⟨t, by rw [refillWindow, h2, h1]; simp, by
        rw [h1]; exact ⟨ho.refilled hr, by rw [ho.mem]; simp⟩, by rw [h3, h1]; rfl, by rw [he, h1]; simp⟩
    · rw [h1] at h; simp at h

/-- SWR_NEXT's reads into a failing source (R82, R120). -/
theorem refillWindow_fail {n : Nat} {s : State} (k : Nat) (h : (sourceComing s).1.length < n)
    (he : (sourceComing s).2 = false) :
    ∃ u, refillWindow n k s = .raised (raiseError .ioError u) ∧ OnlyRefilled s u := by
  induction n generalizing s k with
  | zero => omega
  | succ n ih =>
    obtain ⟨b, bs, e, t, h1, h2, h3, ho, hr, hs, ht⟩ | ⟨t, h1, -⟩ | ⟨t, h1, h2, ho, hr, -, -⟩ := srcRead_cases s
    · rw [h1] at h he
      obtain ⟨u, hu, hf⟩ := ih (s := appendByte b t) (k + 1) (by
        rw [sourceComing_append, h3]; simpa using h) (by rw [sourceComing_append, h3]; exact he)
      exact ⟨u, by rw [refillWindow, h2]; exact hu, (appendByte_filled ho hr).only.trans hf⟩
    · rw [h1] at he; simp at he
    · exact ⟨t, by rw [refillWindow, h2]; rfl, ho.refilled hr⟩

/-- SWR_CONSTRUCT on a fresh buffer with `2 * WC` bytes to come (R81). -/
theorem constructReader_ok {s : State} (hb : s.mem.buf = []) (hs : s.srcEof = false)
    (hn : 2 * s.params.wc ≤ (sourceComing s).1.length) :
    ∃ t, constructReader s = .ok () t ∧ OnlyRefilled s t ∧
      t.mem = { buf := (sourceComing s).1.take (2 * s.params.wc), hlen := s.params.wc, wlen := s.params.wc,
                wcap := s.params.wc } ∧
      sourceComing t = ((sourceComing s).1.drop (2 * s.params.wc), (sourceComing s).2) ∧ t.srcEof = false := by
  obtain ⟨u, hu, hf, hc, he⟩ := fillBuffer_ok hn
  rw [constructReader, if_pos ⟨hb, hs⟩, hu]
  refine ⟨_, rfl, ?_, ?_, hc, by rw [State.setMem_srcEof, he, hs]⟩
  · have h := hf.only
    unfold OnlyRefilled at *; rw [h]; rfl
  · rw [State.setMem_mem, hf.mem, hf.only.params, hb]; rfl

/-- SWR_CONSTRUCT on a fresh buffer with too few bytes to come (R81). -/
theorem constructReader_short {s : State} (hb : s.mem.buf = []) (hs : s.srcEof = false)
    (hn : (sourceComing s).1.length < 2 * s.params.wc) :
    ∃ u, constructReader s =
        .raised (raiseError (if (sourceComing s).2 then .truncatedInput else .ioError) u) ∧ OnlyRefilled s u ∧
      ((sourceComing s).2 = true → u.srcEof = true) := by
  obtain ⟨u, hu, ho⟩ := fillBuffer_short hn
  exact ⟨u, by rw [constructReader, if_pos ⟨hb, hs⟩, hu]; rfl, ho⟩

/-- SWR_NEXT (R82). -/
theorem advanceReader_ok {m : Nat} {s : State} (hw : s.mem.wf) (h1 : 1 ≤ m) (hm : m ≤ s.mem.wlen)
    (h : m ≤ (sourceComing s).1.length ∨ (sourceComing s).2 = true) :
    ∃ t, advanceReader m s = .ok () t ∧ Advanced m s t := by
  obtain ⟨u, hu, hf, hc, he⟩ := refillWindow_ok 0 h
  obtain ⟨a1, a2, a3⟩ := Memory.advance_spec hw hm ((sourceComing s).1.take m)
  obtain ⟨e1, e2, e3, e4, e5, e6⟩ := Memory.evict_spec a1 s.params.h
  rw [advanceReader, if_pos ⟨h1, hm⟩, hu]
  simp only [Res.bind_ok, Nat.zero_add]
  have hmem : (u.mem.advance m ((sourceComing s).1.take m).length).evict u.params.h =
      (Memory.advance { s.mem with buf := s.mem.buf ++ (sourceComing s).1.take m } m
        ((sourceComing s).1.take m).length).evict s.params.h := by rw [hf.mem, hf.only.params]
  rw [hmem]
  refine ⟨_, rfl, ?_, e1, by rw [State.setMem_mem, e2, a2]; rfl, by rw [State.setMem_mem, e3, a3], e4, e5, e6, hc, he⟩
  have := hf.only
  unfold OnlyRefilled at *; rw [this]; rfl

/-- SWR_NEXT into a failing source (R82, R120). -/
theorem advanceReader_fail {m : Nat} {s : State} (hm : m ≤ s.mem.wlen) (h : (sourceComing s).1.length < m)
    (he : (sourceComing s).2 = false) :
    ∃ u, advanceReader m s = .raised (raiseError .ioError u) ∧ OnlyRefilled s u := by
  obtain ⟨u, hu, ho⟩ := refillWindow_fail 0 h he
  exact ⟨u, by rw [advanceReader, if_pos ⟨by omega, hm⟩, hu]; rfl, ho⟩

/-- SWR_NEXT inside its precondition is never refused: it advances, or the source fails (R82). -/
theorem advanceReader_ends {m : Nat} {s : State} (h1 : 1 ≤ m) (hm : m ≤ s.mem.wlen) (hw : s.mem.wf) :
    (advanceReader m s).Ends (fun _ t => OnlyRefilled s t ∧ t.mem.wf ∧ t.mem.hlen = min s.params.h (s.mem.hlen + m) ∧
        ∃ k, k ≤ m ∧ t.mem.wlen = s.mem.wlen - m + k ∧ t.mem.wcap = s.mem.wcap - (m - k) ∧
          (t.srcEof = false → k = m ∧ s.srcEof = false))
      (fun t => ∃ u, OnlyRefilled s u ∧ t = raiseError .ioError u) := by
  by_cases h : m ≤ (sourceComing s).1.length ∨ (sourceComing s).2 = true
  · obtain ⟨t, ht, ha⟩ := advanceReader_ok hw h1 hm h
    rw [ht]
    refine ⟨ha.only, ha.form, ha.hlen, _, by simp, ha.wlen, ha.wcap, fun hf => ?_⟩
    rw [ha.srcEof] at hf
    simp only [Bool.or_eq_false_iff, decide_eq_false_iff_not, not_lt] at hf
    exact ⟨by rw [List.length_take]; omega, hf.1⟩
  · rw [not_or] at h
    obtain ⟨u, hu, ho⟩ := advanceReader_fail hm (by omega) (by simpa using h.2)
    rw [hu]; exact ⟨u, ho, rfl⟩

/-- SWR_CONSTRUCT leaves the form (R27, R81). -/
theorem constructReader_wf {s t : State} (h : constructReader s = .ok () t) : t.mem.wf := by
  by_cases hb : s.mem.buf = [] ∧ s.srcEof = false
  · by_cases hn : 2 * s.params.wc ≤ (sourceComing s).1.length
    · obtain ⟨u, hu, -, hm, -⟩ := constructReader_ok hb.1 hb.2 hn
      obtain ⟨-, rfl⟩ := Res.ok.inj (hu.symm.trans h)
      rw [hm]; simp only [Memory.wf, List.length_take]; omega
    · obtain ⟨u, hu, -⟩ := constructReader_short hb.1 hb.2 (by omega)
      rw [hu] at h; cases h
  · rw [constructReader, if_neg hb] at h; cases h

end Sys2Proof.Machine
end

