-- ==== Sys2Proof/Laws/Frame.lean ====
section
/-! SUPPORT. What no operation of the block ever changes: the configuration, the host's coming actions, and the bytes the sink
already holds. -/

namespace Sys2Proof.Machine

/-- From `s` to `t` the configuration and the host's actions stayed, and the sink only grew (R20, R42). -/
structure Stays (s t : State) : Prop where
  cfg : t.cfg = s.cfg
  host : t.host = s.host
  snk : s.ports.snk <+: t.ports.snk

theorem Stays.refl (s : State) : Stays s s := ⟨rfl, rfl, List.prefix_rfl⟩

theorem Stays.trans {s t u : State} (h : Stays s t) (k : Stays t u) : Stays s u :=
  ⟨k.cfg.trans h.cfg, k.host.trans h.host, h.snk.trans k.snk⟩

/-- A change of fields other than these three. -/
theorem Stays.of_eq {s t : State} (hc : t.cfg = s.cfg) (hh : t.host = s.host) (hp : t.ports = s.ports) : Stays s t :=
  ⟨hc, hh, by rw [hp]⟩

theorem OnlyWrote.stays {s t : State} (h : OnlyWrote s t) (hs : s.ports.snk <+: t.ports.snk) : Stays s t :=
  ⟨h.cfg, h.host, hs⟩

theorem OnlyRead.stays {s t : State} (h : OnlyRead s t) : Stays s t := ⟨h.cfg, h.host, by rw [h.snk]⟩

theorem OnlyRefilled.stays {s t : State} (h : OnlyRefilled s t) : Stays s t := ⟨h.cfg, h.host, by rw [h.snk]⟩

/-- Every way an operation ends stays. -/
def Res.Stays {α : Type} (s : State) : Res α → Prop
  | .ok _ t => Machine.Stays s t
  | .raised t => Machine.Stays s t
  | .refused _ => True

section
variable {α β : Type}

theorem Res.Stays.bind {s : State} {x : Res α} {f : α → State → Res β} (h : x.Stays s)
    (hf : ∀ a t, (f a t).Stays t) : (x.bind f).Stays s := by
  cases x with
  | ok a t =>
    have hf := hf a t
    rw [Res.bind_ok]
    cases hft : f a t with
    | ok b u => rw [hft] at hf; exact h.trans hf
    | raised u => rw [hft] at hf; exact h.trans hf
    | refused r => trivial
  | raised t => exact h
  | refused r => trivial

theorem Res.Stays.from {s t : State} {x : Res α} (h : Machine.Stays s t) (hx : x.Stays t) : x.Stays s := by
  cases x with
  | ok a u => exact h.trans hx
  | raised u => exact h.trans hx
  | refused r => trivial

theorem Res.Stays.next {s t : State} {x : Res α} (h : x.Stays s) (ht : x.outcome = .next t) : Machine.Stays s t := by
  cases x with
  | ok a u => cases ht; exact h
  | raised u => cases ht; exact h
  | refused r => cases ht

theorem Res.Stays.nextOf {s t : State} {g : α → OpResult} {x : Res α} (h : x.Stays s) (ht : x.outcomeOf g = .next t) :
    Machine.Stays s t := by
  cases x with
  | ok a u => cases ht; exact ⟨h.cfg, h.host, h.snk⟩
  | raised u => cases ht; exact h
  | refused r => cases ht

theorem raiseError_stays (e : ErrorClass) (s : State) : Stays s (raiseError e s) := .of_eq rfl rfl rfl

theorem enterDone_stays (s : State) : Stays s (enterDone s) := .of_eq rfl rfl rfl

theorem raising_stays (e : ErrorClass) (s : State) : (raising e s : Res α).Stays s := raiseError_stays e s

end

theorem Writes.stays {α : Type} {a : Bits} {s : State} {x : Res α} (h : Writes a s x) : x.Stays s := by
  have h := h.ends
  cases x with
  | ok r t => exact h.1.only.stays h.2.1
  | raised t => obtain ⟨u, hu, hq, -, rfl, -⟩ := h; exact (hu.stays hq).trans (raiseError_stays _ _)
  | refused r => exact h.elim

theorem writeBit_stays (b : Bool) (s : State) : (writeBit b s).Stays s := (writeBit_ends b s).stays

theorem writeBits_stays (n v : Nat) (s : State) : (writeBits n v s).Stays s := by
  by_cases h : fieldWidthOk n = true
  · exact (writeBits_ends v s h).stays
  · rw [writeBits, if_neg h]; trivial

theorem padLoop_stays (k : Nat) (s : State) : (padLoop k s).Stays s := by
  induction k generalizing s with
  | zero => exact Stays.refl s
  | succ k ih =>
    rw [padLoop]
    split
    · exact Stays.refl s
    · exact (writeBit_stays false s).bind fun _ t => ih t

theorem snkWrite_stays (b : Byte) (s : State) : (snkWrite b s).Stays s := by
  have h := snkWrite_ends b s
  cases hx : snkWrite b s with
  | ok a t => rw [hx] at h; exact h.1.stays (by rw [h.2.2.1]; exact List.prefix_append _ _)
  | raised t =>
    rw [hx] at h
    obtain ⟨u, hu, -, hs, rfl, -⟩ := h
    exact (hu.stays (by rw [hs])).trans (raiseError_stays _ _)
  | refused r => trivial

theorem snkWriteAll_stays (l : List Byte) (s : State) : (snkWriteAll l s).Stays s := by
  induction l generalizing s with
  | nil => exact Stays.refl s
  | cons b l ih => exact (snkWrite_stays b s).bind fun _ t => ih t

theorem snkFlush_stays (s : State) : (snkFlush s).Stays s := by
  have h := snkFlush_ends s
  cases hx : snkFlush s with
  | ok a t => rw [hx] at h; obtain ⟨r, rfl⟩ := h; exact ⟨rfl, rfl, List.prefix_rfl⟩
  | raised t => rw [hx] at h; obtain ⟨r, rfl⟩ := h; exact ⟨rfl, rfl, List.prefix_rfl⟩
  | refused r => trivial

theorem readBit_stays (s : State) : (readBit s).Stays s := by
  have h := readBit_ends s
  cases hx : readBit s with
  | ok a t => rw [hx] at h; exact h.1.stays
  | raised t => rw [hx] at h; obtain ⟨u, hu, rfl⟩ := h; exact hu.stays.trans (raiseError_stays _ _)
  | refused r => trivial

theorem readBits_stays (n : Nat) (s : State) : (readBits n s).Stays s := by
  by_cases hn : fieldWidthOk n = true
  · have h := readBits_ends s hn
    cases hx : readBits n s with
    | ok a t => rw [hx] at h; exact h.1.stays
    | raised t => rw [hx] at h; obtain ⟨u, hu, rfl⟩ := h; exact hu.stays.trans (raiseError_stays _ _)
    | refused r => trivial
  · rw [readBits, if_neg hn]; trivial

theorem constructReader_stays (s : State) : (constructReader s).Stays s := by
  by_cases hb : s.mem.buf = [] ∧ s.srcEof = false
  · by_cases hn : 2 * s.params.wc ≤ (sourceComing s).1.length
    · obtain ⟨t, ht, ho, -⟩ := constructReader_ok hb.1 hb.2 hn
      rw [ht]; exact ho.stays
    · obtain ⟨u, hu, ho, -⟩ := constructReader_short hb.1 hb.2 (Nat.lt_of_not_le hn)
      rw [hu]; exact ho.stays.trans (raiseError_stays _ _)
  · rw [constructReader, if_neg hb]; trivial

theorem refillWindow_stays (n k : Nat) (s : State) : (refillWindow n k s).Stays s := by
  by_cases h : n ≤ (sourceComing s).1.length ∨ (sourceComing s).2 = true
  · obtain ⟨t, ht, hf, -⟩ := refillWindow_ok k h
    rw [ht]; exact hf.only.stays
  · rw [not_or] at h
    obtain ⟨u, hu, ho⟩ := refillWindow_fail k (Nat.lt_of_not_le h.1) (by simpa using h.2)
    rw [hu]; exact ho.stays.trans (raiseError_stays _ _)

theorem advanceReader_stays (m : Nat) (s : State) : (advanceReader m s).Stays s := by
  rw [advanceReader]
  split
  · exact (refillWindow_stays m 0 s).bind fun _ t => ⟨rfl, rfl, List.prefix_rfl⟩
  · trivial

/-! ## The operations of the two controllers -/

theorem countDraw_stays (l : Nat) (s : State) : Stays s (countDraw l s) := by
  unfold countDraw
  split
  · exact Stays.refl s
  · exact .of_eq rfl rfl rfl

theorem writeReference_stays (p l : Nat) (s : State) : (writeReference p l s).Stays s :=
  (Res.Stays.from ((countDraw_stays l s).trans (by exact .of_eq rfl rfl rfl)) (writeBit_stays _ _)).bind fun _ t =>
    (writeBits_stays _ _ t).bind fun _ u => writeBits_stays _ _ u

theorem writeLiteral_stays (b : Byte) (s : State) : (writeLiteral b s).Stays s :=
  (Res.Stays.from (by exact .of_eq rfl rfl rfl) (writeBit_stays _ _)).bind fun _ t => (writeByte_ends _ t).stays

theorem needField_stays {x : Res ReadResult} {f : Nat → State → Res Unit} {s : State} (hx : x.Stays s)
    (hf : ∀ a t, (f a t).Stays t) : (needField x f).Stays s := by
  refine hx.bind ?_
  rintro (v | k) t
  · exact hf v t
  · exact raising_stays _ _

theorem finishDecode_stays (s : State) : (finishDecode s).Stays s :=
  (snkFlush_stays s).bind fun _ t => enterDone_stays t

theorem endCleanly_stays (s : State) : (endCleanly s).Stays s :=
  Res.Stays.from (by exact .of_eq rfl rfl rfl) (finishDecode_stays (s.setCleanEnd true))

theorem acceptHeader_stays (s : State) : (acceptHeader s).Stays s := by
  unfold acceptHeader
  split
  · exact Machine.Stays.of_eq rfl rfl rfl
  · exact raising_stays _ _

theorem deliverByte_stays (b : Byte) (s : State) : (deliverByte b s).Stays s :=
  (snkWrite_stays b s).bind fun _ _ => Machine.Stays.of_eq rfl rfl rfl

theorem readPriming_stays (n : Nat) (s : State) : (readPriming n s).Stays s := by
  induction n generalizing s with
  | zero => exact Machine.Stays.refl s
  | succ n ih =>
    exact needField_stays (readBits_stays _ s) fun v t => (deliverByte_stays _ t).bind fun _ u => ih u

theorem readLiteral_stays (s : State) : (readLiteral s).Stays s := by
  refine (readBits_stays _ s).bind ?_
  rintro (v | k) t
  · exact Machine.Stays.of_eq rfl rfl rfl
  · exact endCleanly_stays t

theorem acceptReference_stays (s : State) : (acceptReference s).Stays s := by
  unfold acceptReference
  split
  · exact raising_stays _ _
  · exact Machine.Stays.of_eq rfl rfl rfl

theorem readReference_stays (s : State) : (readReference s).Stays s :=
  needField_stays (readBits_stays _ s) fun _ _ =>
    needField_stays (Res.Stays.from (by exact .of_eq rfl rfl rfl) (readBits_stays _ _)) fun _ _ =>
      Res.Stays.from (by exact .of_eq rfl rfl rfl) (acceptReference_stays _)

theorem acceptTag_stays (tag : Bool) (s : State) {more : State → Res Unit} (hm : ∀ t, (more t).Stays t) :
    (acceptTag tag s more).Stays s := by
  refine (readBit_stays s).bind ?_
  rintro (_ | _) t
  · exact endCleanly_stays t
  · exact Res.Stays.from (by exact .of_eq rfl rfl rfl) (hm _)

end Sys2Proof.Machine
end

