-- ==== Sys2Proof/Laws/Params.lean ====
section
/-! SUPPORT. The ranges of a legal parameter set and of what is derived from it (R5, R6, R7). -/

namespace Sys2Proof.Machine

theorem paramsLegal_iff (hb mlb : Nat) :
    paramsLegal hb mlb = true ↔ 3 ≤ hb ∧ hb ≤ 31 ∧ 2 ≤ mlb ∧ mlb ≤ 15 ∧ mlb < hb := by
  simp only [paramsLegal, Config.hbMax, Config.mlbMax, Nat.min_self, Bool.and_eq_true, Bool.not_eq_true', Bool.or_eq_false_iff,
    decide_eq_false_iff_not]
  omega

theorem window_le_capacity_table : ∀ hb : Fin 32, ∀ mlb : Fin 16, mlb.val < hb.val → 3 ≤ hb.val →
    windowOf hb mlb ≤ capacityOf hb := by decide

/-- WC <= H for every legal pair (R7). -/
theorem window_le_capacity {hb mlb : Nat} (h : paramsLegal hb mlb = true) : windowOf hb mlb ≤ capacityOf hb := by
  obtain ⟨h1, h2, h3, h4, h5⟩ := (paramsLegal_iff hb mlb).1 h
  exact window_le_capacity_table ⟨hb, by omega⟩ ⟨mlb, by omega⟩ h5 h1

/-- The ranges of R5 and R7 for a legal parameter set. -/
structure ParamRanges (p : Params) : Prop where
  hbLow : 3 ≤ p.hb
  hbHigh : p.hb ≤ 31
  mlbLow : 2 ≤ p.mlb
  mlbHigh : p.mlb ≤ 15
  order : p.mlb < p.hb
  thrLow : 1 ≤ p.thr
  thrHigh : p.thr ≤ 6
  capacity : p.h = 2 ^ p.hb
  capacityHigh : p.h ≤ 2 ^ 31
  window : p.wc + 1 = 2 ^ p.mlb + p.thr
  windowLow : 4 ≤ p.wc
  windowHigh : p.wc ≤ 32773
  windowFits : p.wc ≤ p.h
  hbWidth : fieldWidthOk p.hb = true
  mlbWidth : fieldWidthOk p.mlb = true

theorem ParamsOk.ranges {p : Params} (h : ParamsOk p) : ParamRanges p := by
  obtain ⟨hl, he⟩ := h
  obtain ⟨h1, h2, h3, h4, h5⟩ := (paramsLegal_iff _ _).1 hl
  have hwin := window_le_capacity hl
  have ht : p.thr = (1 + p.hb + p.mlb) / 9 + 1 := by rw [he]; rfl
  have hh : p.h = 2 ^ p.hb := by rw [he]; rfl
  have hw : p.wc = 2 ^ p.mlb + p.thr - 1 := by rw [he]; rfl
  have hw' : p.wc ≤ p.h := by rw [hh, he]; exact hwin
  have p1 : 2 ^ 2 ≤ 2 ^ p.mlb := Nat.pow_le_pow_right (by omega) h3
  have p2 : 2 ^ p.mlb ≤ 2 ^ 15 := Nat.pow_le_pow_right (by omega) h4
  have p3 : 2 ^ p.hb ≤ 2 ^ 31 := Nat.pow_le_pow_right (by omega) h2
  refine ⟨h1, h2, h3, h4, h5, by omega, by omega, hh, by omega, by omega, by omega, by omega, hw', ?_, ?_⟩
  · simp [fieldWidthOk]; omega
  · simp [fieldWidthOk]; omega

end Sys2Proof.Machine
end

