-- ==== Sys2Proof/Laws/Search.lean ====
section
/-! SUPPORT. FIRST_MATCH and BEST_MATCH against longest common prefixes: what the scans find, without their loops. -/

namespace Sys2Proof.Machine

/-! ## Common prefixes -/

@[simp] theorem commonPrefix_nil_left (l : List Byte) : commonPrefix [] l = 0 := rfl

@[simp] theorem commonPrefix_nil_right (l : List Byte) : commonPrefix l [] = 0 := by cases l <;> rfl

theorem commonPrefix_le_left (l m : List Byte) : commonPrefix l m ≤ l.length := by
  induction l generalizing m with
  | nil => simp
  | cons x xs ih =>
    cases m with
    | nil => simp
    | cons y ys => rw [commonPrefix]; split <;> simp [ih]

theorem commonPrefix_le_right (l m : List Byte) : commonPrefix l m ≤ m.length := by
  induction l generalizing m with
  | nil => simp
  | cons x xs ih =>
    cases m with
    | nil => simp
    | cons y ys => rw [commonPrefix]; split <;> simp [ih]

/-- Validity (R88): over a common prefix the sequences agree. -/
theorem take_commonPrefix (l m : List Byte) : l.take (commonPrefix l m) = m.take (commonPrefix l m) := by
  induction l generalizing m with
  | nil => simp
  | cons x xs ih =>
    cases m with
    | nil => simp
    | cons y ys =>
      rw [commonPrefix]
      split
      · next h => simp [h, ih]
      · simp

theorem commonPrefix_take_right (l m : List Byte) {n : Nat} (h : l.length ≤ n) :
    commonPrefix l (m.take n) = commonPrefix l m := by
  induction l generalizing m n with
  | nil => simp
  | cons x xs ih =>
    cases n with
    | zero => simp at h
    | succ n =>
      cases m with
      | nil => simp
      | cons y ys => simp only [List.take_succ_cons, commonPrefix]; rw [ih ys (by simpa using h)]

theorem commonPrefix_pos {l m : List Byte} : 0 < commonPrefix l m ↔ ∃ y, l.head? = some y ∧ m.head? = some y := by
  cases l with
  | nil => simp
  | cons x xs =>
    cases m with
    | nil => simp
    | cons y ys =>
      rw [commonPrefix]
      split
      · next h => simp [h]
      · next h => simp [Ne.symm h]

theorem matchAt_le (seq sub : List Byte) (p : Nat) : p + matchAt seq sub p ≤ max p seq.length := by
  have := commonPrefix_le_left (seq.drop p) sub
  rw [List.length_drop] at this
  unfold matchAt; omega

theorem matchAt_lt {seq sub : List Byte} {p : Nat} (h : 0 < matchAt seq sub p) : p < seq.length := by
  have := matchAt_le seq sub p
  omega

/-! ## FIRST_MATCH -/

/-- A run in progress goes on as far as the sequences agree (R88). -/
theorem firstScan_run {sub l : List Byte} {i : Nat} {r : SearchRegs} (h0 : 0 < r.count) (hc : r.count < sub.length) :
    firstScan sub l i r =
      ((r.start, r.count + commonPrefix l (sub.drop r.count)),
        { r with count := r.count + commonPrefix l (sub.drop r.count) }) := by
  induction l generalizing i r with
  | nil => simp [firstScan, h0]
  | cons x xs ih =>
    have hd : sub.drop r.count = sub[r.count] :: sub.drop (r.count + 1) := List.drop_eq_getElem_cons hc
    rw [firstScan, List.getElem?_eq_getElem hc, hd, commonPrefix]
    by_cases hx : sub[r.count] = x
    · simp only [hx, if_true, Nat.ne_of_gt h0, if_false]
      by_cases hl : r.count + 1 = sub.length
      · rw [if_pos hl, List.drop_of_length_le (by omega)]; simp
      · rw [if_neg hl, ih (by simp) (by simp only; omega)]
        simp only [Prod.mk.injEq, SearchRegs.mk.injEq, true_and, and_true]
        omega
    · rw [if_neg (by simpa using hx), if_pos h0, if_neg (Ne.symm hx)]; simp

/-- Looking for the first byte equal to `sub[0]` (R88): none, or the run that starts there. -/
theorem firstScan_seek {y : Byte} {ys l : List Byte} {i : Nat} {r : SearchRegs} (h0 : r.count = 0) :
    ((∀ x ∈ l, x ≠ y) ∧ firstScan (y :: ys) l i r = ((0, 0), r)) ∨
      ∃ j, j < l.length ∧ (∀ k, k < j → commonPrefix (l.drop k) (y :: ys) = 0) ∧
        0 < commonPrefix (l.drop j) (y :: ys) ∧
        firstScan (y :: ys) l i r =
          ((i + j, commonPrefix (l.drop j) (y :: ys)),
            { r with start := i + j, count := commonPrefix (l.drop j) (y :: ys) }) := by
  induction l generalizing i with
  | nil => left; simp [firstScan, h0]
  | cons x xs ih =>
    by_cases hx : x = y
    · right
      subst hx
      refine ⟨0, by simp, by simp, by simp [commonPrefix], ?_⟩
      rw [firstScan, h0]
      simp only [List.getElem?_cons_zero, if_true, Nat.zero_add, List.drop_zero, Nat.add_zero, commonPrefix]
      by_cases hl : 1 = (x :: ys).length
      · rw [if_pos hl]
        have : ys = [] := by simpa using hl
        subst this; simp
      · have hl' : 1 < (x :: ys).length := by
          simp only [List.length_cons] at *; omega
        rw [if_neg hl, firstScan_run (by simp) hl']
        simp only [List.drop_succ_cons, List.drop_zero, Prod.mk.injEq, SearchRegs.mk.injEq, true_and, and_true]
        omega
    · have hstep : firstScan (y :: ys) (x :: xs) i r = firstScan (y :: ys) xs (i + 1) r := by
        rw [firstScan, h0, List.getElem?_cons_zero, if_neg (by simpa using Ne.symm hx), if_neg (by omega)]
      have hz : commonPrefix (x :: xs) (y :: ys) = 0 := by rw [commonPrefix, if_neg hx]
      obtain ⟨ha, hb⟩ | ⟨j, hj, hk, hp, hb⟩ := ih (i := i + 1)
      · left
        exact ⟨by simpa [hx] using ha, by rw [hstep, hb]⟩
      · right
        refine ⟨j + 1, by simpa using hj, ?_, by simpa using hp, ?_⟩
        · intro k hk'
          cases k with
          | zero => simpa using hz
          | succ k => simpa using hk k (by omega)
        · rw [hstep, hb]
          simp only [List.drop_succ_cons]
          congr 2 <;> omega

/-- FIRST_MATCH (R88): `(0, 0)` where nothing matches at any index, else the first index that matches, with the whole common
prefix there. -/
theorem firstMatch_spec (seq sub : List Byte) (r : SearchRegs) :
    ((∀ p, matchAt seq sub p = 0) ∧ (firstMatch seq sub r).1 = (0, 0) ∧
        ((firstMatch seq sub r).2 = r ∨ (firstMatch seq sub r).2 = { r with count := 0, start := 0 })) ∨
      ∃ p, (∀ q, q < p → matchAt seq sub q = 0) ∧ 0 < matchAt seq sub p ∧
        (firstMatch seq sub r).1 = (p, matchAt seq sub p) ∧
        (firstMatch seq sub r).2 = { r with start := p, count := matchAt seq sub p } := by
  unfold firstMatch
  split
  case isTrue h =>
    left
    refine ⟨fun p => ?_, rfl, .inl rfl⟩
    rcases h with h | h <;> simp [matchAt, h]
  case isFalse h =>
    cases sub with
    | nil => simp at h
    | cons y ys =>
      obtain ⟨ha, hb⟩ | ⟨j, hj, hk, hp, hb⟩ :=
        firstScan_seek (y := y) (ys := ys) (l := seq) (i := 0) (r := { r with count := 0, start := 0 }) rfl
      · left
        rw [hb]
        refine ⟨fun p => ?_, rfl, .inr rfl⟩
        by_contra hne
        obtain ⟨z, hz1, hz2⟩ := commonPrefix_pos.1 (Nat.pos_of_ne_zero hne)
        have : z ∈ seq := List.mem_of_mem_drop (List.mem_of_mem_head? hz1)
        exact ha z this (by simpa using hz2.symm)
      · right
        rw [hb]
        exact ⟨j, hk, hp, by simp [matchAt], by simp [matchAt]⟩

/-! ## BEST_MATCH -/

section
variable {seq sub : List Byte} {thr depth : Nat}

theorem matchAt_suffix (off p : Nat) (h : off ≤ seq.length) :
    matchAt (seq.drop off) (sub.take (seq.length - off)) p = matchAt seq sub (off + p) := by
  unfold matchAt
  rw [List.drop_drop, commonPrefix_take_right]
  rw [List.length_drop]; omega

/-- The matches counted before index `off`. -/
def countedBefore (seq sub : List Byte) (thr off : Nat) : Nat := (List.range off).countP (qualifies seq sub thr)

theorem countedBefore_succ (off : Nat) :
    countedBefore seq sub thr (off + 1) =
      countedBefore seq sub thr off + if qualifies seq sub thr off then 1 else 0 := by
  simp [countedBefore, List.range_succ, List.countP_cons]

theorem countedBefore_skip {off q : Nat} (h : ∀ p, off ≤ p → p < q → qualifies seq sub thr p = false) (hq : off ≤ q) :
    countedBefore seq sub thr q = countedBefore seq sub thr off := by
  induction q, hq using Nat.le_induction with
  | base => rfl
  | succ q hq ih =>
    rw [countedBefore_succ, ih (fun p a b => h p a (by omega)), h q hq (by omega)]; simp

theorem countedBefore_le (off : Nat) : countedBefore seq sub thr off ≤ off := by
  have := List.countP_le_length (p := qualifies seq sub thr) (l := List.range off)
  simpa [countedBefore] using this

theorem countedBefore_mono {a b : Nat} (h : a ≤ b) : countedBefore seq sub thr a ≤ countedBefore seq sub thr b := by
  induction b, h using Nat.le_induction with
  | base => rfl
  | succ b hb ih => rw [countedBefore_succ]; omega

/-- What the scratch registers say between two turns of BEST_MATCH (R89): everything below MS_OFF has been looked at. -/
structure Progress (seq sub : List Byte) (thr depth : Nat) (r : SearchRegs) : Prop where
  off : r.off ≤ seq.length
  found : r.found = countedBefore seq sub thr r.off
  best : (r.bestPos = 0 ∧ r.bestLen = 0 ∧ ∀ p, p < r.off → qualifies seq sub thr p = false) ∨
    (qualifies seq sub thr r.bestPos = true ∧ (depth = 0 ∨ countedBefore seq sub thr r.bestPos < depth) ∧
      r.bestLen = matchAt seq sub r.bestPos ∧ r.bestPos < r.off)
  longest : ∀ p, p < r.off → qualifies seq sub thr p = true →
    matchAt seq sub p ≤ r.bestLen ∧ (matchAt seq sub p = r.bestLen → r.bestPos ≤ p)

theorem qualifies_pos {p : Nat} (h : qualifies seq sub thr p = true) :
    0 < matchAt seq sub p ∧ thr ≤ matchAt seq sub p := by
  simpa [qualifies] using h

theorem not_qualifies {p : Nat} (h : matchAt seq sub p = 0 ∨ matchAt seq sub p < thr) :
    qualifies seq sub thr p = false := by
  simp only [qualifies, Bool.and_eq_false_iff, decide_eq_false_iff_not]
  omega

/-- With everything looked at, the registers hold the result. -/
theorem Progress.isBest {r : SearchRegs} (h : Progress seq sub thr depth r)
    (hrest : ∀ p, r.off ≤ p → ¬ searched seq sub thr depth p) : IsBest seq sub thr depth r.bestPos r.bestLen := by
  have hlt : ∀ p, searched seq sub thr depth p → p < r.off := fun p hp => by
    by_contra hge; exact hrest p (by omega) hp
  refine ⟨?_, fun p hp => h.longest p (hlt p hp) hp.1⟩
  obtain ⟨a, b, c⟩ | ⟨a, b, c, -⟩ := h.best
  · refine .inl ⟨a, b, fun p hp => ?_⟩
    have := c p (hlt p hp)
    rw [hp.1] at this; cases this
  · exact .inr ⟨⟨a, b⟩, c⟩

/-- A turn that finds no qualifying match before `q` only moves MS_OFF (R89 corner case (a)). -/
theorem Progress.skip {r : SearchRegs} {q : Nat} (h : Progress seq sub thr depth r) (hq : r.off ≤ q)
    (hql : q ≤ seq.length) (hno : ∀ p, r.off ≤ p → p < q → qualifies seq sub thr p = false) (c st : Nat) :
    Progress seq sub thr depth { r with off := q, count := c, start := st } where
  off := hql
  found := by rw [h.found]; exact (countedBefore_skip hno hq).symm
  best := by
    obtain ⟨a, b, hc⟩ | ⟨a, b, hc, d⟩ := h.best
    · refine .inl ⟨a, b, fun p hp => ?_⟩
      by_cases hpo : p < r.off
      · exact hc p hpo
      · exact hno p (by omega) hp
    · exact .inr ⟨a, b, hc, Nat.lt_of_lt_of_le d hq⟩
  longest := fun p hp hqp => by
    by_cases hpo : p < r.off
    · exact h.longest p hpo hqp
    · rw [hno p (by omega) hp] at hqp; cases hqp

/-- A counted match at MS_OFF becomes the best where it is longer (R89 corner case (b)). -/
theorem Progress.count {r : SearchRegs} (h : Progress seq sub thr depth r)
    (hq : qualifies seq sub thr r.off = true) (hd : depth = 0 ∨ r.found < depth) :
    Progress seq sub thr depth { countCandidate r.off (matchAt seq sub r.off) r with off := r.off + 1 } := by
  have hpos := (qualifies_pos hq).1
  have hlt := matchAt_lt hpos
  have hrep : replaces (matchAt seq sub r.off) r.bestLen = decide (r.bestLen < matchAt seq sub r.off) := rfl
  constructor
  · exact hlt
  · simp only [countCandidate]
    rw [h.found, countedBefore_succ, if_pos hq]
  · simp only [countCandidate, hrep, decide_eq_true_eq]
    right
    by_cases hl : r.bestLen < matchAt seq sub r.off
    · simp only [if_pos hl]
      exact ⟨hq, by rw [← h.found]; exact hd, by simp, by simp⟩
    · simp only [if_neg hl]
      obtain ⟨-, b, -⟩ | ⟨a, b, c, d⟩ := h.best
      · omega
      · exact ⟨a, b, c, by omega⟩
  · intro p hp hqp
    simp only [countCandidate, hrep, decide_eq_true_eq]
    simp only at hp
    by_cases hpo : p < r.off
    · have := h.longest p hpo hqp
      split <;> omega
    · have hpe : p = r.off := by omega
      subst hpe
      by_cases hl : r.bestLen < matchAt seq sub r.off
      · simp [if_pos hl]
      · simp only [if_neg hl]
        obtain ⟨-, b, -⟩ | ⟨a, b, c, d⟩ := h.best
        · omega
        · exact ⟨by omega, fun _ => by omega⟩

/-- Where the scratch registers end up: indices within `seq`, counts within `sub`, or as they were. -/
structure ScratchWithin (seq sub : List Byte) (r0 r : SearchRegs) : Prop where
  off : r.off ≤ seq.length
  found : r.found ≤ seq.length
  start : r.start ≤ seq.length ∨ r.start = r0.start
  count : r.count ≤ sub.length ∨ r.count = r0.count

/-- BEST_MATCH's loop from any turn on (R89, R91). -/
theorem bestLoop_spec {fuel : Nat} {r : SearchRegs} (h : Progress seq sub thr depth r)
    (hd : depth = 0 ∨ r.found < depth) (hf : seq.length - r.off < fuel) :
    IsBest seq sub thr depth (bestLoop seq sub thr depth fuel r).bestPos (bestLoop seq sub thr depth fuel r).bestLen ∧
      ScratchWithin seq sub r (bestLoop seq sub thr depth fuel r) := by
  induction fuel generalizing r with
  | zero => omega
  | succ fuel ih =>
    have hfound : r.found ≤ seq.length := by
      rw [h.found]; exact (countedBefore_le _).trans h.off
    have hsuf := fun p => matchAt_suffix (seq := seq) (sub := sub) r.off p h.off
    rw [bestLoop]
    obtain ⟨hz, h1, h2⟩ | ⟨p, hz, hp, h1, h2⟩ :=
      firstMatch_spec (seq.drop r.off) (sub.take (seq.length - r.off)) r
    · -- nothing more matches
      rw [h1]
      simp only [if_true]
      have hno : ∀ p, r.off ≤ p → matchAt seq sub p = 0 := fun p hpo => by
        have := hz (p - r.off)
        rw [hsuf] at this
        rwa [Nat.add_sub_cancel' hpo] at this
      have hb := h.isBest fun p hpo hs => by
        have := qualifies_pos hs.1
        rw [hno p hpo] at this; omega
      rcases h2 with h2 | h2 <;> rw [h2]
      · exact ⟨hb, h.off, hfound, .inr rfl, .inr rfl⟩
      · exact ⟨hb, h.off, hfound, .inl (Nat.zero_le _), .inl (Nat.zero_le _)⟩
    · have hsp := hsuf p
      rw [hsp] at hp h1 h2
      have hlt := matchAt_lt hp
      have hle : matchAt seq sub (r.off + p) ≤ sub.length := commonPrefix_le_right _ _
      have hno : ∀ q, r.off ≤ q → q < r.off + p → matchAt seq sub q = 0 := fun q hq1 hq2 => by
        have := hz (q - r.off) (by omega)
        rw [hsuf] at this
        rwa [Nat.add_sub_cancel' hq1] at this
      have hskip := h.skip (q := r.off + p) (by omega) (by omega) (fun q a b => not_qualifies (.inl (hno q a b)))
        (matchAt seq sub (r.off + p)) p
      have hfp : r.found ≤ r.off + p := by
        rw [h.found]; exact (countedBefore_le _).trans (by omega)
      rw [h1, h2]
      simp only [Nat.ne_of_gt hp, if_false]
      by_cases hthr : thr ≤ matchAt seq sub (r.off + p)
      · simp only [if_pos hthr]
        have hq : qualifies seq sub thr (r.off + p) = true := by simp [qualifies, hp, hthr]
        have hcount := hskip.count hq hd
        by_cases hstop : depth ≠ 0 ∧
            (countCandidate (r.off + p) (matchAt seq sub (r.off + p))
              { r with start := p, count := matchAt seq sub (r.off + p) }).found = depth
        · rw [if_pos hstop]
          refine ⟨hcount.isBest fun q hq1 hs => ?_, h.off, by simp only [countCandidate]; omega, .inl (by
            simp only [countCandidate]; omega), .inl hle⟩
          rcases hs.2 with hs | hs
          · exact hstop.1 hs
          · have hm := countedBefore_mono (seq := seq) (sub := sub) (thr := thr) hq1
            have he := hcount.found
            simp only [countCandidate] at he hstop hm
            unfold countedBefore at *
            omega
        · rw [if_neg hstop]
          have hd' : depth = 0 ∨ (countCandidate (r.off + p) (matchAt seq sub (r.off + p))
              { r with start := p, count := matchAt seq sub (r.off + p) }).found < depth := by
            simp only [countCandidate] at hstop ⊢
            omega
          obtain ⟨a, b⟩ := ih hcount hd' (by simp only; omega)
          refine ⟨a, b.off, b.found, ?_, ?_⟩
          · rcases b.start with hb | hb
            · exact .inl hb
            · left; refine hb.trans_le ?_; simp only [countCandidate]; omega
          · rcases b.count with hb | hb
            · exact .inl hb
            · left; exact hb.trans_le hle
      · simp only [if_neg hthr]
        have hnot := not_qualifies (seq := seq) (sub := sub) (thr := thr) (p := r.off + p) (.inr (by omega))
        have hs2 := h.skip (q := r.off + p + 1) (by omega) (by omega)
          (fun q a b => by
            by_cases hqe : q = r.off + p
            · rw [hqe]; exact hnot
            · exact not_qualifies (.inl (hno q a (by omega))))
          (matchAt seq sub (r.off + p)) p
        obtain ⟨a, b⟩ := ih hs2 hd (by simp only; omega)
        refine ⟨a, b.off, b.found, ?_, ?_⟩
        · rcases b.start with hb | hb
          · exact .inl hb
          · left; refine hb.trans_le ?_; simp only; omega
        · rcases b.count with hb | hb
          · exact .inl hb
          · left; exact hb.trans_le hle

/-- BEST_MATCH (R89, R91): the longest counted match, the earliest of equals, and where the scratch registers end. -/
theorem bestMatch_spec (seq sub : List Byte) (thr depth : Nat) (r : SearchRegs) :
    IsBest seq sub thr depth (bestMatch seq sub thr depth r).bestPos (bestMatch seq sub thr depth r).bestLen ∧
      ScratchWithin seq sub r (bestMatch seq sub thr depth r) := by
  have h : Progress seq sub thr depth { r with bestPos := 0, bestLen := 0, found := 0, off := 0 } :=
    ⟨Nat.zero_le _, rfl, .inl ⟨rfl, rfl, by simp⟩, by simp⟩
  obtain ⟨a, b⟩ := bestLoop_spec (fuel := seq.length + 1) h (by simp only; omega) (by simp only; omega)
  exact ⟨a, b.off, b.found, b.start, b.count⟩

/-- What a result of BEST_MATCH is good for (R90, R92): it lies inside `seq`, agrees with `sub`, and is 0 or at least `thr`. -/
theorem IsBest.valid {pos len : Nat} (h : IsBest seq sub thr depth pos len) :
    (len = 0 ∧ pos = 0 ∨ 0 < len ∧ thr ≤ len) ∧ pos + len ≤ seq.length ∧ len ≤ sub.length ∧
      (seq.drop pos).take len = sub.take len := by
  obtain ⟨⟨rfl, rfl, -⟩ | ⟨hs, rfl⟩, -⟩ := h
  · simp
  · have := qualifies_pos hs.1
    have hl := matchAt_le seq sub pos
    have hlt := matchAt_lt this.1
    exact ⟨.inr this, by omega, commonPrefix_le_right _ _, take_commonPrefix _ _⟩

end

end Sys2Proof.Machine
end

