-- ==== Sys2Proof/Laws/Invariant.lean ====
section
/-! SUPPORT. What each instruction of the two controllers keeps: from a good state in its own STATE it is not refused and ends
in a good state, by a result or by a raise. -/

namespace Sys2Proof.Machine

theorem ParamsOk.widths {p : Params} (h : ParamsOk p) (hs : p.sd < 2 ^ 32) :
    p.hb < 2 ^ 5 ∧ p.mlb < 2 ^ 4 ∧ p.sd < 2 ^ 32 ∧ p.thr < 2 ^ 3 ∧ p.h < 2 ^ 32 ∧ p.wc < 2 ^ 16 := by
  have r := h.ranges
  have := r.hbHigh; have := r.mlbHigh; have := r.thrHigh; have := r.capacityHigh; have := r.windowHigh
  refine ⟨by omega, by omega, hs, by omega, by omega, by omega⟩

theorem EncoderBuffer.widths {s : State} (h : EncoderBuffer s) :
    s.mem.hlen < 2 ^ 32 ∧ s.mem.wlen < 2 ^ 16 ∧ s.mem.wcap < 2 ^ 16 := by
  obtain ⟨hp, -, h1, h2, h3, -⟩ := h
  have r := hp.ranges
  have := r.capacityHigh; have := r.windowHigh
  refine ⟨by omega, by omega, by omega⟩

theorem DecoderBuffer.widths {s : State} (h : DecoderBuffer s) :
    s.mem.hlen < 2 ^ 32 ∧ s.mem.wlen < 2 ^ 16 ∧ s.mem.wcap < 2 ^ 16 := by
  obtain ⟨hp, -, h1, h2, h3, -⟩ := h
  have := hp.ranges.capacityHigh
  refine ⟨by omega, by omega, by omega⟩

/-- While a call runs no error is recorded, no end is reached and the cursor is exact. -/
theorem Inv.running {s : State} (h : Inv s) (hb : s.busy = true) :
    s.err = .none ∧ s.cleanEnd = false ∧ s.writer.wcnt = s.writer.bitsWritten % 8 ∧ s.ctl ≠ .error := by
  have hne : s.ctl ≠ .error := fun he => by rw [State.busy, he] at hb; cases hb
  refine ⟨?_, ?_, h.cursor hne, hne⟩
  · by_contra hn
    exact hne (h.err.2 hn)
  · by_contra hc
    rcases h.clean (by simpa using hc) with he | he
    · rw [State.busy, he] at hb; cases hb
    · exact hne he

/-- A good state of a running call, from its parts. -/
theorem Inv.build {t : State} (hcall : CallInv t) (hwid : FitsWidths t) (hw : WriterOk t)
    (hc : t.writer.wcnt = t.writer.bitsWritten % 8) (hr : ReaderOk t) (he : t.err = .none) (hk : t.cleanEnd = false)
    (hne : t.ctl ≠ .error) : Inv t where
  call := hcall
  widths := hwid
  writer := hw
  cursor := fun _ => hc
  reader := hr
  err := by simp [he, hne]
  clean := by simp [hk]

/-- WCNT stays BITS_WRITTEN mod 8 over written bits (R28). -/
theorem Wrote.cursor {bits : Bits} {s t : State} (h : Wrote bits s t) (hs : WriterOk s)
    (hc : s.writer.wcnt = s.writer.bitsWritten % 8) : t.writer.wcnt = t.writer.bitsWritten % 8 := by
  have ht := h.writer hs
  have hl := congrArg List.length h.out
  simp only [outBits, List.length_append, bytesBits_length] at hl
  have h1 := hs.1; have h2 := ht.1; have h3 := ht.2; have h4 := h.count
  omega

theorem RaisedWriting.inv {bits : Bits} {s t : State} (h : RaisedWriting bits s t)
    (hr : s.record.pos < 2 ^ 31 ∧ s.record.len < 2 ^ 16)
    (hs : s.search.off < 2 ^ 32 ∧ s.search.start < 2 ^ 32 ∧ s.search.count < 2 ^ 16 ∧ s.search.found < 2 ^ 32 ∧
      s.search.bestPos < 2 ^ 31 ∧ s.search.bestLen < 2 ^ 16) : Inv t := by
  obtain ⟨u, ho, -, -, rfl, -⟩ := h
  exact raiseError_inv (by rw [ho.record]; exact hr) (by rw [ho.search]; exact hs)

/-! ## Encoder -/

/-- E_SETUP (R95). -/
theorem setupEncoder_inv {s : State} (h : Inv s) (hc : s.ctl = .eSetup) :
    (setupEncoder s).Ends (fun _ t => Inv t) Inv := by
  have hw := h.widths
  obtain ⟨he, hk, hcur, -⟩ := h.running (by rw [State.busy, hc]; rfl)
  have hcall := h.call
  rw [CallInv, hc] at hcall
  obtain ⟨hm, hs⟩ := hcall
  unfold setupEncoder
  split
  case isFalse => exact raiseError_inv hw.2.1 hw.2.2.1
  case isTrue hl =>
    have hp : ParamsOk (paramsOf s.cfg.cfgHb.toNat s.cfg.cfgMlb.toNat s.cfg.cfgSd.toNat) := ⟨hl, rfl⟩
    have hr := hp.ranges
    generalize hp' : paramsOf s.cfg.cfgHb.toNat s.cfg.cfgMlb.toNat s.cfg.cfgSd.toNat = p at hp hr ⊢
    have hsd : p.sd < 2 ^ 32 := by rw [← hp']; exact s.cfg.cfgSd.isLt
    generalize hq : (s.setHdr { hb := s.cfg.cfgHb, mlb := s.cfg.cfgMlb }).setParams p = q
    have hqm : q.mem.buf = [] := by rw [← hq]; simp only [State.setParams_mem, State.setHdr_mem]; rw [hm]
    have hqs : q.srcEof = false := by rw [← hq]; exact hs
    have hqp : q.params = p := by rw [← hq]; rfl
    by_cases hn : 2 * q.params.wc ≤ (sourceComing q).1.length
    · obtain ⟨t, ht, ho, htm, -, hte⟩ := constructReader_ok hqm hqs hn
      simp only
      rw [hq, ht]
      have hlen : t.mem.wf := by
        rw [htm]; simp only [Memory.wf, List.length_take]; omega
      have hbuf : EncoderBuffer (t.setCtl .eWriteHeader) := by
        refine ⟨by rw [State.setCtl_params, ho.params, hqp]; exact hp, hlen, ?_, ?_, ?_, ?_⟩ <;>
          simp only [State.setCtl_params, State.setCtl_mem, State.setCtl_srcEof, ho.params, htm, hqp, hr.windowFits,
            le_refl, implies_true]
      refine Inv.build (t := t.setCtl .eWriteHeader) ⟨hbuf, ?_, ?_⟩ ⟨?_, ?_, ?_, hbuf.widths, ?_, ?_⟩ ?_ ?_ ?_ ?_ ?_ (by simp)
      · simp [htm, ho.params]
      · simp [htm, ho.params]
      · rw [State.setCtl_params, ho.params, hqp]; exact hp.widths hsd
      · rw [State.setCtl_record, ho.record, ← hq]; exact hw.2.1
      · rw [State.setCtl_search, ho.search, ← hq]; exact hw.2.2.1
      · rw [State.setCtl_writer, ho.writer, ← hq]; exact hw.2.2.2.2.1
      · rw [State.setCtl_reader, ho.reader, ← hq]; exact hw.2.2.2.2.2
      · rw [WriterOk, State.setCtl_writer, ho.writer, ← hq]; exact h.writer
      · rw [State.setCtl_writer, ho.writer, ← hq]; exact hcur
      · rw [ReaderOk, State.setCtl_reader, ho.reader, ← hq]; exact h.reader
      · rw [State.setCtl_err, ho.err, ← hq]; exact he
      · rw [State.setCtl_cleanEnd, ho.cleanEnd, ← hq]; exact hk
    · obtain ⟨u, hu, ho, -⟩ := constructReader_short hqm hqs (by omega)
      simp only
      rw [hq, hu]
      exact raiseError_inv (by rw [ho.record, ← hq]; exact hw.2.1) (by rw [ho.search, ← hq]; exact hw.2.2.1)

/-- What writing and a new STATE keep of a good encoder state. -/
theorem Wrote.encoderInv {bits : Bits} {s t : State} {c : Ctl} (h : Inv s) (hb : s.busy = true) (ht : Wrote bits s t)
    (hbuf : EncoderBuffer s) (hcall : CallInv (t.setCtl c)) (hne : c ≠ .error) : Inv (t.setCtl c) := by
  obtain ⟨he, hk, hcur, -⟩ := h.running hb
  have hw := h.widths
  have ho := ht.only
  have hwt := ht.writer h.writer
  refine Inv.build hcall ⟨?_, ?_, ?_, ?_, hwt.2, ?_⟩ hwt (ht.cursor h.writer hcur) ?_ ?_ ?_ hne
  · rw [State.setCtl_params, ho.params]; exact hw.1
  · rw [State.setCtl_record, ho.record]; exact hw.2.1
  · rw [State.setCtl_search, ho.search]; exact hw.2.2.1
  · rw [State.setCtl_mem, ho.mem]; exact hbuf.widths
  · rw [State.setCtl_reader, ho.reader]; exact hw.2.2.2.2.2
  · rw [ReaderOk, State.setCtl_reader, ho.reader]; exact h.reader
  · rw [State.setCtl_err, ho.err]; exact he
  · rw [State.setCtl_cleanEnd, ho.cleanEnd]; exact hk

theorem EncoderBuffer.transport {s t : State} (h : EncoderBuffer s) (hp : t.params = s.params) (hm : t.mem = s.mem)
    (hs : t.srcEof = s.srcEof) : EncoderBuffer t := by
  unfold EncoderBuffer; rw [hp, hm, hs]; exact h

theorem writeHeaderFields_ends (hb mlb : Nat) (s : State) :
    Writes (fieldBits 5 hb ++ fieldBits 4 mlb) s (writeHeaderFields hb mlb s) :=
  (writeBits_ends hb s rfl).bind fun _ t _ => writeBits_ends mlb t rfl

/-- E_WRITE_HEADER (R96). -/
theorem writeHeader_inv {s : State} (h : Inv s) (hc : s.ctl = .eWriteHeader) :
    ((writeHeaderFields s.params.hb s.params.mlb s).bind fun _ s1 => .ok () (s1.setCtl .ePrimeHistory)).Ends
      (fun _ t => Inv t) Inv := by
  have hcall := h.call
  rw [CallInv, hc] at hcall
  obtain ⟨hbuf, h1, h2⟩ := hcall
  refine ((writeHeaderFields_ends _ _ s).ends.mono (fun _ _ x => x) fun t ht => ht.inv h.widths.2.1 h.widths.2.2.1).bind ?_
  rintro - t ⟨ht, -⟩
  have ho := ht.only
  refine ht.encoderInv h (by rw [State.busy, hc]; rfl) hbuf ⟨hbuf.transport ?_ ?_ ?_, ?_, ?_⟩ (by simp)
  · exact ho.params
  · exact ho.mem
  · exact ho.srcEof
  · rw [State.setCtl_mem, State.setCtl_params, ho.mem, ho.params]; exact h1
  · rw [State.setCtl_mem, State.setCtl_params, ho.mem, ho.params]; exact h2

/-- E_PRIME_HISTORY (R97). -/
theorem primeHistory_inv {s : State} (h : Inv s) (hc : s.ctl = .ePrimeHistory) :
    ((writeBytes s.mem.hist s).bind fun _ s1 => .ok () (afterRecord s1)).Ends (fun _ t => Inv t) Inv := by
  have hcall := h.call
  rw [CallInv, hc] at hcall
  obtain ⟨hbuf, h1, h2⟩ := hcall
  refine ((writeBytes_ends _ s).ends.mono (fun _ _ x => x) fun t ht => ht.inv h.widths.2.1 h.widths.2.2.1).bind ?_
  rintro - t ⟨ht, -⟩
  have ho := ht.only
  have hr := hbuf.1.ranges
  have hpos : 0 < t.mem.wlen := by rw [ho.mem, h2]; have := hr.windowLow; omega
  rw [afterRecord, if_pos hpos]
  exact ht.encoderInv h (by rw [State.busy, hc]; rfl) hbuf
    ⟨hbuf.transport ho.params ho.mem ho.srcEof, hpos⟩ (by simp)

@[simp] theorem countDraw_params (l : Nat) (s : State) : (countDraw l s).params = s.params := by
  unfold countDraw; split <;> rfl

theorem lengthField_biased {l : Nat} {s : State} (h : s.params.thr ≤ l) : lengthField l s = l - s.params.thr := if_pos h

theorem countDraw_biased {l : Nat} {s : State} (h : s.params.thr ≤ l) : countDraw l s = s := if_pos h

theorem countDraw_free {l : Nat} {s : State} (h : l < s.params.thr) : countDraw l s = s.setFreeCount (s.freeCount + 1) :=
  if_neg (Nat.not_le.2 h)

/-- The free length field fits its width (log 35). -/
theorem lengthField_free {l : Nat} {s : State} (h : l < s.params.thr) : lengthField l s < 2 ^ s.params.mlb := by
  rw [lengthField, if_neg (Nat.not_le.2 h)]; exact Nat.mod_lt _ (by positivity)

/-- EMIT_REFERENCE writes its record, whatever the length (R99, log 35). -/
theorem writeReference_writes {p l : Nat} {s : State} (hb : fieldWidthOk s.params.hb = true)
    (hm : fieldWidthOk s.params.mlb = true) :
    Writes (false :: (fieldBits s.params.hb p ++ fieldBits s.params.mlb (lengthField l s)))
      ((countDraw l s).setRecord { s.record with tag := false, pos := p, len := l }) (writeReference p l s) := by
  refine (writeBit_ends false _).bind fun _ t ht => ?_
  have e1 : t.params = s.params := by rw [ht.only.params, State.setRecord_params, countDraw_params]
  rw [e1]
  refine (writeBits_ends p t hb).bind fun _ u hu => ?_
  rw [hu.only.params, e1]
  exact writeBits_ends _ u hm

theorem writeReference_ends {p l : Nat} {s : State} (hl : s.params.thr ≤ l) (hb : fieldWidthOk s.params.hb = true)
    (hm : fieldWidthOk s.params.mlb = true) :
    Writes (encode s.params.hb s.params.mlb (.reference p (l - s.params.thr)))
      (s.setRecord { s.record with tag := false, pos := p, len := l }) (writeReference p l s) := by
  have h := writeReference_writes (p := p) (l := l) hb hm
  rw [lengthField_biased hl, countDraw_biased hl] at h
  exact h

theorem writeLiteral_ends (b : Byte) (s : State) :
    Writes (encode s.params.hb s.params.mlb (.literal b)) (s.setRecord { s.record with tag := true, byte := b })
      (writeLiteral b s) :=
  (writeBit_ends true _).bind fun _ t _ => writeByte_ends b t

/-- What the advance after a record keeps (R82, R94, R98). -/
theorem advance_inv {bits : Bits} {s s1 t : State} {m : Nat} (h : Inv s) (hc : s.ctl = .eEmitRecord)
    (hbuf : EncoderBuffer s) (h1 : 1 ≤ m) (hm : m ≤ s.mem.wlen)
    (hs1 : s1 = ((s.setSearch s1.search).setRecord s1.record)) (ht : Wrote bits s1 t)
    (hr : s1.record.pos < 2 ^ 31 ∧ s1.record.len < 2 ^ 16)
    (hs : s1.search.off < 2 ^ 32 ∧ s1.search.start < 2 ^ 32 ∧ s1.search.count < 2 ^ 16 ∧ s1.search.found < 2 ^ 32 ∧
      s1.search.bestPos < 2 ^ 31 ∧ s1.search.bestLen < 2 ^ 16) :
    ((advanceReader m t).bind fun _ s3 => .ok () (afterRecord s3)).Ends (fun _ t => Inv t) Inv := by
  obtain ⟨he, hk, hcur, -⟩ := h.running (by rw [State.busy, hc]; rfl)
  have ho := ht.only
  have hsub : s1.mem = s.mem ∧ s1.params = s.params ∧ s1.writer = s.writer ∧ s1.reader = s.reader ∧
      s1.srcEof = s.srcEof ∧ s1.err = s.err ∧ s1.cleanEnd = s.cleanEnd := by
    rw [hs1]; exact ⟨rfl, rfl, rfl, rfl, rfl, rfl, rfl⟩
  obtain ⟨e1, e2, e3, e4, e5, e6, e7⟩ := hsub
  obtain ⟨hp, hwf, b1, b2, b3, b4⟩ := hbuf
  have tm : t.mem = s.mem := ho.mem.trans e1
  have tp : t.params = s.params := ho.params.trans e2
  have ts : t.srcEof = s.srcEof := ho.srcEof.trans e5
  have hws1 : WriterOk s1 := by rw [WriterOk, e3]; exact h.writer
  have hwt := ht.writer hws1
  have hct := ht.cursor hws1 (by rw [e3]; exact hcur)
  refine ((advanceReader_ends (m := m) (s := t) h1 (by rw [tm]; exact hm) (by rw [tm]; exact hwf)).mono
    (fun _ _ x => x) ?_).bind ?_
  · rintro _ ⟨u, hu, rfl⟩
    exact raiseError_inv (by rw [hu.record, ho.record]; exact hr) (by rw [hu.search, ho.search]; exact hs)
  · rintro - u ⟨hu, uwf, uh, k, hkm, uw, uc, ue⟩
    have up : u.params = s.params := hu.params.trans tp
    rw [tm] at uh uw uc
    rw [tp] at uh
    have hbu : EncoderBuffer u := by
      refine ⟨by rw [up]; exact hp, uwf, by rw [up, uh]; exact Nat.min_le_left _ _, by rw [up, uw]; omega,
        by rw [uw, uc]; omega, fun hf => ?_⟩
      obtain ⟨hkm, hse⟩ := ue hf
      rw [ts] at hse
      rw [up, uc, b4 hse]; omega
    have hsd : u.params.sd < 2 ^ 32 := by rw [up]; exact h.widths.1.2.2.1
    have build : ∀ c, c ≠ .error → CallInv (u.setCtl c) → Inv (u.setCtl c) := fun c hce hci => by
      refine Inv.build hci ⟨?_, ?_, ?_, hbu.widths, ?_, ?_⟩ ?_ ?_ ?_ ?_ ?_ hce
      · exact hbu.1.widths hsd
      · rw [State.setCtl_record, hu.record, ho.record]; exact hr
      · rw [State.setCtl_search, hu.search, ho.search]; exact hs
      · rw [State.setCtl_writer, hu.writer]; exact hwt.2
      · rw [State.setCtl_reader, hu.reader, ho.reader, e4]; exact h.widths.2.2.2.2.2
      · rw [WriterOk, State.setCtl_writer, hu.writer]; exact hwt
      · rw [State.setCtl_writer, hu.writer]; exact hct
      · rw [ReaderOk, State.setCtl_reader, hu.reader, ho.reader, e4]; exact h.reader
      · rw [State.setCtl_err, hu.err, ho.err, e6]; exact he
      · rw [State.setCtl_cleanEnd, hu.cleanEnd, ho.cleanEnd, e7]; exact hk
    rw [afterRecord]
    split
    case isTrue hpos => exact build _ (by simp) ⟨hbu, hpos⟩
    case isFalse hz => exact build _ (by simp) ⟨hbu, by rw [State.setCtl_mem]; omega⟩

/-- E_EMIT_RECORD (R98). -/
theorem emitRecord_inv {s : State} (h : Inv s) (hc : s.ctl = .eEmitRecord) :
    (emitRecord s).Ends (fun _ t => Inv t) Inv := by
  have hw := h.widths
  have hcall := h.call
  rw [CallInv, hc] at hcall
  obtain ⟨hbuf, hpos⟩ := hcall
  have hp := hbuf.1.ranges
  have hwf := hbuf.2.1
  obtain ⟨hbest, hscr⟩ := bestMatch_spec s.mem.hist s.mem.win s.params.thr s.params.sd s.search
  unfold emitRecord
  generalize bestMatch s.mem.hist s.mem.win s.params.thr s.params.sd s.search = r at hbest hscr ⊢
  obtain ⟨v1, v2, v3, -⟩ := hbest.valid
  rw [Memory.hist_length hwf] at v2
  rw [Memory.win_length hwf] at v3
  have hh : s.mem.hlen ≤ 2 ^ 31 := hbuf.2.2.1.trans hp.capacityHigh
  have hwl : s.mem.wlen ≤ 32773 := hbuf.2.2.2.1.trans hp.windowHigh
  have hpl : r.bestPos < 2 ^ 31 := by
    rcases v1 with ⟨-, v1⟩ | ⟨v1, -⟩ <;> omega
  have hs : r.off < 2 ^ 32 ∧ r.start < 2 ^ 32 ∧ r.count < 2 ^ 16 ∧ r.found < 2 ^ 32 ∧ r.bestPos < 2 ^ 31 ∧
      r.bestLen < 2 ^ 16 := by
    have h1 := hscr.off; have h2 := hscr.found; have h3 := hscr.start; have h4 := hscr.count
    rw [Memory.hist_length hwf] at h1 h2 h3
    rw [Memory.win_length hwf] at h4
    have := hw.2.2.1
    refine ⟨by omega, ?_, ?_, by omega, hpl, by omega⟩
    · rcases h3 with h3 | h3 <;> omega
    · rcases h4 with h4 | h4 <;> omega
  simp only
  split
  case isTrue hl =>
    have hthr : s.params.thr ≤ r.bestLen := by
      rcases v1 with ⟨v1, -⟩ | ⟨-, v1⟩
      · omega
      · exact v1
    have hrec : r.bestPos < 2 ^ 31 ∧ r.bestLen < 2 ^ 16 := ⟨hpl, hs.2.2.2.2.2⟩
    refine Res.Ends.bind ((writeReference_ends (p := r.bestPos) (l := r.bestLen) (s := s.setSearch r) hthr hp.hbWidth
      hp.mlbWidth).ends.mono (fun _ _ x => x) fun t ht => ht.inv hrec hs) ?_
    rintro - t ⟨ht, -⟩
    exact advance_inv h hc hbuf hl v3 rfl ht hrec hs
  case isFalse hl =>
    cases hwin : s.mem.win with
    | nil =>
      have := Memory.win_length hwf
      rw [hwin] at this; simp at this; omega
    | cons b bs =>
      refine Res.Ends.bind ((writeLiteral_ends b (s.setSearch r)).ends.mono (fun _ _ x => x) fun t ht => ht.inv hw.2.1 hs) ?_
      rintro - t ⟨ht, -⟩
      exact advance_inv h hc hbuf (le_refl 1) hpos rfl ht hw.2.1 hs

/-- The Ending completes the last byte (R101). -/
theorem writeEnding_ends {s : State} (hs : WriterOk s) (hc : s.writer.wcnt = s.writer.bitsWritten % 8) :
    Writes (if s.writer.bitsWritten % 8 = 0 then [] else true :: List.replicate (7 - s.writer.bitsWritten % 8) false) s
      (writeEnding s) := by
  by_cases h0 : s.writer.bitsWritten % 8 = 0
  · rw [writeEnding, if_neg (c := _ % 8 ≠ 0) (by omega), if_pos h0]
    exact Writes.nil () s
  · rw [writeEnding, if_pos (c := _ % 8 ≠ 0) h0, if_neg h0]
    refine (writeBit_ends true s).bind fun _ t ht => ?_
    have hwt := ht.writer hs
    have hct := ht.counted hs
    rw [List.length_singleton] at hct
    have e : 7 - s.writer.bitsWritten % 8 = (8 - t.writer.wcnt) % 8 := by omega
    rw [e]
    exact padToByte_ends hwt

/-- The Ending leaves no pending bit (R101). -/
theorem Wrote.ended {s t : State} (hs : WriterOk s) (hc : s.writer.wcnt = s.writer.bitsWritten % 8)
    (h : Wrote (if s.writer.bitsWritten % 8 = 0 then [] else
      true :: List.replicate (7 - s.writer.bitsWritten % 8) false) s t) : t.writer.wcnt = 0 := by
  have := h.counted hs
  split at this
  · simp at this; omega
  · simp at this; omega

/-- E_WRITE_ENDING (R101). -/
theorem writeEnding_inv {s : State} (h : Inv s) (hc : s.ctl = .eWriteEnding) :
    ((writeEnding s).bind fun _ s1 => .ok () (s1.setCtl .eFlush)).Ends (fun _ t => Inv t) Inv := by
  have hb : s.busy = true := by rw [State.busy, hc]; rfl
  have hcall := h.call
  rw [CallInv, hc] at hcall
  obtain ⟨hbuf, h1⟩ := hcall
  refine ((writeEnding_ends h.writer (h.running hb).2.2.1).ends.mono (fun _ _ x => x) fun t ht =>
    ht.inv h.widths.2.1 h.widths.2.2.1).bind ?_
  rintro - t ⟨ht, -⟩
  have hz := ht.ended h.writer (h.running hb).2.2.1
  have ho := ht.only
  exact ht.encoderInv h hb hbuf ⟨hbuf.transport ho.params ho.mem ho.srcEof, by
    rw [State.setCtl_mem, ho.mem]; exact h1, hz⟩ (by simp)

/-- A flush, then DONE (R102, R114). -/
theorem flushDone_inv {s : State} (hw : FitsWidths s) (hr : WriterOk s)
    (hc : s.writer.wcnt = s.writer.bitsWritten % 8) (he : s.err = .none) :
    ((snkFlush s).bind fun _ s1 => .ok () (enterDone s1)).Ends (fun _ t => Inv t) Inv := by
  refine ((snkFlush_ends s).mono (fun _ _ x => x) ?_).bind ?_
  · rintro _ ⟨r, rfl⟩
    exact raiseError_inv hw.2.1 hw.2.2.1
  · rintro - _ ⟨r, rfl⟩
    exact enterDone_inv hw hr hc he

/-- E_FLUSH (R102). -/
theorem flush_inv {s : State} (h : Inv s) (hc : s.ctl = .eFlush) :
    ((snkFlush s).bind fun _ s1 => .ok () (enterDone s1)).Ends (fun _ t => Inv t) Inv :=
  have hr := h.running (by rw [State.busy, hc]; rfl)
  flushDone_inv h.widths h.writer hr.2.2.1 hr.1

/-! ## Decoder -/

theorem RaisedReading.inv {e : ErrorClass} {s t : State} (h : RaisedReading e s t)
    (hr : s.record.pos < 2 ^ 31 ∧ s.record.len < 2 ^ 16)
    (hs : s.search.off < 2 ^ 32 ∧ s.search.start < 2 ^ 32 ∧ s.search.count < 2 ^ 16 ∧ s.search.found < 2 ^ 32 ∧
      s.search.bestPos < 2 ^ 31 ∧ s.search.bestLen < 2 ^ 16) : Inv t := by
  obtain ⟨u, ho, rfl⟩ := h
  exact raiseError_inv (by rw [ho.record]; exact hr) (by rw [ho.search]; exact hs)

/-- What reading keeps, whatever header, record and STATE are set afterwards. -/
theorem OnlyRead.keeps {s t : State} (h : OnlyRead s t) : t.writer = s.writer ∧ t.err = s.err ∧
    t.cleanEnd = s.cleanEnd ∧ t.mem = s.mem ∧ t.params = s.params ∧ t.record = s.record ∧ t.search = s.search :=
  ⟨h.writer, h.err, h.cleanEnd, h.mem, h.params, h.record, h.search⟩

/-- A read whose Eof is TruncatedInput (R113), inside the decoder. -/
theorem needField_inv {n : Nat} {s : State} {f : Nat → State → Res Unit} (hn : fieldWidthOk n = true)
    (hr : s.record.pos < 2 ^ 31 ∧ s.record.len < 2 ^ 16)
    (hs : s.search.off < 2 ^ 32 ∧ s.search.start < 2 ^ 32 ∧ s.search.count < 2 ^ 16 ∧ s.search.found < 2 ^ 32 ∧
      s.search.bestPos < 2 ^ 31 ∧ s.search.bestLen < 2 ^ 16) {P : Unit → State → Prop}
    (hf : ∀ v t, v < 2 ^ n → OnlyRead s t → (ReaderOk s → ReaderOk t) → (f v t).Ends P Inv) :
    (needField (readBits n s) f).Ends P Inv := by
  refine ((readBits_ends s hn).mono (fun _ _ x => x) fun t ht => ht.inv hr hs).bind ?_
  rintro v t ⟨ho, hro, hv⟩
  cases v with
  | eof k => exact raiseError_inv (by rw [ho.record]; exact hr) (by rw [ho.search]; exact hs)
  | val v => exact hf v t (hv v rfl) ho hro

/-- D_READ_HEADER (R105, R106). -/
theorem readHeader_inv {s : State} (h : Inv s) (hc : s.ctl = .dReadHeader) :
    (readHeader s).Ends (fun _ t => Inv t) Inv := by
  have hw := h.widths
  obtain ⟨he, hk, hcur, -⟩ := h.running (by rw [State.busy, hc]; rfl)
  have hcall := h.call
  rw [CallInv, hc] at hcall
  obtain ⟨hm, -⟩ := hcall
  refine needField_inv rfl hw.2.1 hw.2.2.1 fun a t _ ho hro => ?_
  obtain ⟨o1, o2, o3, o4, o5, o6, o7⟩ := ho.keeps
  refine needField_inv rfl (by rw [State.setHdr_record, o6]; exact hw.2.1)
    (by rw [State.setHdr_search, o7]; exact hw.2.2.1) fun b u _ hu hru => ?_
  obtain ⟨u1, u2, u3, u4, u5, u6, u7⟩ := hu.keeps
  simp only [State.setHdr_writer, State.setHdr_err, State.setHdr_cleanEnd, State.setHdr_mem, State.setHdr_params,
    State.setHdr_record, State.setHdr_search, o1, o2, o3, o4, o5, o6, o7] at u1 u2 u3 u4 u5 u6 u7
  have hrd : ReaderOk u := hru (hro h.reader)
  rw [acceptHeader]
  split
  case isFalse => exact raiseError_inv (by rw [State.setHdr_record, u6]; exact hw.2.1) (by
    rw [State.setHdr_search, u7]; exact hw.2.2.1)
  case isTrue hl =>
    have hp : ParamsOk (paramsOf (u.setHdr { u.hdr with mlb := BitVec.ofNat 4 b }).hdr.hb.toNat
        (u.setHdr { u.hdr with mlb := BitVec.ofNat 4 b }).hdr.mlb.toNat
        (u.setHdr { u.hdr with mlb := BitVec.ofNat 4 b }).params.sd) := ⟨hl, rfl⟩
    have hf : (⟨[], 0, 0, 0⟩ : Memory) = u.mem := by rw [u4]; exact hm.symm
    refine Inv.build (t := State.setCtl _ .dInit) ⟨hf.symm, hp⟩ ⟨hp.widths ?_, ?_, ?_, ?_, ?_, ?_⟩ ?_ ?_ hrd ?_ ?_ (by simp)
    · simp only [paramsOf, State.setHdr_params, u5]; exact hw.1.2.2.1
    · simp only [State.setCtl_record, State.setParams_record, State.setHdr_record, u6]; exact hw.2.1
    · simp only [State.setCtl_search, State.setParams_search, State.setHdr_search, u7]; exact hw.2.2.1
    · simp only [State.setCtl_mem, State.setParams_mem, State.setHdr_mem, u4]; exact hw.2.2.2.1
    · simp only [State.setCtl_writer, State.setParams_writer, State.setHdr_writer, u1]; exact hw.2.2.2.2.1
    · exact Nat.lt_of_le_of_lt hrd.2 (by decide)
    · rw [WriterOk]; simp only [State.setCtl_writer, State.setParams_writer, State.setHdr_writer, u1]; exact h.writer
    · simp only [State.setCtl_writer, State.setParams_writer, State.setHdr_writer, u1]; exact hcur
    · simp only [State.setCtl_err, State.setParams_err, State.setHdr_err, u2]; exact he
    · simp only [State.setCtl_cleanEnd, State.setParams_cleanEnd, State.setHdr_cleanEnd, u3]; exact hk

/-- From a state in the middle of D_INIT: `k` priming bytes are in the history, `n` are to come (R107). -/
theorem readPriming_inv {n k : Nat} {s : State} (hp : ParamsOk s.params) (hsd : s.params.sd < 2 ^ 32)
    (hwf : s.mem.wf) (hl : s.mem.hlen = k) (hw0 : s.mem.wlen = 0) (hc0 : s.mem.wcap = 0) (hkn : k + n = s.params.wc)
    (hr : s.record.pos < 2 ^ 31 ∧ s.record.len < 2 ^ 16)
    (hs : s.search.off < 2 ^ 32 ∧ s.search.start < 2 ^ 32 ∧ s.search.count < 2 ^ 16 ∧ s.search.found < 2 ^ 32 ∧
      s.search.bestPos < 2 ^ 31 ∧ s.search.bestLen < 2 ^ 16) (hwr : WriterOk s)
    (hcur : s.writer.wcnt = s.writer.bitsWritten % 8) (hrd : ReaderOk s) (he : s.err = .none) (hk : s.cleanEnd = false) :
    ((readPriming n s).bind fun _ s1 => .ok () (s1.setCtl .dReadRecord)).Ends (fun _ t => Inv t) Inv := by
  have hrg := hp.ranges
  induction n generalizing s k with
  | zero =>
    have hd : DecoderBuffer (s.setCtl .dReadRecord) :=
      ⟨hp, hwf, by rw [State.setCtl_mem, State.setCtl_params]; have := hrg.windowFits; omega, hw0, hc0, by
        rw [State.setCtl_mem, State.setCtl_params]; omega⟩
    exact Inv.build (t := s.setCtl .dReadRecord) hd
      ⟨hp.widths hsd, hr, hs, hd.widths, hwr.2, Nat.lt_of_le_of_lt hrd.2 (by decide)⟩ hwr hcur hrd he hk (by simp)
  | succ n ih =>
    have key : (needField (readByte s) fun v s1 => (deliverByte (BitVec.ofNat 8 v) s1).bind fun _ s2 =>
        (readPriming n s2).bind fun _ s1 => .ok () (s1.setCtl .dReadRecord)).Ends (fun _ t => Inv t) Inv := by
      refine needField_inv rfl hr hs fun v t _ ho hro => ?_
      obtain ⟨o1, o2, o3, o4, o5, o6, o7⟩ := ho.keeps
      refine Res.Ends.bind (P := fun _ u => ∃ w, OnlyWrote t w ∧ w.writer = t.writer ∧
          u = pushHistory [BitVec.ofNat 8 v] w) ?_ ?_
      · refine Res.Ends.bind ((snkWrite_ends _ t).mono (fun _ _ x => x) ?_) ?_
        · rintro _ ⟨u, hu, -, -, rfl, -⟩
          exact raiseError_inv (by rw [hu.record, o6]; exact hr) (by rw [hu.search, o7]; exact hs)
        · rintro - u ⟨hu, hw, -⟩
          exact ⟨u, hu, hw, rfl⟩
      · rintro - _ ⟨w, hw, hww, rfl⟩
        have e1 : w.mem = s.mem := hw.mem.trans o4
        have e2 : w.params = s.params := hw.params.trans o5
        obtain ⟨p1, -, -, p4, p5, p6⟩ := Memory.push_spec (m := w.mem) (by rw [e1]; exact hwf)
          (by rw [e1]; exact hw0) [BitVec.ofNat 8 v] w.params.h
        rw [e1] at p4 p6
        have hfit := hrg.windowFits
        refine ih (k := k + 1) (s := pushHistory [BitVec.ofNat 8 v] w) (by rw [pushHistory, State.setMem_params, e2]; exact hp)
          (by rw [pushHistory, State.setMem_params, e2]; exact hsd) p1 ?_ p5
          (by rw [pushHistory, State.setMem_mem, e1]; exact p6.trans hc0)
          (by rw [pushHistory, State.setMem_params, e2]; omega)
          (by rw [pushHistory, State.setMem_record, hw.record, o6]; exact hr)
          (by rw [pushHistory, State.setMem_search, hw.search, o7]; exact hs) ?_ ?_ ?_ ?_ ?_
          (by rw [pushHistory, State.setMem_params, e2]; exact hrg)
        · rw [pushHistory, State.setMem_mem, e1, p4, e2]
          simp only [List.length_cons, List.length_nil]; omega
        · rw [WriterOk, pushHistory, State.setMem_writer, hww, o1]; exact hwr
        · rw [pushHistory, State.setMem_writer, hww, o1]; exact hcur
        · rw [ReaderOk, pushHistory, State.setMem_reader, hw.reader]; exact hro hrd
        · rw [pushHistory, State.setMem_err, hw.err, o2]; exact he
        · rw [pushHistory, State.setMem_cleanEnd, hw.cleanEnd, o3]; exact hk
    have hassoc : ((readPriming (n + 1) s).bind fun _ s1 => Res.ok () (s1.setCtl .dReadRecord)) =
        needField (readByte s) fun v s1 => (deliverByte (BitVec.ofNat 8 v) s1).bind fun _ s2 =>
          (readPriming n s2).bind fun _ s1 => .ok () (s1.setCtl .dReadRecord) := by
      rw [readPriming, needField, needField]
      cases readByte s with
      | ok r t =>
        cases r with
        | eof k => rfl
        | val v =>
          simp only [Res.bind_ok]
          cases deliverByte (BitVec.ofNat 8 v) t <;> rfl
      | raised t => rfl
      | refused r => rfl
    rw [hassoc]; exact key

/-- D_INIT (R107). -/
theorem init_inv {s : State} (h : Inv s) (hc : s.ctl = .dInit) :
    ((readPriming s.params.wc s).bind fun _ s1 => .ok () (s1.setCtl .dReadRecord)).Ends (fun _ t => Inv t) Inv := by
  have hw := h.widths
  obtain ⟨he, hk, hcur, -⟩ := h.running (by rw [State.busy, hc]; rfl)
  have hcall := h.call
  rw [CallInv, hc] at hcall
  obtain ⟨hm, hp⟩ := hcall
  have hm : s.mem = ⟨[], 0, 0, 0⟩ := hm
  exact readPriming_inv (k := 0) hp hw.1.2.2.1 (by rw [hm]; rfl) (by rw [hm]) (by rw [hm]) (by rw [hm]) (by simp) hw.2.1
    hw.2.2.1 h.writer hcur h.reader he hk

/-- A state of the decoder between its own steps. -/
structure Decoding (s : State) : Prop where
  buffer : DecoderBuffer s
  sd : s.params.sd < 2 ^ 32
  record : s.record.pos < 2 ^ 31 ∧ s.record.len < 2 ^ 16
  search : s.search.off < 2 ^ 32 ∧ s.search.start < 2 ^ 32 ∧ s.search.count < 2 ^ 16 ∧ s.search.found < 2 ^ 32 ∧
    s.search.bestPos < 2 ^ 31 ∧ s.search.bestLen < 2 ^ 16
  writer : WriterOk s
  cursor : s.writer.wcnt = s.writer.bitsWritten % 8
  reader : ReaderOk s
  err : s.err = .none
  clean : s.cleanEnd = false

theorem Decoding.widths {s : State} (h : Decoding s) : FitsWidths s :=
  ⟨h.buffer.1.widths h.sd, h.record, h.search, h.buffer.widths, h.writer.2, Nat.lt_of_le_of_lt h.reader.2 (by decide)⟩

theorem Decoding.of {s : State} (h : Inv s) (hb : s.busy = true) (hd : DecoderBuffer s) : Decoding s :=
  have r := h.running hb
  ⟨hd, h.widths.1.2.2.1, h.widths.2.1, h.widths.2.2.1, h.writer, r.2.2.1, h.reader, r.1, r.2.1⟩

theorem Decoding.read {s t : State} (h : Decoding s) (ho : OnlyRead s t) (hr : ReaderOk s → ReaderOk t) : Decoding t := by
  obtain ⟨o1, o2, o3, o4, o5, o6, o7⟩ := ho.keeps
  exact ⟨by unfold DecoderBuffer; rw [o4, o5]; exact h.buffer, by rw [o5]; exact h.sd, by rw [o6]; exact h.record,
    by rw [o7]; exact h.search, by unfold WriterOk; rw [o1]; exact h.writer, by rw [o1]; exact h.cursor, hr h.reader,
    by rw [o2]; exact h.err, by rw [o3]; exact h.clean⟩

theorem Decoding.setRecord {s : State} (h : Decoding s) {x : RecordRegs} (hx : x.pos < 2 ^ 31 ∧ x.len < 2 ^ 16) :
    Decoding (s.setRecord x) :=
  ⟨h.buffer, h.sd, hx, h.search, h.writer, h.cursor, h.reader, h.err, h.clean⟩

/-- The decoder in a new STATE. -/
theorem Decoding.inv {s : State} {c : Ctl} (h : Decoding s) (hc : CallInv (s.setCtl c)) (hne : c ≠ .error) :
    Inv (s.setCtl c) :=
  Inv.build hc h.widths h.writer h.cursor h.reader h.err h.clean hne

/-- A clean end (R112). -/
theorem endCleanly_inv {s : State} (h : Decoding s) : (endCleanly s).Ends (fun _ t => Inv t) Inv :=
  flushDone_inv (s := s.setCleanEnd true) h.widths h.writer h.cursor h.err

/-- READ_LITERAL with the tag taken (R109). -/
theorem readLiteral_inv {s : State} (h : Decoding s) (ht : s.record.tag = true) :
    (readLiteral s).Ends (fun _ t => Inv t) Inv := by
  refine ((readBits_ends s rfl).mono (fun _ _ x => x) fun t ht => ht.inv h.record h.search).bind ?_
  rintro v t ⟨ho, hro, -⟩
  have hd := h.read ho hro
  cases v with
  | eof k => exact endCleanly_inv hd
  | val v =>
    refine Decoding.inv (hd.setRecord ?_) ⟨hd.buffer, fun hf => ?_⟩ (by simp)
    · exact hd.record
    · simp only [State.setCtl_record, State.setRecord_record, ho.record, ht] at hf; cases hf

/-- READ_REFERENCE with the tag taken (R110). -/
theorem readReference_inv {s : State} (h : Decoding s) : (readReference s).Ends (fun _ t => Inv t) Inv := by
  have hp := h.buffer.1.ranges
  refine needField_inv hp.hbWidth h.record h.search fun p t hpv ho hro => ?_
  have hd := h.read ho hro
  have hp31 : p < 2 ^ 31 := hpv.trans_le (Nat.pow_le_pow_right (by omega) hp.hbHigh)
  have hd2 := hd.setRecord (x := { t.record with pos := p }) ⟨hp31, hd.record.2⟩
  rw [ho.params]
  refine needField_inv hp.mlbWidth hd2.record hd2.search fun e u hev hu hru => ?_
  have hd3 := hd2.read hu hru
  have hup : u.params = s.params := hu.params.trans ho.params
  have hel : e + u.params.thr ≤ u.params.wc := by
    rw [hup]; have := hp.window; omega
  have hd4 := hd3.setRecord (x := { u.record with len := e + u.params.thr })
    ⟨hd3.record.1, by rw [hup] at *; have := hp.windowHigh; simp only; omega⟩
  rw [acceptReference]
  split
  case isTrue => exact raiseError_inv hd4.record hd4.search
  case isFalse hle =>
    refine Decoding.inv hd4 ⟨hd3.buffer, fun _ => ⟨by simpa using hle, ?_, hel⟩⟩ (by simp)
    simp only [State.setCtl_params, State.setRecord_params, State.setCtl_record, State.setRecord_record]; omega

/-- D_READ_RECORD (R108 to R110, R112). -/
theorem readRecord_inv {s : State} (h : Inv s) (hc : s.ctl = .dReadRecord) :
    (readRecord s).Ends (fun _ t => Inv t) Inv := by
  have hcall := h.call
  rw [CallInv, hc] at hcall
  have hd := Decoding.of h (by rw [State.busy, hc]; rfl) hcall
  refine ((readBit_ends s).mono (fun _ _ x => x) fun t ht => ht.inv hd.record hd.search).bind ?_
  rintro r t ⟨ho, hro⟩
  have hdt := hd.read ho hro
  match r with
  | none => exact endCleanly_inv hdt
  | some true => exact readLiteral_inv (hdt.setRecord (x := { t.record with tag := true }) hdt.record) rfl
  | some false => exact readReference_inv (hdt.setRecord (x := { t.record with tag := false }) hdt.record)

/-- D_WRITE_DECODED on the segment of the record just read (R111). -/
theorem deliverSegment_inv {s : State} (h : Inv s) (hc : s.ctl = .dWriteDecoded) (seg : List Byte) :
    (deliverSegment seg s).Ends (fun _ t => Inv t) Inv := by
  have hcall := h.call
  rw [CallInv, hc] at hcall
  have hd := Decoding.of h (by rw [State.busy, hc]; rfl) hcall.1
  refine ((snkWriteAll_ends seg s).mono (fun _ _ x => x) ?_).bind ?_
  · rintro _ ⟨u, hu, -, -, -, rfl, -⟩
    exact raiseError_inv (by rw [hu.record]; exact hd.record) (by rw [hu.search]; exact hd.search)
  rintro - t ⟨ho, hw, -⟩
  obtain ⟨b1, b2, b3, b4, b5, b6⟩ := hd.buffer
  obtain ⟨p1, -, -, p4, p5, p6⟩ := Memory.push_spec b2 b4 seg s.params.h
  have hb : DecoderBuffer (pushHistory seg t) := by
    unfold DecoderBuffer pushHistory
    rw [State.setMem_params, State.setMem_mem, ho.params, ho.mem]
    have := b1.ranges.windowFits
    exact ⟨b1, p1, by rw [p4]; omega, p5, p6.trans b5, by rw [p4]; omega⟩
  have hdt : Decoding (pushHistory seg t) := by
    refine ⟨hb, ?_, ?_, ?_, ?_, ?_, ?_, ?_, ?_⟩
    · rw [pushHistory, State.setMem_params, ho.params]; exact hd.sd
    · rw [pushHistory, State.setMem_record, ho.record]; exact hd.record
    · rw [pushHistory, State.setMem_search, ho.search]; exact hd.search
    · rw [WriterOk, pushHistory, State.setMem_writer, hw]; exact hd.writer
    · rw [pushHistory, State.setMem_writer, hw]; exact hd.cursor
    · rw [ReaderOk, pushHistory, State.setMem_reader, ho.reader]; exact hd.reader
    · rw [pushHistory, State.setMem_err, ho.err]; exact hd.err
    · rw [pushHistory, State.setMem_cleanEnd, ho.cleanEnd]; exact hd.clean
  exact hdt.inv hb (by simp)

end Sys2Proof.Machine
end

