-- ==== Sys2Proof/Laws/PerInstr.lean ====
section
/-! SUPPORT. Laws of an instruction as syntax, one lemma for each constructor. -/

namespace Sys2Proof.Laws.EncodedLength

/-- An instruction has as many bits as the table gives its row (R57 to R62, R69, R70). -/
def Statement (i : Instr) : Prop := ∀ hbits mbits, (Sys2Proof.encode hbits mbits i).length = i.width hbits mbits

theorem header (hb : BitVec 5) (mlb : BitVec 4) : Statement (.header hb mlb) := fun _ _ => rfl

theorem primeByte (b : Byte) : Statement (.primeByte b) := fun _ _ => byteBits_length b

theorem literal (b : Byte) : Statement (.literal b) := fun _ _ => rfl

theorem reference (pos encLen : Nat) : Statement (.reference pos encLen) := fun h m => by
  simp [Sys2Proof.encode, Instr.width]; omega

theorem sentinel : Statement .sentinel := fun _ _ => rfl

theorem pad (n : Nat) : Statement (.pad n) := fun _ _ => List.length_replicate

theorem encode : Statement .encode := fun _ _ => rfl

theorem decode : Statement .decode := fun _ _ => rfl

theorem bwWriteBit (b : Bool) : Statement (.bwWriteBit b) := fun _ _ => rfl

theorem bwWriteBits (n v : Nat) : Statement (.bwWriteBits n v) := fun _ _ => rfl

theorem bwWriteByte (b : Byte) : Statement (.bwWriteByte b) := fun _ _ => rfl

theorem bwPad : Statement .bwPad := fun _ _ => rfl

theorem bwFlush : Statement .bwFlush := fun _ _ => rfl

theorem brReadBit : Statement .brReadBit := fun _ _ => rfl

theorem brReadBits (n : Nat) : Statement (.brReadBits n) := fun _ _ => rfl

theorem brReadByte : Statement .brReadByte := fun _ _ => rfl

theorem histPush (seg : List Byte) : Statement (.histPush seg) := fun _ _ => rfl

theorem swrConstruct : Statement .swrConstruct := fun _ _ => rfl

theorem swrNext (m : Nat) : Statement (.swrNext m) := fun _ _ => rfl

theorem swrCurrent : Statement .swrCurrent := fun _ _ => rfl

theorem firstMatch (seq sub : List Byte) : Statement (.firstMatch seq sub) := fun _ _ => rfl

theorem bestMatch (seq sub : List Byte) (thr depth : Nat) : Statement (.bestMatch seq sub thr depth) := fun _ _ => rfl

theorem eSetup : Statement .eSetup := fun _ _ => rfl

theorem eWriteHeader : Statement .eWriteHeader := fun _ _ => rfl

theorem ePrimeHistory : Statement .ePrimeHistory := fun _ _ => rfl

theorem eEmitRecord : Statement .eEmitRecord := fun _ _ => rfl

theorem emitReference (p l : Nat) : Statement (.emitReference p l) := fun _ _ => rfl

theorem emitLiteral (b : Byte) : Statement (.emitLiteral b) := fun _ _ => rfl

theorem eWriteEnding : Statement .eWriteEnding := fun _ _ => rfl

theorem eFlush : Statement .eFlush := fun _ _ => rfl

theorem dReadHeader : Statement .dReadHeader := fun _ _ => rfl

theorem dInit : Statement .dInit := fun _ _ => rfl

theorem dReadRecord : Statement .dReadRecord := fun _ _ => rfl

theorem readLiteral : Statement .readLiteral := fun _ _ => rfl

theorem readReference : Statement .readReference := fun _ _ => rfl

theorem dWriteDecoded (seg : List Byte) : Statement (.dWriteDecoded seg) := fun _ _ => rfl

theorem dDone : Statement .dDone := fun _ _ => rfl

theorem raise (e : ErrorClass) : Statement (.raise e) := fun _ _ => rfl

end Sys2Proof.Laws.EncodedLength
end

