-- ==== Sys2Proof/Laws/Turn.lean ====
section
/-! SUPPORT. One controller step and a reset inside it: what a step never changes, and what the part of a step before the reset
leaves at the ports. -/

namespace Sys2Proof.Machine

/-! ## D_INIT and a failing sink -/

/-- D_INIT and the sink's coming answers: a failure at the byte `k` raises with the `k` bytes before it written (R107, R124). -/
theorem readPriming_fails {n k : Nat} {s : State} {rest : List SnkAnswer}
    (h : s.ports.snkAns = List.replicate k .ok ++ .fail :: rest) (hk : k < n) (hl : 8 * (k + 1) ≤ (wireBits s).1.length) :
    ∃ bs u, readPriming n s = .raised (raiseError .ioError u) ∧ bytesBits bs = (wireBits s).1.take (8 * k) ∧
      u.ports.snk = s.ports.snk ++ bs ∧ u.ports.snkAns = rest ∧ u.reader.bitsRead = s.reader.bitsRead + 8 * (k + 1) := by
  induction k generalizing n s with
  | zero =>
    obtain ⟨n, rfl⟩ : ∃ m, n = m + 1 := ⟨n - 1, by omega⟩
    obtain ⟨t, ht, hto⟩ := readBits_val (n := 8) rfl (by omega : 8 ≤ (wireBits s).1.length)
    have ha : t.ports.snkAns = .fail :: rest := by rw [hto.only.snkAns, h]; rfl
    refine ⟨[], t.setPorts { t.ports with snkAns := rest }, ?_, by simp, by simp [hto.only.snk], rfl, hto.count⟩
    rw [readPriming, readByte, needField, ht, Res.bind_ok]
    simp only [deliverByte, snkWrite_fails ha, Res.bind_raised]
  | succ k ih =>
    obtain ⟨n, rfl⟩ : ∃ m, n = m + 1 := ⟨n - 1, by omega⟩
    obtain ⟨t, ht, hto⟩ := readBits_val (n := 8) rfl (by omega : 8 ≤ (wireBits s).1.length)
    have hx : byteBits (BitVec.ofNat 8 (fieldVal ((wireBits s).1.take 8))) = (wireBits s).1.take 8 :=
      byteBits_bitsByte (by rw [List.length_take]; omega)
    have ha : t.ports.snkAns = .ok :: (List.replicate k .ok ++ .fail :: rest) := by rw [hto.only.snkAns, h]; rfl
    rw [readPriming, readByte, needField, ht, Res.bind_ok]
    simp only [deliverByte, snkWrite_takes (.inl ha), Res.bind_ok]
    generalize BitVec.ofNat 8 (fieldVal ((wireBits s).1.take 8)) = x at hx
    generalize hv : pushHistory [x] _ = v
    have hw : wireBits v = ((wireBits s).1.drop 8, (wireBits s).2) := by rw [← hv]; exact hto.wire
    have hsnk : v.ports.snk = s.ports.snk ++ [x] := by rw [← hv, ← hto.only.snk]; rfl
    have hrd : v.reader = t.reader := by rw [← hv]; rfl
    obtain ⟨bs, u, hu, hb, hs, hr, hc⟩ := ih (n := n) (s := v) (by rw [← hv]; rfl) (by omega)
      (by rw [hw, List.length_drop]; omega)
    refine ⟨x :: bs, u, hu, ?_, ?_, hr, ?_⟩
    · rw [bytesBits_cons, hx, hb, hw, ← List.take_add]; congr 1; omega
    · rw [hs, hsnk]; simp
    · rw [hc, hrd, hto.count]; omega

/-! ## The ports of a step that is cut short -/

/-- A willing sink, cut: `writes` answers Ok, then the cut (log 33). -/
theorem Ports.cut_willing {p : Ports} (h : ∀ a ∈ p.snkAns, a = SnkAnswer.ok) (reads writes : Nat) :
    (p.cut reads writes).snkAns = List.replicate writes .ok ++ [.fail] := by
  rw [Ports.cut, List.eq_replicate_iff.2 ⟨rfl, h⟩, List.replicate_append_replicate, List.take_replicate]
  simp

/-- A source asked for more answers than it lists is cut behind its end (log 33). -/
theorem srcComing_cut (l : List SrcAnswer) (n : Nat) (rest : List SrcAnswer) :
    srcComing (l ++ SrcAnswer.endOfData :: List.replicate n .endOfData ++ rest) = srcComing l := by
  induction l with
  | nil => rfl
  | cons a l ih => cases a <;> simp_all [srcComing]

theorem Ports.cut_source {p : Ports} {reads : Nat} (h : p.src.length < reads) (writes : Nat) :
    srcComing (p.cut reads writes).src = srcComing p.src := by
  obtain ⟨n, rfl⟩ := Nat.exists_eq_add_of_lt h
  rw [Ports.cut]
  have : (p.src ++ List.replicate (p.src.length + n + 1) SrcAnswer.endOfData).take (p.src.length + n + 1) =
      p.src ++ SrcAnswer.endOfData :: List.replicate n .endOfData := by
    rw [List.take_append, List.take_of_length_le (by omega), List.take_replicate, ← List.replicate_succ]
    congr 2; omega
  rw [this]
  exact srcComing_cut p.src n _

/-- A step that ends, cut short: the mended ports. -/
theorem partOfStep_next {reads writes : Nat} {s t : State}
    (h : engineStep (s.setPorts (s.ports.cut reads writes)) = .next t) :
    partOfStep reads writes s = t.setPorts (s.ports.mend t.ports reads writes) := by rw [partOfStep, h]

/-- The two ways a step is cut short. -/
theorem partOfStep_cases (reads writes : Nat) (s : State) :
    partOfStep reads writes s = s ∨ ∃ t, engineStep (s.setPorts (s.ports.cut reads writes)) = .next t ∧
      partOfStep reads writes s = t.setPorts (s.ports.mend t.ports reads writes) := by
  cases h : engineStep (s.setPorts (s.ports.cut reads writes)) with
  | next t => exact .inr ⟨t, rfl, partOfStep_next h⟩
  | fault f => exact .inl (by rw [partOfStep, h])
  | refused r => exact .inl (by rw [partOfStep, h])

/-! ## Reset -/

@[simp] theorem resetBlock_ports (s : State) : (resetBlock s).ports = s.ports := rfl
@[simp] theorem resetBlock_host (s : State) : (resetBlock s).host = s.host := rfl

end Sys2Proof.Machine
end

