-- ==== Sys2Proof/Tests/Slice0.lean ====
section
/-! SUPPORT. Tests.  Expected values come from spec/95_test_vectors.md (V and P numbers) or from the rule cited. -/

namespace Sys2Proof.Machine.Tests

open Sys2Proof Sys2Proof.Machine

/-! ## Helpers -/

/-- The next state of an instruction, if it answers one. -/
def after (i : Instr) (s : State) : Option State :=
  match exec i s with
  | .next t => some t
  | .fault _ => none
  | .refused _ => none

/-- The next state of a step, if it answers one. -/
def stepped (s : State) : Option State :=
  match step s with
  | .next t => some t
  | .fault _ => none
  | .refused _ => none

/-- Bits written as 0 and 1, in stream order. -/
def bits (l : List Nat) : Bits := l.map (· == 1)

/-- Source answers delivering bytes. -/
def bytes (l : List Byte) : List SrcAnswer := l.map .byte

/-- An encoder with header (4, 2), THR = 1, H = 16, WC = 4 (V2), between two records. -/
def enc (hist win : List Byte) (src : List Byte) : State :=
  { State.reset with
    ctl := .eEmitRecord
    params := paramsOf 4 2 0
    mem := { buf := hist ++ win, hlen := hist.length, wlen := win.length, wcap := win.length }
    ports := { src := bytes src, snk := [], snkFlushes := 0, snkAns := [] } }

/-- A decoder with header (4, 2) between two records, the source holding `src`. -/
def dec (hist : List Byte) (src : List Byte) : State :=
  { State.reset with
    ctl := .dReadRecord
    params := paramsOf 4 2 0
    mem := { buf := hist, hlen := hist.length, wlen := 0, wcap := 0 }
    ports := { src := bytes src, snk := [], snkFlushes := 0, snkAns := [] } }

/-- A state with the given pending bits. -/
def pending (l : Bits) (s : State) : State := { s with writer := { wacc := l, wcnt := l.length, bitsWritten := l.length } }

/-- A state whose sink fails at its next transaction. -/
def failing (s : State) : State := { s with ports := { s.ports with snkAns := [.fail] } }

/-- What a writing test looks at: the sink, the pending bits, BITS_WRITTEN. -/
def written (t : State) : List Byte × Bits × Nat := (t.ports.snk, t.writer.wacc, t.writer.bitsWritten)

/-- How a call stands: STATE, ERR, the sink. -/
def standing (t : State) : Ctl × ErrCode × List Byte := (t.ctl, t.err, t.ports.snk)

/-! ## Identity -/

theorem test_identity : (Config.identity.name, Config.identity.origin, Config.identity.revision) =
    ("sim31/lzss CORE", "sim31/lzss", "v7") := by decide

/-! ## WellFormed: an ill-formed term for each check -/

theorem test_wf_refuses_small_history_bits : (Instr.header 2 1).wf = false ∧ (Instr.header 2 0).wf = false := by decide
theorem test_wf_refuses_small_match_length_bits : (Instr.header 4 1).wf = false := by decide
theorem test_wf_refuses_equal_widths : (Instr.header 4 4).wf = false ∧ (Instr.header 3 15).wf = false := by decide
theorem test_wf_takes_legal_headers : (Instr.header 3 2).wf = true ∧ (Instr.header 31 15).wf = true := by decide
theorem test_wf_refuses_wide_position : (Instr.reference (2 ^ 31) 0).wf = false := by decide
theorem test_wf_refuses_wide_enc_len : (Instr.reference 0 (2 ^ 15)).wf = false := by decide
theorem test_wf_refuses_long_pad : (Instr.pad 8).wf = false := by decide
theorem test_wf_refuses_write_width_zero : (Instr.bwWriteBits 0 0).wf = false := by decide
theorem test_wf_refuses_write_width_33 : (Instr.bwWriteBits 33 0).wf = false := by decide
theorem test_wf_refuses_write_value : (Instr.bwWriteBits 4 16).wf = false := by decide
theorem test_wf_refuses_read_widths : (Instr.brReadBits 0).wf = false ∧ (Instr.brReadBits 33).wf = false := by decide
theorem test_wf_refuses_empty_push : (Instr.histPush []).wf = false := by decide
theorem test_wf_refuses_next_zero : (Instr.swrNext 0).wf = false ∧ (Instr.swrNext 32774).wf = false := by decide
theorem test_wf_refuses_wide_depth : (Instr.bestMatch [] [] 1 (2 ^ 32)).wf = false := by decide
theorem test_wf_refuses_reference_range :
    (Instr.emitReference (2 ^ 31) 4).wf = false ∧ (Instr.emitReference 0 0).wf = false ∧
      (Instr.emitReference 0 32774).wf = false := by decide
theorem test_wf_refuses_empty_segment : (Instr.dWriteDecoded []).wf = false := by decide
theorem test_fits_refuses_wide_fields :
    (Instr.reference 16 0).fits 4 2 = false ∧ (Instr.reference 0 4).fits 4 2 = false ∧
      (Instr.reference 15 3).fits 4 2 = true := by decide

/-! ## Decoding: words written out from V10 and R57 to R62, R69 -/

theorem test_decode_header_4_2 :
    decode .header false (bits [0, 0, 1, 0, 0, 0, 0, 1, 0]) = .element (.header 4 2) [] := by decide
theorem test_decode_header_31_15 :
    decode .header false (bits [1, 1, 1, 1, 1, 1, 1, 1, 1]) = .element (.header 31 15) [] := by decide
theorem test_decode_prime_byte :
    decode .prime false (bits [0, 1, 0, 0, 0, 0, 0, 1]) = .element (.primeByte 0x41) [] := by decide
theorem test_decode_literal :
    decode (.record 4 2) false (bits [1, 0, 1, 0, 1, 1, 0, 0, 0]) = .element (.literal 0x58) [] := by decide
theorem test_decode_reference_6_2 :
    decode (.record 6 2) false (bits [0, 0, 0, 0, 1, 0, 1, 1, 1]) = .element (.reference 5 3) [] := by decide
theorem test_decode_reference_12_4 :
    decode (.record 12 4) false (bits [0, 0, 0, 0, 0, 0, 0, 0, 1, 1, 1, 1, 0, 0, 0, 1, 1]) =
      .element (.reference 30 3) [] := by decide
theorem test_decode_sentinel :
    decode (.record 4 2) true (bits [1, 0, 0, 0, 0, 0, 0]) = .element .sentinel (bits [0, 0, 0, 0, 0, 0]) := by decide
theorem test_decode_pad : decode .ending true (bits [0, 0, 0, 0, 0, 0]) = .element (.pad 6) [] := by decide
theorem test_decode_encode : decode .command true (bits [0]) = .element .encode [] := by decide
theorem test_decode_decode : decode .command true (bits [1]) = .element .decode [] := by decide
theorem test_decode_rejects_by_name :
    decode .ending true (bits [0, 0, 0, 0, 0, 0, 0, 0]) = .reject .notAnEnding ∧
      decode .command true (bits [0, 1]) = .reject .notACommand ∧
      decode (.record 4 2) false (bits [1, 0]) = .reject .incomplete := by decide
theorem test_encode_elements :
    encode 4 2 (.header 12 4) = bits [0, 1, 1, 0, 0, 0, 1, 0, 0] ∧
      encode 4 2 (.literal 0xFF) = bits [1, 1, 1, 1, 1, 1, 1, 1, 1] ∧
      encode 6 2 (.reference 3 1) = bits [0, 0, 0, 0, 0, 1, 1, 0, 1] := by decide
theorem test_table_words :
    decodeTableWord 16 0x158 = some (.literal 0x58) ∧ decodeTableWord 16 0x42 = some (.header 4 2) ∧
      decodeTableWord 8 0x41 = some (.primeByte 0x41) ∧ decodeTableWord 24 0x1E3 = some (.reference 30 3) ∧
      decodeTableWord 1 0 = some .encode ∧ decodeTableWord 1 1 = some .decode := by decide
theorem test_table_word_runs :
    (stepped (State.reset.withFetchWord 16 0x158)).map (fun t => (t.ctl, t.record.tag, t.record.byte)) =
      some (.dWriteDecoded, true, 0x58) := by decide

/-! ## Elements, to the encoder and to the decoder -/

theorem test_header_written :
    (after (.header 4 2) (enc [] [] [])).map written = some ([0x21], bits [0], 9) := by decide
theorem test_header_read :
    (after (.header 4 2) { dec [] [0x21, 0x20] with ctl := .dReadHeader }).map
      (fun t => (t.ctl, t.hdr.hb, t.hdr.mlb, t.params.thr, t.params.h, t.params.wc)) =
      some (.dInit, 4, 2, 1, 16, 4) := by decide
theorem test_prime_byte_written :
    (after (.primeByte 0x41) (pending (bits [0]) (enc [] [] []))).map written = some ([0x20], bits [1], 9) := by decide
theorem test_prime_byte_read :
    (after (.primeByte 0x41) { dec [] [0x41] with ctl := .dInit }).map
      (fun t => (t.ctl, t.ports.snk, t.mem.hist)) = some (.dInit, [0x41], [0x41]) := by decide
theorem test_literal_written :
    (after (.literal 0x58) (enc [] [] [])).map written = some ([0xAC], bits [0], 9) := by decide
theorem test_literal_read :
    (after (.literal 0x58) (dec [0x41] [0xAC, 0x00])).map
      (fun t => (t.ctl, t.record.tag, t.record.byte, t.reader.bitsRead)) =
      some (.dWriteDecoded, true, 0x58, 9) := by decide
theorem test_reference_written :
    (after (.reference 0 3) (enc [] [] [])).map written = some ([], bits [0, 0, 0, 0, 0, 1, 1], 7) := by decide
theorem test_reference_read :
    (after (.reference 0 3) (dec [0x41, 0x41, 0x41, 0x41] [0x06])).map
      (fun t => (t.ctl, t.record.pos, t.record.len)) = some (.dWriteDecoded, 0, 4) := by decide
theorem test_sentinel_written : (after .sentinel (enc [] [] [])).map written = some ([], bits [1], 1) := by decide
theorem test_sentinel_read :
    (after .sentinel (dec [0x41] [0xC0])).map (fun t => (t.ctl, t.cleanEnd, t.reader.bitsRead)) =
      some (.done, true, 8) := by decide
theorem test_pad_written :
    (after (.pad 4) (pending (bits [1, 0, 1, 1]) (enc [] [] []))).map written = some ([0xB0], [], 8) := by decide
theorem test_pad_read :
    (after (.pad 7) { dec [] [] with reader := { racc := bits [0, 0, 0], rcnt := 3, bitsRead := 5 } }).map
      (fun t => (t.ctl, t.cleanEnd, t.reader.bitsRead)) = some (.done, true, 8) := by decide

/-! ## Commands -/

theorem test_encode_starts : (after .encode State.reset).map (·.ctl) = some .eSetup := by decide
theorem test_encode_ignored_while_busy : (after .encode (dec [] [])).map (·.ctl) = some .dReadRecord := by decide
theorem test_decode_starts :
    (after .decode { State.reset with ctl := .error, err := .corruptStream, srcEof := true }).map
      (fun t => (t.ctl, t.err, t.srcEof, t.cfg.cmd)) = some (.dReadHeader, .none, false, .decode) := by decide

/-! ## Bit I/O -/

theorem test_write_bit_completes_byte :
    (after (.bwWriteBit true) (pending (bits [1, 1, 1, 1, 1, 1, 1]) State.reset)).map written =
      some ([0xFF], [], 8) := by decide
theorem test_write_bit_on_failing_sink :
    (after (.bwWriteBit true) (failing (pending (bits [1, 1, 1, 1, 1, 1, 1]) State.reset))).map standing =
      some (.error, .ioError, []) := by decide
theorem test_write_bits_31 :
    (after (.bwWriteBits 31 (2 ^ 31 - 1)) (pending (bits [0]) State.reset)).map written =
      some ([0x7F, 0xFF, 0xFF, 0xFF], [], 32) := by decide
theorem test_write_bits_width_zero : exec (.bwWriteBits 0 0) State.reset = .refused .fieldWidth := by rfl
theorem test_write_byte :
    (after (.bwWriteByte 0xFF) (pending (bits [1]) State.reset)).map written = some ([0xFF], bits [1], 9) := by decide
theorem test_pad_to_byte :
    (after .bwPad (pending (bits [1, 1]) State.reset)).map written = some ([0xC0], [], 8) := by decide
theorem test_pad_on_boundary : (after .bwPad State.reset).map written = some ([], [], 0) := by decide
theorem test_flush_writes_nothing :
    (after .bwFlush (pending (bits [1, 1]) State.reset)).map (fun t => (t.ports.snk, t.ports.snkFlushes)) =
      some ([], 1) := by decide
theorem test_flush_fails : (after .bwFlush (failing State.reset)).map standing = some (.error, .ioError, []) := by decide
theorem test_read_bit :
    (after .brReadBit (dec [] [0xA0])).map (fun t => (t.opResult, t.reader.rcnt)) = some (.val 1, 7) := by decide
theorem test_read_bit_at_end :
    (after .brReadBit (dec [] [])).map (fun t => (t.opResult, t.srcEof)) = some (.eof 0, true) := by decide
theorem test_read_bits_12 :
    (after (.brReadBits 12) (dec [] [0xAB, 0xCD])).map (fun t => (t.opResult, t.reader.bitsRead)) =
      some (.val 0xABC, 12) := by decide
theorem test_read_bits_eof :
    (after (.brReadBits 9) (dec [] [0xFF])).map (fun t => (t.opResult, t.reader.bitsRead, t.reader.racc)) =
      some (.eof 8, 8, []) := by decide
theorem test_read_byte :
    (after .brReadByte { dec [] [0xA0] with reader := { racc := bits [0, 1, 0], rcnt := 3, bitsRead := 5 } }).map
      (fun t => (t.opResult, t.reader.bitsRead)) = some (.val 0x54, 13) := by decide

/-! ## Sliding buffer: a to l are 0x61 to 0x6C -/

theorem test_push_evicts :
    (after (.histPush [0x67, 0x68, 0x69, 0x6A])
      { dec [0x61, 0x62, 0x63, 0x64, 0x65, 0x66] [] with params := paramsOf 3 2 0 }).map (fun t => (t.mem.hist, t.mem.hlen)) =
      some ([0x63, 0x64, 0x65, 0x66, 0x67, 0x68, 0x69, 0x6A], 8) := by decide
theorem test_construct :
    (after .swrConstruct (enc [] [] [0x61, 0x62, 0x63, 0x64, 0x65, 0x66, 0x67, 0x68])).map
      (fun t => (t.mem.hist, t.mem.win, t.mem.wcap, t.srcEof)) =
      some ([0x61, 0x62, 0x63, 0x64], [0x65, 0x66, 0x67, 0x68], 4, false) := by decide
theorem test_construct_too_short :
    (after .swrConstruct (enc [] [] [0x61, 0x62, 0x63, 0x64, 0x65, 0x66, 0x67])).map standing =
      some (.error, .truncatedInput, []) := by decide
theorem test_next_evicts :
    (after (.swrNext 1)
      { enc [0x61, 0x62, 0x63, 0x64, 0x65, 0x66, 0x67, 0x68] [0x69, 0x6A, 0x6B, 0x6C] [0x61] with params := paramsOf 3 2 0 }).map
      (fun t => (t.mem.hist, t.mem.win, t.mem.wcap)) =
      some ([0x62, 0x63, 0x64, 0x65, 0x66, 0x67, 0x68, 0x69], [0x6A, 0x6B, 0x6C, 0x61], 4) := by decide
theorem test_next_at_end :
    (after (.swrNext 4)
      { enc [0x69, 0x6A, 0x6B, 0x6C, 0x61, 0x62, 0x63, 0x64] [0x69, 0x6A, 0x6B, 0x6C] [] with params := paramsOf 3 2 0 }).map
      (fun t => (t.mem.hist, t.mem.wlen, t.mem.wcap, t.srcEof)) =
      some ([0x61, 0x62, 0x63, 0x64, 0x69, 0x6A, 0x6B, 0x6C], 0, 0, true) := by decide
theorem test_current :
    (after .swrCurrent (enc [0x61, 0x62] [0x63] [])).map (·.opResult) = some (.view [0x61, 0x62] [0x63]) := by decide

/-! ## Search -/

theorem test_first_match_first_run :
    (after (.firstMatch [0x58, 0x41, 0x42, 0x43, 0x41, 0x42, 0x44] [0x41, 0x42, 0x44]) State.reset).map (·.opResult) =
      some (.range 1 2) := by decide
theorem test_first_match_restart :
    (after (.firstMatch [0x41, 0x41, 0x42] [0x41, 0x42]) State.reset).map (·.opResult) = some (.range 0 1) := by decide
theorem test_best_match_longest :
    (after (.bestMatch [0x41, 0x42, 0x51, 0x41, 0x42, 0x43, 0x57] [0x41, 0x42, 0x43, 0x44, 0x45] 2 0) State.reset).map
      (·.opResult) = some (.range 3 3) := by decide
theorem test_best_match_depth :
    (after (.bestMatch [0x41, 0x42, 0x51, 0x41, 0x42, 0x43, 0x57] [0x41, 0x42, 0x43, 0x44, 0x45] 2 1) State.reset).map
      (·.opResult) = some (.range 0 2) := by decide

/-! ## Encoder -/

theorem test_setup :
    (after .eSetup { State.reset with
        cfg := { cfgHb := 4, cfgMlb := 2, cfgSd := 0, cmd := .encode }, ctl := .eSetup,
        ports := { src := bytes (List.replicate 8 0x41), snk := [], snkFlushes := 0, snkAns := [] } }).map
      (fun t => (t.ctl, t.params, t.mem.hlen, t.mem.wlen)) =
      some (.eWriteHeader, { hb := 4, mlb := 2, sd := 0, thr := 1, h := 16, wc := 4 }, 4, 4) := by decide
theorem test_setup_checks_first :
    (after .eSetup { State.reset with cfg := { cfgHb := 4, cfgMlb := 4, cfgSd := 0, cmd := .encode }, ctl := .eSetup }).map
      (fun t => (standing t, t.srcEof)) = some ((.error, .configurationError, []), false) := by decide
theorem test_write_header :
    (after .eWriteHeader { enc [] [] [] with ctl := .eWriteHeader }).map (fun t => (t.ctl, written t)) =
      some (.ePrimeHistory, [0x21], bits [0], 9) := by decide
theorem test_prime_history :
    (after .ePrimeHistory (pending (bits [0]) { enc [0x41, 0x41, 0x41, 0x41] [0x41] [] with ctl := .ePrimeHistory })).map
      (fun t => (t.ctl, written t)) = some (.eEmitRecord, [0x20, 0xA0, 0xA0, 0xA0], bits [1], 33) := by decide
theorem test_emit_record_reference :
    (after .eEmitRecord (pending (bits [1]) (enc [0x41, 0x41, 0x41, 0x41] [0x41, 0x41, 0x41, 0x41] []))).map
      (fun t => (t.ctl, written t, t.mem.hlen, t.srcEof)) = some (.eWriteEnding, ([0x83], [], 8), 8, true) := by decide
theorem test_emit_record_literal :
    (after .eEmitRecord (enc [0x41, 0x42, 0x43, 0x44] [0x58, 0x41, 0x42, 0x43] [0x45])).map
      (fun t => (t.ctl, written t, t.mem.win)) =
      some (.eEmitRecord, ([0xAC], bits [0], 9), [0x41, 0x42, 0x43, 0x45]) := by decide
theorem test_emit_reference :
    (after (.emitReference 3 3) { enc [] [] [] with params := paramsOf 6 2 0 }).map
      (fun t => (written t, t.record.pos, t.record.len)) = some (([0x06], bits [1], 9), 3, 3) := by decide
/-- R99 below THR = 2: the record is written and 1 + HB + MLB bits long, only the two length bits are free. -/
theorem test_emit_reference_below_threshold :
    (after (.emitReference 3 1) { enc [] [] [] with params := paramsOf 6 2 0 }).map
      (fun t => (t.record, t.writer.bitsWritten, t.ports.snk.length)) =
      some ({ tag := false, byte := 0, pos := 3, len := 1 }, 9, 1) := by decide
theorem test_emit_literal : (after (.emitLiteral 0x58) (enc [] [] [])).map written = some ([0xAC], bits [0], 9) := by decide
theorem test_ending :
    (after .eWriteEnding (pending (bits [0]) { enc [] [] [] with ctl := .eWriteEnding })).map
      (fun t => (t.ctl, written t)) = some (.eFlush, [0x40], [], 8) := by decide
theorem test_ending_on_boundary :
    (after .eWriteEnding { enc [] [] [] with ctl := .eWriteEnding }).map written = some ([], [], 0) := by decide
theorem test_e_flush :
    (after .eFlush { enc [] [] [] with ctl := .eFlush }).map (fun t => (t.ctl, t.status, t.ports.snkFlushes)) =
      some (.done, 2, 1) := by decide

/-! ## Decoder -/

theorem test_read_header_checks_after_both :
    (after .dReadHeader { dec [] [0x10] with ctl := .dReadHeader }).map (fun t => (standing t, t.hdr.hb, t.reader.bitsRead)) =
      some ((.error, .truncatedInput, []), 2, 8) := by decide
theorem test_read_header_illegal :
    (after .dReadHeader { dec [] [0x22, 0x00] with ctl := .dReadHeader }).map (fun t => (standing t, t.hdr.mlb)) =
      some ((.error, .configurationError, []), 4) := by decide
theorem test_init :
    (after .dInit { dec [] [0x41, 0x42, 0x43, 0x44] with ctl := .dInit }).map (fun t => (standing t, t.mem.hist)) =
      some ((.dReadRecord, .none, [0x41, 0x42, 0x43, 0x44]), [0x41, 0x42, 0x43, 0x44]) := by decide
theorem test_init_truncated :
    (after .dInit { dec [] [0x41] with ctl := .dInit }).map standing = some (.error, .truncatedInput, [0x41]) := by decide
theorem test_read_record_clean_end :
    (after .dReadRecord (dec [0x41] [])).map (fun t => (t.ctl, t.cleanEnd, t.ports.snkFlushes)) =
      some (.done, true, 1) := by decide
theorem test_read_record_corrupt :
    (after .dReadRecord (dec [0x41, 0x41, 0x41, 0x41] [0x16])).map (fun t => (standing t, t.record.pos, t.record.len)) =
      some ((.error, .corruptStream, []), 2, 4) := by decide
theorem test_read_literal :
    (after .readLiteral (dec [0x41] [0x42])).map (fun t => (t.ctl, t.record.byte)) = some (.dWriteDecoded, 0x42) := by decide
theorem test_read_reference_to_the_end :
    (after .readReference { dec [0x41, 0x41, 0x41, 0x41] [] with
        reader := { racc := bits [0, 0, 1, 1, 0, 0], rcnt := 6, bitsRead := 42 } }).map
      (fun t => (t.ctl, t.record.pos, t.record.len)) = some (.dWriteDecoded, 3, 1) := by decide
theorem test_write_decoded :
    (after (.dWriteDecoded [0x42, 0x43]) (dec [0x41] [])).map (fun t => (standing t, t.mem.hist)) =
      some ((.dReadRecord, .none, [0x42, 0x43]), [0x41, 0x42, 0x43]) := by decide
theorem test_write_decoded_fails_midway :
    (after (.dWriteDecoded [0x42, 0x43])
      { dec [0x41] [] with ports := { src := [], snk := [], snkFlushes := 0, snkAns := [.ok, .fail] } }).map standing =
      some (.error, .ioError, [0x42]) := by decide
theorem test_d_done : (after .dDone (dec [] [])).map (fun t => (t.ctl, t.ports.snkFlushes)) = some (.done, 1) := by decide
theorem test_raise :
    (after (.raise .corruptStream) (pending (bits [1]) State.reset)).map (fun t => (standing t, t.status, t.writer.wacc)) =
      some ((.error, .corruptStream, []), 4, []) := by decide

/-! ## The step -/

theorem test_step_interrupted_source :
    (stepped { dec [0x41] [] with ports :=
      { src := [.interrupted, .byte 0xA1, .interrupted, .byte 0x00], snk := [], snkFlushes := 0, snkAns := [] } }).map (fun t => (t.ctl, t.record.byte)) = some (.dWriteDecoded, 0x42) := by decide
/-- R136, R130: a reset while the third byte of a segment waits for the sink; two bytes stay in it. -/
theorem test_step_reset_inside_a_step :
    (stepped { dec [0x41, 0x42, 0x43] [] with
        ctl := .dWriteDecoded, record := { tag := false, byte := 0, pos := 0, len := 3 }, host := [.resetDuring 0 2] }).map
      (fun t => (t.ctl, t.mem.buf, t.ports.snk)) = some (.idle, [], [0x41, 0x42]) := by decide
/-- R136, R144: a reset while D_READ_RECORD waits for its first byte; the source keeps it. -/
theorem test_step_reset_while_waiting :
    (stepped { dec [0x41] [0x42] with host := [.resetDuring 0 0] }).map (fun t => (t.ctl, t.err, t.ports.src)) =
      some (.idle, .none, [.byte 0x42]) := by decide
theorem test_step_reset_anywhere :
    (stepped { dec [0x41] [0x42] with host := [.reset] }).map (fun t => (t.ctl, t.mem.buf, t.cfg.cfgHb)) =
      some (.idle, [], 12) := by decide

/-! ## Witnesses: concrete states and operands that meet the hypotheses of each statement, clause by clause -/

/-- The next state of a step that answers one. -/
def stepOf (s : State) : State :=
  match step s with
  | .next t => t
  | .fault _ => s
  | .refused _ => s

/-- The four bytes of V1, "AAAA". -/
def aaaa : List Byte := [0x41, 0x41, 0x41, 0x41]

/-- A decoder with its bit reader in the middle of a byte. -/
def midByte (l : Bits) (s : State) : State := { s with reader := { racc := l, rcnt := l.length, bitsRead := 8 - l.length } }

/-- A source that fails at once. -/
def broken (s : State) : State := { s with ports := { s.ports with src := [.fail] } }

/-- With no answer listed the sink always answers Ok (log 3). -/
theorem willing {s : State} (h : s.ports.snkAns = []) : SinkWilling s := fun a ha => by rw [h] at ha; cases ha

theorem witness_DecodeOfEncodeIsTheElement :
    ((Instr.literal 0x58).wf = true ∧ (Instr.literal 0x58).fits 4 2 = true ∧
        (Instr.literal 0x58).slot 4 2 = some (.record 4 2)) ∧
      ((Instr.reference 15 3).wf = true ∧ (Instr.reference 15 3).fits 4 2 = true ∧
        (Instr.reference 15 3).slot 4 2 = some (.record 4 2)) ∧
      (Instr.sentinel.slot 4 2 = some (.record 4 2) ∧ (bits [0, 0, 0, 0, 0, 0, 0]).length < 8) ∧
      ((Instr.pad 7).wf = true ∧ (Instr.pad 7).slot 4 2 = some .ending) ∧ Instr.encode.slot 4 2 = some .command := by decide

theorem witness_EncodeOfDecodeIsTheBits :
    decode (.record 4 2) false (bits [0, 1, 1, 1, 1, 1, 1]) = .element (.reference 15 3) [] ∧
      decode .ending true (bits [0, 1]) = .element (.pad 2) [] := by decide

theorem witness_StreamEndsAreToldApart :
    (bits [0, 0, 1, 0, 0, 0, 0, 1]).length < 9 ∧ (bits [0, 1, 0, 0, 0, 0, 0]).length < 8 ∧
      (bits [0, 0, 0, 0, 0]).length < 4 + 2 := by decide

theorem witness_DerivedConstantsHaveTheirRanges :
    (3 ≤ 3 ∧ 3 ≤ 31 ∧ 2 ≤ 2 ∧ 2 ≤ 15 ∧ 2 < 3) ∧ 3 ≤ 31 ∧ 31 ≤ 31 ∧ 2 ≤ 15 ∧ 15 ≤ 15 ∧ 15 < 31 := by decide

theorem witness_ResetWorksInAnyState : { dec aaaa [0x42] with host := [.reset] }.host = HostEvent.reset :: [] := rfl

theorem witness_CommandsStartACall :
    State.reset.busy = false ∧ (dec aaaa []).busy = true ∧ { State.reset with host := [.start] }.host = .start :: [] ∧
      { State.reset with ctl := .error }.busy = false := by decide

theorem witness_HostAccessKeepsTheRules :
    { State.reset with host := [.writeCfgHb 4] }.host = .writeCfgHb 4 :: [] ∧
      { dec [] [] with host := [.writeCfgMlb 2] }.host = .writeCfgMlb 2 :: [] ∧
      { State.reset with host := [.writeCfgSd 1] }.host = .writeCfgSd 1 :: [] ∧
      { dec [] [] with host := [.writeCmd .decode] }.host = .writeCmd .decode :: [] := by decide

theorem witness_BlockNeverWritesConfiguration : exec (.bwWriteBit true) State.reset = .next (pending [true] State.reset) := rfl

theorem witness_DecoderIgnoresConfiguration :
    (dec aaaa [0x83]).host = [] ∧ (dec aaaa [0x83]).ctl.side = .decoder ∧
      step (dec aaaa [0x83]) = .next (stepOf (dec aaaa [0x83])) ∧
      step { dec aaaa [0x06] with params := paramsOf 40 2 0 } = .refused .fieldWidth := by
  refine ⟨rfl, rfl, ?_, ?_⟩ <;> rfl

/-- RAISE has no premise but that of its last clause. -/
theorem witness_RaiseEntersError : State.reset.host = [] ∧ (dec aaaa [0x42]).host = [] := by decide

theorem witness_OnlyStartAndResetLeaveError :
    ({ State.reset with ctl := .error, host := [.start] }.ctl = .error ∧
        step { State.reset with ctl := .error, host := [.start] } =
          .next (stepOf { State.reset with ctl := .error, host := [.start] })) ∧
      step { State.reset with ctl := .done } = .next { State.reset with ctl := .done } ∧
      step { State.reset with ctl := .error, host := [.resetDuring 0 0] } =
        .next (stepOf { State.reset with ctl := .error, host := [.resetDuring 0 0] }) := by
  refine ⟨⟨rfl, ?_⟩, ?_, ?_⟩ <;> rfl

theorem witness_RestingBlockWaits :
    { State.reset with ctl := .done }.busy = false ∧ { State.reset with ctl := .done }.host = [] := by decide

theorem witness_PortsAreAttachedAtRestOnly :
    ({ State.reset with host := [.attach [] []] }.host = .attach [] [] :: [] ∧
        { State.reset with host := [.attach [] []] }.busy = false) ∧
      { dec [] [] with host := [.attach [] []] }.host = .attach [] [] :: [] ∧
        { dec [] [] with host := [.attach [] []] }.busy = true := by decide

theorem witness_CallsOutsidePreconditionsAreRefused :
    (33 = 0 ∨ 32 < 33) ∧ (5 = 0 ∨ (enc aaaa aaaa []).mem.wlen < 5) ∧
      ((enc aaaa aaaa []).mem.buf ≠ [] ∨ (enc aaaa aaaa []).srcEof = true) ∧
      ({ enc [] [] [] with srcEof := true }.mem.buf ≠ [] ∨ { enc [] [] [] with srcEof := true }.srcEof = true) ∧
      (enc aaaa [] []).mem.win = [] := by decide

theorem witness_StepRunsTheInstructionStateNames :
    (enc aaaa aaaa []).host = [] ∧ (enc aaaa aaaa []).ctl = .eEmitRecord ∧
      ({ dec aaaa [] with ctl := .dWriteDecoded }.ctl = .dWriteDecoded ∧
        { dec aaaa [] with ctl := .dWriteDecoded }.record.tag = false) ∧
      { dec aaaa [] with ctl := .dWriteDecoded, record := { tag := true, byte := 0x42, pos := 0, len := 0 } }.record.tag =
        true := by decide

theorem witness_StepRunsTheElementOnTheWire :
    decode .header (wireBits { dec [] [0x21, 0x00] with ctl := .dReadHeader }).2
        (wireBits { dec [] [0x21, 0x00] with ctl := .dReadHeader }).1 = .element (.header 4 2) (bits [0, 0, 0, 0, 0, 0, 0]) ∧
      decode (.record (dec aaaa [0x06]).params.hb (dec aaaa [0x06]).params.mlb) (wireBits (dec aaaa [0x06])).2
        (wireBits (dec aaaa [0x06])).1 = .element (.reference 0 3) (bits [0]) := by decide

theorem witness_InitRunsItsPrimingBytes :
    (dec [] aaaa).mem = { buf := [], hlen := 0, wlen := 0, wcap := 0 } ∧ 1 ≤ (dec [] aaaa).params.wc ∧
      (dec [] aaaa).params.wc ≤ (dec [] aaaa).params.h ∧ aaaa.length = (dec [] aaaa).params.wc ∧
      bytesBits aaaa <+: (wireBits (dec [] aaaa)).1 := by
  refine ⟨rfl, by decide, by decide, by decide, [], by decide⟩

theorem witness_PlacedTableWordRunsNext : decodeTableWord 16 0x158 = some (.literal 0x58) := by decide

theorem witness_ControllerFollowsTheTransitionTables :
    (enc aaaa aaaa []).host = [] ∧ step (enc aaaa aaaa []) = .next (stepOf (enc aaaa aaaa [])) := by
  refine ⟨rfl, ?_⟩; rfl

theorem witness_WriteBitAppendsOneBit :
    (WriterOk (pending (bits [1, 1, 1, 1, 1, 1]) State.reset) ∧
        (pending (bits [1, 1, 1, 1, 1, 1]) State.reset).writer.wcnt < 7) ∧
      (WriterOk (pending (bits [1, 1, 1, 1, 1, 1, 1]) State.reset) ∧
        (pending (bits [1, 1, 1, 1, 1, 1, 1]) State.reset).writer.wcnt = 7 ∧
        SinkTakes (pending (bits [1, 1, 1, 1, 1, 1, 1]) State.reset) []) ∧
      (failing (pending (bits [1, 1, 1, 1, 1, 1, 1]) State.reset)).ports.snkAns = .fail :: [] :=
  ⟨⟨⟨rfl, by decide⟩, by decide⟩, ⟨⟨rfl, by decide⟩, rfl, .inr ⟨rfl, rfl⟩⟩, rfl⟩

theorem witness_WriteFieldsMostSignificantBitFirst :
    (31 < 32) ∧ (1 ≤ 32 ∧ 32 ≤ 32 ∧ 2 ^ 32 - 1 < 2 ^ 32) ∧ 1 ≤ 1 ∧ 1 ≤ 32 ∧ 1 < 2 ^ 1 := by decide

theorem witness_PadZeroFillsToTheByte :
    (WriterOk State.reset ∧ State.reset.writer.wcnt = 0 ∧ SinkWilling State.reset) ∧
      WriterOk (pending (bits [1]) State.reset) ∧ (pending (bits [1]) State.reset).writer.wcnt ≠ 0 ∧
      exec .bwPad State.reset = .next State.reset :=
  ⟨⟨⟨rfl, by decide⟩, rfl, willing rfl⟩, ⟨rfl, by decide⟩, by decide, rfl⟩

theorem witness_FlushNeverWritesAByte :
    SinkTakes State.reset [] ∧ SinkTakes { State.reset with ports := { State.reset.ports with snkAns := [.ok, .fail] } } [.fail] ∧
      (failing State.reset).ports.snkAns = .fail :: [] :=
  ⟨.inr ⟨rfl, rfl⟩, .inl rfl, rfl⟩

theorem witness_ReadBitTakesTheNextStreamBit :
    wireBits (dec [] [0xA0]) = (true :: bits [0, 1, 0, 0, 0, 0, 0], true) ∧
      (midByte (bits [1]) (dec [] [])).reader.racc ≠ [] ∧ wireBits (midByte (bits [1]) (dec [] [])) = (true :: [], true) ∧
      wireBits (dec [] []) = ([], true) ∧ wireBits (broken (dec [] [])) = ([], false) := by decide

theorem witness_ReadFieldsMostSignificantBitFirst :
    8 ≤ (wireBits (dec [] [0xAB])).1.length ∧
      ((wireBits (dec [] [0xAB])).1.length < 9 ∧ (wireBits (dec [] [0xAB])).2 = true) ∧
      (wireBits (broken (dec [] []))).1.length < 1 ∧ (wireBits (broken (dec [] []))).2 = false := by decide

theorem witness_HistPushAppendsThenEvicts : (dec aaaa []).mem.wf ∧ (dec aaaa []).mem.wlen = 0 := by decide

theorem witness_ConstructFillsHistoryAndWindow :
    ((enc [] [] (aaaa ++ aaaa)).mem.buf = [] ∧ (enc [] [] (aaaa ++ aaaa)).srcEof = false ∧
        2 * (enc [] [] (aaaa ++ aaaa)).params.wc ≤ (sourceComing (enc [] [] (aaaa ++ aaaa))).1.length) ∧
      (sourceComing (enc [] [] aaaa)).1.length < 2 * (enc [] [] aaaa).params.wc := by decide

theorem witness_NextMovesTheWindowOn :
    ((enc aaaa aaaa aaaa).mem.wf ∧ 4 ≤ (enc aaaa aaaa aaaa).mem.wlen ∧ 4 ≤ (sourceComing (enc aaaa aaaa aaaa)).1.length) ∧
      (sourceComing (enc aaaa aaaa [])).2 = true ∧
      (sourceComing (broken (enc aaaa aaaa []))).1.length < 1 ∧
        (sourceComing (broken (enc aaaa aaaa []))).2 = false := by decide

theorem witness_NextLosesOnlyEvictedBytes :
    (enc aaaa aaaa []).mem.wf ∧ 1 ≤ (enc aaaa aaaa []).mem.wlen ∧ (sourceComing (enc aaaa aaaa [])).2 = true ∧
      (after (.swrNext 1) (enc aaaa aaaa [])).isSome = true := by decide

theorem witness_SetupChecksThenConstructs :
    (State.reset.cfg.cfgHb.toNat ≤ 12 ∧ 3 ≤ State.reset.cfg.cfgHb.toNat ∧ 2 ≤ State.reset.cfg.cfgMlb.toNat ∧
        State.reset.cfg.cfgMlb.toNat < State.reset.cfg.cfgHb.toNat ∧ State.reset.mem.buf = [] ∧ State.reset.srcEof = false ∧
        (sourceComing State.reset).1.length < 2 * 17) ∧
      2 * 17 ≤ (sourceComing (enc [] [] (List.replicate 34 0x41))).1.length ∧
      { State.reset with cfg := { State.reset.cfg with cfgHb := 2 } }.cfg.cfgHb.toNat < 3 := by decide

/-- The premises of the clauses of `Emits`: a sink that takes, or fails at, a byte the bits complete. -/
theorem witness_WriteHeaderEmitsBothFields :
    SinkWilling { enc aaaa aaaa [] with ctl := .eWriteHeader } ∧ WriterOk (enc aaaa aaaa []) ∧
      (failing (enc aaaa aaaa [])).ports.snkAns = List.replicate 0 .ok ++ .fail :: [] ∧
      { State.reset.ports with snkAns := [.ok, .fail] }.snkAns =
        List.replicate (completedBytes (enc aaaa aaaa []) (fieldBits 5 4 ++ fieldBits 4 2)) .ok ++ [.fail] ∧
      0 < completedBytes (enc aaaa aaaa []) (fieldBits 5 4 ++ fieldBits 4 2) :=
  ⟨willing rfl, ⟨rfl, by decide⟩, rfl, by decide, by decide⟩

theorem witness_PrimeHistoryEmitsTheHistory : SinkWilling { enc aaaa aaaa [] with ctl := .ePrimeHistory } := willing rfl

theorem witness_EmitLiteralWritesTagAndByte : SinkWilling (enc aaaa aaaa []) := willing rfl

theorem witness_EmitReferenceWritesBiasedLength :
    (enc [] [] []).params.thr ≤ 1 ∧ 0 < (enc [] [] []).params.thr ∧ 1 ≤ (enc [] [] []).params.hb ∧ (enc [] [] []).params.hb ≤ 32 ∧
      1 ≤ (enc [] [] []).params.mlb ∧ (enc [] [] []).params.mlb ≤ 32 := by decide

/-- The encoder state of V1 before its record. -/
theorem enc_buffer : EncoderBuffer (enc aaaa aaaa []) :=
  ⟨⟨by decide, rfl⟩, by decide, by decide, by decide, by decide, by decide⟩

theorem witness_EmitRecordSearchesWritesAdvances :
    EncoderBuffer (enc aaaa aaaa []) ∧ 0 < (enc aaaa aaaa []).mem.wlen ∧ SinkWilling (enc aaaa aaaa []) ∧
      (sourceComing (enc aaaa aaaa [])).2 = true ∧
      (WriterOk (failing (pending (bits [1]) (enc aaaa aaaa []))) ∧
        (failing (enc aaaa aaaa [])).ports.snkAns = List.replicate 0 .ok ++ .fail :: [] ∧
        0 < completedBytes (pending (bits [1]) (enc aaaa aaaa [])) (encode 4 2 (.reference 0 3))) ∧
      (sourceComing (broken (enc aaaa aaaa []))).1.length < 1 ∧ (sourceComing (broken (enc aaaa aaaa []))).2 = false :=
  ⟨enc_buffer, by decide, willing rfl, by decide, ⟨⟨rfl, by decide⟩, rfl, by decide⟩, by decide, by decide⟩

theorem witness_EndingClosesTheLastByte :
    (WriterOk State.reset ∧ State.reset.writer.wcnt = State.reset.writer.bitsWritten % 8) ∧
      WriterOk (pending (bits [1]) State.reset) ∧
      (pending (bits [1]) State.reset).writer.wcnt = (pending (bits [1]) State.reset).writer.bitsWritten % 8 ∧
      exec .eWriteEnding State.reset = .next (State.reset.setCtl .eFlush) :=
  ⟨⟨⟨rfl, by decide⟩, rfl⟩, ⟨rfl, by decide⟩, rfl, rfl⟩

theorem witness_FlushEndsTheCall :
    SinkTakes { enc [] [] [] with ctl := .eFlush } [] ∧ (failing (dec [] [])).ports.snkAns = .fail :: [] :=
  ⟨.inr ⟨rfl, rfl⟩, rfl⟩

theorem witness_ReadHeaderChecksAfterBothFields :
    (9 ≤ (wireBits (dec [] [0x21, 0x20])).1.length ∧ fieldVal ((wireBits (dec [] [0x21, 0x20])).1.take 5) = 4 ∧
        fieldVal (((wireBits (dec [] [0x21, 0x20])).1.drop 5).take 4) = 2) ∧
      (9 ≤ (wireBits (dec [] [0x22, 0x00])).1.length ∧ fieldVal (((wireBits (dec [] [0x22, 0x00])).1.drop 5).take 4) = 4) ∧
      (wireBits (dec [] [0x21])).1.length < 9 ∧ (wireBits (broken (dec [] []))).1.length < 9 := by decide

theorem witness_InitPrimesHistoryAndSink :
    ((dec [] aaaa).mem = { buf := [], hlen := 0, wlen := 0, wcap := 0 } ∧ (dec [] aaaa).params.wc ≤ (dec [] aaaa).params.h ∧
        SinkWilling (dec [] aaaa) ∧ 8 * (dec [] aaaa).params.wc ≤ (wireBits (dec [] aaaa)).1.length) ∧
      ((wireBits (dec [] [0x41])).1.length < 8 * (dec [] [0x41]).params.wc ∧ ReaderOk (dec [] aaaa)) ∧
      [SnkAnswer.ok, .ok, .ok, .fail] = List.replicate 3 .ok ++ .fail :: [] ∧ 3 < (dec [] aaaa).params.wc ∧
        8 * (3 + 1) ≤ (wireBits (dec [] aaaa)).1.length :=
  ⟨⟨rfl, by decide, willing rfl, by decide⟩, ⟨by decide, rfl, by decide⟩, by decide, by decide, by decide⟩

theorem witness_ReadRecordDispatchesOnTheTag :
    (wireBits (dec aaaa []) = ([], true) ∧ SinkWilling (dec aaaa [])) ∧
      (wireBits (failing (dec aaaa [])) = ([], true) ∧ (failing (dec aaaa [])).ports.snkAns = .fail :: []) ∧
      wireBits (dec aaaa [0xAC, 0x00]) = (true :: (byteBits 0x58 ++ bits [0, 0, 0, 0, 0, 0, 0]), true) ∧
      (wireBits (dec aaaa [0x06]) = (false :: (fieldBits 4 0 ++ (fieldBits 2 3 ++ bits [0])), true) ∧
        0 + (3 + (dec aaaa [0x06]).params.thr) ≤ (dec aaaa [0x06]).mem.hlen) ∧
      wireBits (broken (dec aaaa [])) = ([], false) :=
  ⟨⟨by decide, willing rfl⟩, ⟨by decide, rfl⟩, by decide, ⟨by decide, by decide⟩, by decide⟩

theorem witness_ReadLiteralOrEndCleanly :
    8 ≤ (wireBits (dec aaaa [0x42])).1.length ∧
      ((wireBits (midByte (bits [0, 0, 0, 0, 0, 0, 0]) (dec aaaa []))).1.length < 8 ∧
        (wireBits (midByte (bits [0, 0, 0, 0, 0, 0, 0]) (dec aaaa []))).2 = true ∧
        SinkWilling (midByte (bits [0, 0, 0, 0, 0, 0, 0]) (dec aaaa []))) ∧
      (failing (dec aaaa [])).ports.snkAns = .fail :: [] ∧ (wireBits (failing (dec aaaa []))).1.length < 8 ∧
      (wireBits (broken (dec aaaa []))).1.length < 8 ∧ (wireBits (broken (dec aaaa []))).2 = false :=
  ⟨by decide, ⟨by decide, by decide, willing rfl⟩, rfl, by decide, by decide, by decide⟩

theorem witness_ReadReferenceChecksTheBound :
    ((dec aaaa [0x30]).params.hb + (dec aaaa [0x30]).params.mlb ≤ (wireBits (dec aaaa [0x30])).1.length ∧
        1 ≤ (dec aaaa [0x30]).params.hb ∧ (dec aaaa [0x30]).params.hb ≤ 32 ∧ 1 ≤ (dec aaaa [0x30]).params.mlb ∧
        (dec aaaa [0x30]).params.mlb ≤ 32 ∧ fieldVal ((wireBits (dec aaaa [0x30])).1.take 4) + 0 + 1 ≤ 4) ∧
      (dec aaaa [0x40]).mem.hlen < fieldVal ((wireBits (dec aaaa [0x40])).1.take 4) + 0 + 1 ∧
      (wireBits (dec aaaa [])).1.length < (dec aaaa []).params.hb + (dec aaaa []).params.mlb := by decide

theorem witness_WriteDecodedFillsSinkThenHistory :
    (dec aaaa []).mem.wf ∧ (dec aaaa []).mem.wlen = 0 ∧ SinkWilling (dec aaaa []) ∧
      [SnkAnswer.ok, .fail] = List.replicate [(0x41 : Byte)].length .ok ++ [.fail] ∧
      [SnkAnswer.ok, .fail] = List.replicate 1 .ok ++ .fail :: [] ∧ 1 < [(0x41 : Byte), 0x42].length :=
  ⟨by decide, by decide, willing rfl, by decide, by decide, by decide⟩

theorem witness_EncoderEmitsItsElements :
    (enc [] [] []).ctl.side = .encoder ∧ 1 ≤ (enc [] [] []).params.hb ∧ (enc [] [] []).params.hb ≤ 32 ∧
      1 ≤ (enc [] [] []).params.mlb ∧ (enc [] [] []).params.mlb ≤ 32 := by decide

theorem witness_RestingBlockIgnoresElements : State.reset.busy = false ∧ (dec [] []).ctl.side = .decoder := by decide

theorem witness_SinkOnlyGrows :
    exec .bwFlush State.reset = .next { State.reset with ports := { State.reset.ports with snkFlushes := 1 } } := rfl

theorem witness_DecoderUndoesOneRecord :
    EncoderBuffer (enc aaaa aaaa []) ∧ 0 < (enc aaaa aaaa []).mem.wlen ∧
      step (enc aaaa aaaa []) = .next (stepOf (enc aaaa aaaa [])) ∧ (stepOf (enc aaaa aaaa [])).ctl ≠ .error ∧
      outBits (stepOf (enc aaaa aaaa [])) = outBits (enc aaaa aaaa []) ++ bits [0, 0, 0, 0, 0, 1, 1] ∧
      DecoderBuffer (dec aaaa [0x06]) ∧ (dec aaaa [0x06]).params.hb = (enc aaaa aaaa []).params.hb ∧
      (dec aaaa [0x06]).params.mlb = (enc aaaa aaaa []).params.mlb ∧
      (dec aaaa [0x06]).mem.hist = (enc aaaa aaaa []).mem.hist ∧ SinkWilling (dec aaaa [0x06]) ∧
      wireBits (dec aaaa [0x06]) = (bits [0, 0, 0, 0, 0, 1, 1] ++ [false], true) := by
  refine ⟨enc_buffer, by decide, ?_, by decide, by decide, ⟨⟨by decide, rfl⟩, by decide, by decide, by decide, by decide,
    by decide⟩, by decide, by decide, by decide, willing rfl, by decide⟩
  rfl

theorem witness_DecodeOfEncodeIsTheInput :
    3 ≤ (4 : BitVec 5).toNat ∧ 2 ≤ (2 : BitVec 4).toNat ∧ (2 : BitVec 4).toNat < (4 : BitVec 5).toNat ∧
      2 * windowOf (4 : BitVec 5).toNat (2 : BitVec 4).toNat ≤ (aaaa ++ aaaa).length ∧ State.reset.busy = false ∧
      (∀ sink : List Byte, { State.reset with host := [.writeCmd .decode, .attach (sink.map .byte) [], .start] }.host =
        [.writeCmd .decode, .attach (sink.map .byte) [], .start]) ∧
      { State.reset with host := [.writeCfgHb 4, .writeCfgMlb 2, .writeCfgSd 0, .writeCmd .encode,
          .attach ((aaaa ++ aaaa).map .byte) [], .start] }.host =
        [.writeCfgHb 4, .writeCfgMlb 2, .writeCfgSd 0, .writeCmd .encode, .attach ((aaaa ++ aaaa).map .byte) [], .start] :=
  ⟨by decide, by decide, by decide, by decide, rfl, fun _ => rfl, rfl⟩

/-- The encoder state of V1 before its record, as a good state. -/
theorem enc_inv : Inv (enc aaaa aaaa []) where
  call := ⟨enc_buffer, by decide⟩
  widths := ⟨by decide, by decide, by decide, by decide, by decide, by decide⟩
  writer := ⟨rfl, by decide⟩
  cursor := fun _ => rfl
  reader := ⟨rfl, by decide⟩
  err := by decide
  clean := by decide

theorem witness_StepKeepsGoodStatesGood :
    Inv (enc aaaa aaaa []) ∧ step (enc aaaa aaaa []) = .next (stepOf (enc aaaa aaaa [])) := by
  refine ⟨enc_inv, ?_⟩; rfl

theorem witness_GoodStatesGoOn : Inv (enc aaaa aaaa []) ∧ HostKeepsOff (enc aaaa aaaa []) :=
  ⟨enc_inv, fun _ _ _ h => by cases h⟩

theorem witness_CallsRunWithoutRefusal : Inv (enc aaaa aaaa []) ∧ (enc aaaa aaaa []).host = [] := ⟨enc_inv, rfl⟩

theorem witness_ResetWorksInsideAStep :
    ({ State.reset with host := [.resetDuring 1 1] }.host = .resetDuring 1 1 :: [] ∧ State.reset.busy = false ∧
        SinkWilling State.reset) ∧
      ({ dec aaaa [] with ctl := .dWriteDecoded, record := { tag := false, byte := 0, pos := 0, len := 2 } }.ctl = .dWriteDecoded ∧
        1 < (decodedSegment { dec aaaa [] with
          ctl := .dWriteDecoded, record := { tag := false, byte := 0, pos := 0, len := 2 } }).length) ∧
      ({ enc aaaa aaaa [] with ctl := .ePrimeHistory }.ctl = .ePrimeHistory ∧ WriterOk (enc aaaa aaaa []) ∧
        3 < completedBytes (enc aaaa aaaa []) (bytesBits (enc aaaa aaaa []).mem.hist)) ∧
      FreshBuffer { dec [] aaaa with ctl := .dInit } ∧ (dec [] aaaa).params.wc ≤ (dec [] aaaa).params.h ∧
        (dec [] aaaa).ports.src.length < 5 ∧ 3 < (dec [] aaaa).params.wc ∧ 8 * (3 + 1) ≤ (wireBits (dec [] aaaa)).1.length :=
  ⟨⟨rfl, by decide, willing rfl⟩, ⟨rfl, by decide⟩, ⟨rfl, ⟨rfl, by decide⟩, by decide⟩, rfl, by decide, by decide, by decide,
    by decide⟩

end Sys2Proof.Machine.Tests
end

section
/-! PROOFS. The derived constants of the legal parameter pairs: the bands of THR and the bounds of H and WC (R5, R6, R7). -/

namespace Sys2Proof.Machine

/-- The parameter set built from a legal pair is one that a call can hold. -/
theorem paramsOf_ok {hb mlb : Nat} (h : paramsLegal hb mlb = true) (sd : Nat) : ParamsOk (paramsOf hb mlb sd) := ⟨h, rfl⟩

/-- THR is the least count of 9-bit literals that costs more bits than a REFERENCE. -/
theorem thresholdOf_between (hb mlb : Nat) :
    9 * (thresholdOf hb mlb - 1) ≤ 1 + hb + mlb ∧ 1 + hb + mlb < 9 * thresholdOf hb mlb := by
  unfold thresholdOf
  omega

/-- The bands of THR in R7: they end where 1 + HB + MLB reaches a multiple of 9. -/
theorem thresholdOf_bands {hb mlb : Nat} (h : hb + mlb ≤ 52) :
    thresholdOf hb mlb = (if hb + mlb ≤ 7 then 1 else if hb + mlb ≤ 16 then 2 else if hb + mlb ≤ 25 then 3
      else if hb + mlb ≤ 34 then 4 else if hb + mlb ≤ 43 then 5 else 6) := by
  have hcost := thresholdOf_between hb mlb
  split_ifs <;> omega

theorem capacityOf_ge_eight {hb : Nat} (h : 3 ≤ hb) : 8 ≤ capacityOf hb :=
  Nat.pow_le_pow_right (n := 2) (by omega) h

/-- Two windows fit the capacity but where HB = MLB + 1 and THR is above 1: for HB = MLB + 1, H is 2 * 2^MLB and two windows
are 2 * (THR - 1) more; from HB = MLB + 2 on, H leaves room for THR up to 2^MLB + 1. -/
theorem capacityOf_lt_two_windowOf_iff {hb mlb : Nat} (h : paramsLegal hb mlb = true) :
    capacityOf hb < 2 * windowOf hb mlb ↔ hb = mlb + 1 ∧ 4 ≤ mlb := by
  obtain ⟨-, hHigh, mLow, mHigh, hlt⟩ := (paramsLegal_iff hb mlb).1 h
  have hcost := thresholdOf_between hb mlb
  unfold capacityOf windowOf
  obtain rfl | hgap : hb = mlb + 1 ∨ mlb + 2 ≤ hb := by omega
  · have hdouble : 2 ^ (mlb + 1) = 2 * 2 ^ mlb := by ring
    omega
  · have hquad : 4 * 2 ^ mlb ≤ 2 ^ hb := by
      calc 4 * 2 ^ mlb = 2 ^ (mlb + 2) := by ring
        _ ≤ 2 ^ hb := Nat.pow_le_pow_right (by omega) hgap
    have hroom : thresholdOf hb mlb ≤ 2 ^ mlb + 1 := by
      obtain rfl | hm : mlb = 2 ∨ 3 ≤ mlb := by omega
      · omega
      · have : 2 ^ 3 ≤ 2 ^ mlb := Nat.pow_le_pow_right (by omega) hm
        omega
    omega

/-- Settles O5: THR by its two bounds, the ranges of H and WC from those of a legal parameter set, and the pairs with
2 * WC > H by the distance of HB from MLB. -/
theorem derivedConstantsHaveTheirRanges : Obligations.DerivedConstantsHaveTheirRanges := by
  intro hb mlb hLow hHigh mLow mHigh hlt
  have hlegal : paramsLegal hb mlb = true := (paramsLegal_iff hb mlb).2 ⟨hLow, hHigh, mLow, mHigh, hlt⟩
  have hr : ParamRanges (paramsOf hb mlb 0) := (paramsOf_ok hlegal 0).ranges
  exact ⟨thresholdOf_bands (by omega), capacityOf_ge_eight hLow, hr.capacityHigh, hr.windowLow, hr.windowHigh,
    hr.windowFits, capacityOf_lt_two_windowOf_iff hlegal, thresholdOf_between hb mlb⟩

end Sys2Proof.Machine
end

section
/-! PROOFS. What one step is, said once: the host's next action or the instruction STATE names (R17, R20 to R24); the values
after reset, the commands, the host's writes and its ports. -/

namespace Sys2Proof.Machine

/-! ## Whose turn it is -/

/-- With no host action pending the engine moves (log 1). -/
theorem step_of_silent {s : State} (h : s.host = []) : step s = engineStep s := by
  unfold step takeTurn
  rw [h]

/-- A pending host action is carried out first (log 1). -/
theorem step_of_host {s : State} {e : HostEvent} {rest : List HostEvent} (h : s.host = e :: rest) :
    step s = hostStep e (s.setHost rest) := by
  unfold step takeTurn
  rw [h]

theorem engineStep_of_instr {s : State} {i : Instr} (h : nextInstr s = some i) : engineStep s = exec i s := by
  rw [engineStep, h]

/-- A block whose STATE names no instruction stays as it is (R122, R137). -/
theorem engineStep_of_rest {s : State} (h : nextInstr s = none) : engineStep s = .next s := by
  rw [engineStep, h]

theorem nextInstr_of_segment {s : State} (h : s.ctl = .dWriteDecoded) :
    nextInstr s = some (.dWriteDecoded (decodedSegment s)) := by
  rw [nextInstr, h]

theorem decodedSegment_literal {s : State} (h : s.record.tag = true) : decodedSegment s = [s.record.byte] := by
  rw [decodedSegment, if_pos h]

theorem decodedSegment_reference {s : State} (h : s.record.tag = false) :
    decodedSegment s = (s.mem.hist.drop s.record.pos).take s.record.len := by
  rw [decodedSegment, h]; rfl

/-- A silent step in a STATE that names `i` runs `i`. -/
theorem step_of_instr {s : State} {i : Instr} (hs : s.host = []) (h : nextInstr s = some i) : step s = exec i s :=
  (step_of_silent hs).trans (engineStep_of_instr h)

/-- Settles O18: each STATE names one instruction, and for D_WRITE_DECODED the tag picks the segment. -/
theorem stepRunsTheInstructionStateNames : Obligations.StepRunsTheInstructionStateNames := by
  intro s hs
  have names {c : Ctl} {i : Instr} (hn : s.ctl = c → nextInstr s = some i) (hc : s.ctl = c) : step s = exec i s :=
    step_of_instr hs (hn hc)
  refine ⟨names ?_, names ?_, names ?_, names ?_, names ?_, names ?_, names ?_, names ?_, names ?_,
    fun hc ht => ?literal, fun hc ht => ?reference⟩
  case literal => rw [← decodedSegment_literal ht]; exact step_of_instr hs (nextInstr_of_segment hc)
  case reference => rw [← decodedSegment_reference ht]; exact step_of_instr hs (nextInstr_of_segment hc)
  all_goals
    intro hc
    rw [nextInstr, hc]

/-- Settles O6: the table is State.reset field by field, and IDLE names no instruction. -/
theorem resetLeavesTheTableOfValues : Obligations.ResetLeavesTheTableOfValues := by
  refine ⟨rfl, rfl, rfl, rfl, rfl, rfl, rfl, rfl, rfl, rfl, ?_⟩
  rw [step_of_silent rfl, engineStep_of_rest rfl]

/-! ## The host's writes and commands -/

/-- A host write is a new configuration at rest and the old one while BUSY (R24). -/
theorem hostWrite_eq (s : State) (c : HostRegs) : hostWrite s c = s.setCfg (if s.busy then s.cfg else c) := by
  unfold hostWrite
  split <;> rfl

theorem hostWrite_of_busy {s : State} (h : s.busy = true) (c : HostRegs) : hostWrite s c = s := if_pos h

theorem hostWrite_of_rest {s : State} (h : s.busy = false) (c : HostRegs) : hostWrite s c = s.setCfg c :=
  if_neg (by simp [h])

theorem hostStart_of_busy {s : State} (h : s.busy = true) : hostStart s = s := if_pos h

theorem hostStart_of_rest {s : State} (h : s.busy = false) : hostStart s = startCall s := if_neg (by simp [h])

/-- Either command is the CMD write and START together (R22, R69; log 11). -/
theorem exec_commandInstr (c : Cmd) (s : State) :
    exec (commandInstr c) s = .next (hostStart (hostWrite s { s.cfg with cmd := c })) := by
  cases c <;> rfl

theorem exec_commandInstr_of_busy {s : State} (h : s.busy = true) (c : Cmd) : exec (commandInstr c) s = .next s := by
  rw [exec_commandInstr, hostWrite_of_busy h, hostStart_of_busy h]

theorem exec_commandInstr_of_rest {s : State} (h : s.busy = false) (c : Cmd) :
    exec (commandInstr c) s = .next (startCall (s.setCfg { s.cfg with cmd := c })) := by
  rw [exec_commandInstr, hostWrite_of_rest h, hostStart_of_rest (by exact h)]

/-- Settles O8: the CMD write and START are both taken at rest and both ignored while BUSY. -/
theorem commandsStartACall : Obligations.CommandsStartACall := by
  intro s
  refine ⟨fun h => ⟨exec_commandInstr_of_rest h .encode, exec_commandInstr_of_rest h .decode⟩,
    fun h => ⟨exec_commandInstr_of_busy h .encode, exec_commandInstr_of_busy h .decode⟩, fun rest h => ?_⟩
  rw [step_of_host h]
  rfl

/-- Settles O9: a pending write is carried out by `hostWrite`; what is readable is the definition of `hostRead`. -/
theorem hostAccessKeepsTheRules : Obligations.HostAccessKeepsTheRules := by
  intro s rest
  have write {e : HostEvent} {c : HostRegs} (he : hostStep e (s.setHost rest) = .next (hostWrite (s.setHost rest) c))
      (h : s.host = e :: rest) : step s = .next { s with host := rest, cfg := if s.busy then s.cfg else c } := by
    rw [step_of_host h, he, hostWrite_eq]
    rfl
  exact ⟨fun _ => write rfl, fun _ => write rfl, fun _ => write rfl, fun _ => write rfl, rfl, rfl, rfl, rfl⟩

theorem hostAttach_of_rest {s : State} (h : s.busy = false) (src : List SrcAnswer) (ans : List SnkAnswer) :
    hostAttach src ans s = .next (s.setPorts { src := src, snk := [], snkFlushes := 0, snkAns := ans }) :=
  if_neg (by simp [h])

theorem hostAttach_of_busy {s : State} (h : s.busy = true) (src : List SrcAnswer) (ans : List SnkAnswer) :
    hostAttach src ans s = .refused .portsInUse := if_pos h

/-- Settles O16: attaching looks at BUSY only. -/
theorem portsAreAttachedAtRestOnly : Obligations.PortsAreAttachedAtRestOnly := by
  intro s rest src ans h
  rw [step_of_host h]
  exact ⟨fun hb => hostAttach_of_rest (s := s.setHost rest) hb src ans,
    fun hb => hostAttach_of_busy (s := s.setHost rest) hb src ans⟩

end Sys2Proof.Machine
end

section
/-! PROOFS. No instruction but the two commands changes the configuration or the host's coming actions, and none takes a byte
back from the sink (R20, R22, R42). -/

namespace Sys2Proof.Machine

/-! ## The instructions of the two controllers -/

theorem writeHeaderFields_stays (hb mlb : Nat) (s : State) : (writeHeaderFields hb mlb s).Stays s :=
  (writeHeaderFields_ends hb mlb s).stays

/-- A last change of fields outside the frame, as the new STATE. -/
theorem Res.Stays.andThen {α : Type} {s : State} {x : Res α} (h : x.Stays s) {g : State → State}
    (hg : ∀ t, Machine.Stays t (g t)) : (x.bind fun _ t => .ok () (g t)).Stays s :=
  h.bind fun _ t => hg t

theorem setCtl_stays (c : Ctl) (s : State) : Stays s (s.setCtl c) := .of_eq rfl rfl rfl

theorem setRecord_stays (x : RecordRegs) (s : State) : Stays s (s.setRecord x) := .of_eq rfl rfl rfl

theorem setHdr_stays (x : HeaderRegs) (s : State) : Stays s (s.setHdr x) := .of_eq rfl rfl rfl

theorem setupEncoder_stays (s : State) : (setupEncoder s).Stays s := by
  unfold setupEncoder
  dsimp only
  split
  · exact Res.Stays.from (by exact .of_eq rfl rfl rfl) ((constructReader_stays _).andThen (setCtl_stays _))
  · exact Res.Stays.from (setHdr_stays _ s) (raising_stays _ _)

theorem emitRecord_stays (s : State) : (emitRecord s).Stays s := by
  have advance (m : Nat) (t : State) : ((advanceReader m t).bind fun _ u => .ok () (afterRecord u)).Stays t :=
    (advanceReader_stays m t).andThen fun u => setCtl_stays _ u
  unfold emitRecord
  generalize bestMatch s.mem.hist s.mem.win s.params.thr s.params.sd s.search = r
  refine Res.Stays.from (t := s.setSearch r) (by exact .of_eq rfl rfl rfl) ?_
  dsimp only
  split
  · exact (writeReference_stays _ _ _).bind fun _ t => advance _ t
  · split
    · trivial
    · exact (writeLiteral_stays _ _).bind fun _ t => advance _ t

theorem writeEnding_stays (s : State) : (writeEnding s).Stays s := by
  unfold writeEnding
  split
  · exact (writeBit_stays true s).bind fun _ t => padLoop_stays 8 t
  · exact Machine.Stays.refl s

theorem readHeader_stays (s : State) : (readHeader s).Stays s :=
  needField_stays (readBits_stays 5 s) fun _ t =>
    needField_stays (Res.Stays.from (setHdr_stays _ t) (readBits_stays 4 _)) fun _ u =>
      Res.Stays.from (setHdr_stays _ u) (acceptHeader_stays _)

theorem readRecord_stays (s : State) : (readRecord s).Stays s := by
  refine (readBit_stays s).bind ?_
  rintro (_ | tag) t
  · exact endCleanly_stays t
  · cases tag
    · exact Res.Stays.from (setRecord_stays _ t) (readReference_stays _)
    · exact Res.Stays.from (setRecord_stays _ t) (readLiteral_stays _)

theorem deliverSegment_stays (seg : List Byte) (s : State) : (deliverSegment seg s).Stays s :=
  (snkWriteAll_stays seg s).bind fun _ _ => Machine.Stays.of_eq rfl rfl rfl

/-! ## The elements -/

theorem acceptHeaderElement_stays (hb : BitVec 5) (mlb : BitVec 4) (s : State) : (acceptHeaderElement hb mlb s).Stays s :=
  needField_stays (readBits_stays 5 s) fun _ t =>
    needField_stays (Res.Stays.from (setHdr_stays _ t) (readBits_stays 4 _)) fun _ u =>
      Res.Stays.from (setHdr_stays _ u) (acceptHeader_stays _)

theorem acceptPrimeByte_stays (b : Byte) (s : State) : (acceptPrimeByte b s).Stays s :=
  needField_stays (readBits_stays 8 s) fun _ t => (deliverByte_stays b t).andThen fun u => by
    split
    · exact setCtl_stays _ u
    · exact Stays.refl u

theorem acceptLiteral_stays (b : Byte) (s : State) : (acceptLiteral b s).Stays s :=
  acceptTag_stays true s fun t => (readBits_stays 8 t).bind fun r u => by
    cases r with
    | eof k => exact endCleanly_stays u
    | val v => exact Machine.Stays.of_eq rfl rfl rfl

theorem acceptReferenceElement_stays (pos encLen : Nat) (s : State) : (acceptReferenceElement pos encLen s).Stays s :=
  acceptTag_stays false s fun t => needField_stays (readBits_stays _ t) fun _ u =>
    needField_stays (Res.Stays.from (setRecord_stays _ u) (readBits_stays _ _)) fun _ v =>
      Res.Stays.from (setRecord_stays _ v) (acceptReference_stays _)

/-- What every element is: `enc` to the encoder, `dec` to the decoder, nothing at rest (log 9). -/
def bySide (s : State) (enc dec : Res Unit) : Host.Outcome State Fault Refusal :=
  match s.ctl.side with
  | .encoder => enc.outcome
  | .decoder => dec.outcome
  | .resting => .next s

theorem execHeader_eq (hb : BitVec 5) (mlb : BitVec 4) (s : State) :
    execHeader hb mlb s = bySide s (writeHeaderFields hb.toNat mlb.toNat s) (acceptHeaderElement hb mlb s) := rfl

theorem execPrimeByte_eq (b : Byte) (s : State) : execPrimeByte b s = bySide s (writeByte b s) (acceptPrimeByte b s) := rfl

theorem execLiteral_eq (b : Byte) (s : State) : execLiteral b s = bySide s (writeLiteral b s) (acceptLiteral b s) := rfl

theorem execReference_eq (pos encLen : Nat) (s : State) : execReference pos encLen s =
    bySide s (writeReference pos (encLen + s.params.thr) s) (acceptReferenceElement pos encLen s) := rfl

theorem execSentinel_eq (s : State) : execSentinel s = bySide s (writeBit true s) (acceptTag true s readLiteral) := rfl

theorem execPad_eq (n : Nat) (s : State) :
    execPad n s = bySide s (writeBitList (List.replicate n false) s) (readLiteral s) := rfl

theorem bySide_stays {s t : State} {enc dec : Res Unit} {o : Host.Outcome State Fault Refusal} (ho : o = bySide s enc dec)
    (he : enc.Stays s) (hd : dec.Stays s) (h : o = .next t) : Stays s t := by
  rw [ho, bySide] at h
  split at h
  · exact he.next h
  · exact hd.next h
  · cases h; exact Stays.refl s

/-! ## Every instruction -/

/-- What no instruction but the two commands changes (R20, R22, R42). -/
theorem exec_stays {i : Instr} {s t : State} (he : i ≠ .encode) (hd : i ≠ .decode) (h : exec i s = .next t) : Stays s t := by
  cases i with
  | header hb mlb =>
    exact bySide_stays (execHeader_eq hb mlb s) (writeHeaderFields_stays _ _ s) (acceptHeaderElement_stays hb mlb s) h
  | primeByte b => exact bySide_stays (execPrimeByte_eq b s) (writeByte_ends b s).stays (acceptPrimeByte_stays b s) h
  | literal b => exact bySide_stays (execLiteral_eq b s) (writeLiteral_stays b s) (acceptLiteral_stays b s) h
  | reference pos encLen =>
    exact bySide_stays (execReference_eq pos encLen s) (writeReference_stays pos _ s) (acceptReferenceElement_stays pos encLen s) h
  | sentinel => exact bySide_stays (execSentinel_eq s) (writeBit_stays true s) (acceptTag_stays true s readLiteral_stays) h
  | pad n => exact bySide_stays (execPad_eq n s) (writeBitList_ends _ s).stays (readLiteral_stays s) h
  | encode => exact absurd rfl he
  | decode => exact absurd rfl hd
  | bwWriteBit b => exact (writeBit_stays b s).next h
  | bwWriteBits n v => exact (writeBits_stays n v s).next h
  | bwWriteByte b => exact (writeBits_stays 8 _ s).next h
  | bwPad => exact (padLoop_stays 8 s).next h
  | bwFlush => exact (snkFlush_stays s).next h
  | brReadBit => exact (readBit_stays s).nextOf h
  | brReadBits n => exact (readBits_stays n s).nextOf h
  | brReadByte => exact (readBits_stays 8 s).nextOf h
  | histPush seg => cases h; exact .of_eq rfl rfl rfl
  | swrConstruct => exact (constructReader_stays s).next h
  | swrNext m =>
    exact ((advanceReader_stays m s).bind (f := fun _ t => .ok t.mem t) fun _ t => Machine.Stays.refl t).nextOf h
  | swrCurrent => cases h; exact .of_eq rfl rfl rfl
  | firstMatch seq sub => cases h; exact .of_eq rfl rfl rfl
  | bestMatch seq sub thr depth => cases h; exact .of_eq rfl rfl rfl
  | eSetup => exact (setupEncoder_stays s).next h
  | eWriteHeader => exact ((writeHeaderFields_stays _ _ s).andThen (setCtl_stays _)).next h
  | ePrimeHistory => exact ((writeBytes_ends _ s).stays.andThen fun t => setCtl_stays _ t).next h
  | eEmitRecord => exact (emitRecord_stays s).next h
  | emitReference p l => exact (writeReference_stays p l s).next h
  | emitLiteral b => exact (writeLiteral_stays b s).next h
  | eWriteEnding => exact ((writeEnding_stays s).andThen (setCtl_stays _)).next h
  | eFlush => exact ((snkFlush_stays s).andThen enterDone_stays).next h
  | dReadHeader => exact (readHeader_stays s).next h
  | dInit => exact ((readPriming_stays _ s).andThen (setCtl_stays _)).next h
  | dReadRecord => exact (readRecord_stays s).next h
  | readLiteral => exact (readLiteral_stays s).next h
  | readReference => exact (readReference_stays s).next h
  | dWriteDecoded seg => exact (deliverSegment_stays seg s).next h
  | dDone => exact (finishDecode_stays s).next h
  | raise e => cases h; exact raiseError_stays e s

/-- The commands are the host's, never the controller's. -/
theorem nextInstr_not_command {s : State} {i : Instr} (h : nextInstr s = some i) : i ≠ .encode ∧ i ≠ .decode := by
  unfold nextInstr at h
  split at h <;> cases h <;> exact ⟨by simp, by simp⟩

/-- What no controller step changes (R20, R42). -/
theorem engineStep_stays {s t : State} (h : engineStep s = .next t) : Stays s t := by
  cases hn : nextInstr s with
  | none => rw [engineStep_of_rest hn] at h; cases h; exact Stays.refl s
  | some i =>
    obtain ⟨he, hd⟩ := nextInstr_not_command hn
    rw [engineStep_of_instr hn] at h
    exact exec_stays he hd h

theorem hostStart_cfg (s : State) : (hostStart s).cfg = s.cfg := by
  unfold hostStart
  split <;> rfl

/-- A command leaves CFG_* alone (R20). -/
theorem exec_commandInstr_cfg {c : Cmd} {s t : State} (h : exec (commandInstr c) s = .next t) :
    t.cfg.cfgHb = s.cfg.cfgHb ∧ t.cfg.cfgMlb = s.cfg.cfgMlb ∧ t.cfg.cfgSd = s.cfg.cfgSd := by
  rw [exec_commandInstr] at h
  cases h
  rw [hostStart_cfg, hostWrite_eq, State.setCfg_cfg]
  split <;> exact ⟨rfl, rfl, rfl⟩

/-- Settles O11: the two commands write CMD at most, every other instruction keeps the configuration. -/
theorem blockNeverWritesConfiguration : Obligations.BlockNeverWritesConfiguration := by
  intro i s t h
  by_cases he : i = .encode
  · subst he
    obtain ⟨h1, h2, h3⟩ := exec_commandInstr_cfg (c := .encode) h
    exact ⟨h1, h2, h3, fun hn => absurd rfl hn⟩
  by_cases hd : i = .decode
  · subst hd
    obtain ⟨h1, h2, h3⟩ := exec_commandInstr_cfg (c := .decode) h
    exact ⟨h1, h2, h3, fun _ hn => absurd rfl hn⟩
  have hcfg := (exec_stays he hd h).cfg
  rw [hcfg]
  exact ⟨rfl, rfl, rfl, fun _ _ => rfl⟩

end Sys2Proof.Machine
end

section
/-! PROOFS. The decoder's own operations do not see a change that the shared operations do not see; so it ignores the
configuration registers (R20). -/

namespace Sys2Proof.Machine

/-- The STATEs of the decoder (R104). -/
theorem Ctl.side_decoder {c : Ctl} (h : c.side = .decoder) :
    c = .dReadHeader ∨ c = .dInit ∨ c = .dReadRecord ∨ c = .dWriteDecoded := by
  cases c <;> simp [Ctl.side] at h ⊢

section
variable {f : State → State} (hf : Blind f)
include hf

theorem Blind.decodedSegment (s : State) : decodedSegment (f s) = decodedSegment s := by
  unfold Machine.decodedSegment
  rw [hf.record, hf.mem]

theorem Blind.needField {x y : Res ReadResult} {g k : Nat → State → Res Unit} (hx : y = x.map f)
    (hg : ∀ v t, k v (f t) = (g v t).map f) : needField y k = (needField x g).map f := by
  refine hf.bind hx fun r t => ?_
  cases r with
  | eof k => exact hf.raising _ t
  | val v => exact hg v t

theorem Blind.finishDecode (s : State) : finishDecode (f s) = (finishDecode s).map f :=
  hf.bind (hf.snkFlush s) fun _ t => by rw [hf.enterDone, Res.map_ok]

theorem Blind.endCleanly (s : State) : endCleanly (f s) = (endCleanly s).map f := by
  unfold Machine.endCleanly
  rw [hf.setCleanEnd, hf.finishDecode]

theorem Blind.acceptHeader (s : State) : acceptHeader (f s) = (acceptHeader s).map f := by
  unfold Machine.acceptHeader
  rw [hf.hdr, hf.params]
  split
  · rw [hf.setParams, hf.setCtl, Res.map_ok]
  · exact hf.raising _ s

/-- D_READ_HEADER (R105). -/
theorem Blind.readHeader (s : State) : readHeader (f s) = (readHeader s).map f := by
  refine hf.needField (hf.readBits 5 s) fun a t => ?_
  rw [hf.hdr, hf.setHdr]
  refine hf.needField (hf.readBits 4 _) fun b u => ?_
  rw [hf.hdr, hf.setHdr, hf.acceptHeader]

theorem Blind.deliverByte (b : Byte) (s : State) : deliverByte b (f s) = (deliverByte b s).map f :=
  hf.bind (hf.snkWrite b s) fun _ t => by rw [hf.pushHistory, Res.map_ok]

theorem Blind.readPriming (n : Nat) (s : State) : readPriming n (f s) = (readPriming n s).map f := by
  induction n generalizing s with
  | zero => rfl
  | succ n ih => exact hf.needField (hf.readBits 8 s) fun _ t => hf.bind (hf.deliverByte _ t) fun _ u => ih u

/-- D_INIT (R107). -/
theorem Blind.initDecoder (s : State) :
    ((Machine.readPriming (f s).params.wc (f s)).bind fun _ t => Res.ok () (t.setCtl .dReadRecord)) =
      ((Machine.readPriming s.params.wc s).bind fun _ t => .ok () (t.setCtl .dReadRecord)).map f := by
  rw [hf.params]
  exact hf.bind (hf.readPriming _ s) fun _ t => by rw [hf.setCtl, Res.map_ok]

theorem Blind.readLiteral (s : State) : readLiteral (f s) = (readLiteral s).map f := by
  refine hf.bind (hf.readBits 8 s) fun r t => ?_
  cases r with
  | eof k => exact hf.endCleanly t
  | val v => dsimp only; rw [hf.record, hf.setRecord, hf.setCtl, Res.map_ok]

theorem Blind.acceptReference (s : State) : acceptReference (f s) = (acceptReference s).map f := by
  unfold Machine.acceptReference
  rw [hf.mem, hf.record]
  split
  · exact hf.raising _ s
  · rw [hf.setCtl, Res.map_ok]

theorem Blind.readReference (s : State) : readReference (f s) = (readReference s).map f := by
  unfold Machine.readReference
  rw [hf.params]
  refine hf.needField (hf.readBits _ s) fun p t => ?_
  rw [hf.params, hf.record, hf.setRecord]
  refine hf.needField (hf.readBits _ _) fun e u => ?_
  rw [hf.params, hf.record, hf.setRecord, hf.acceptReference]

/-- D_READ_RECORD (R108). -/
theorem Blind.readRecord (s : State) : readRecord (f s) = (readRecord s).map f := by
  refine hf.bind (hf.readBit s) fun r t => ?_
  match r with
  | none => exact hf.endCleanly t
  | some true => dsimp only; rw [hf.record, hf.setRecord, hf.readLiteral]
  | some false => dsimp only; rw [hf.record, hf.setRecord, hf.readReference]

/-- D_WRITE_DECODED (R111). -/
theorem Blind.deliverSegment (seg : List Byte) (s : State) : deliverSegment seg (f s) = (deliverSegment seg s).map f :=
  hf.bind (hf.snkWriteAll seg s) fun _ t => by rw [hf.pushHistory, hf.setCtl, Res.map_ok]

theorem Blind.nextInstr (s : State) : nextInstr (f s) = nextInstr s := by
  unfold Machine.nextInstr
  rw [hf.ctl, hf.decodedSegment]

/-- A controller step of the decoder is an operation that does not see `f`. -/
theorem Blind.engineStep_decoder {s : State} (h : s.ctl.side = .decoder) :
    ∃ x : Res Unit, engineStep s = x.outcome ∧ engineStep (f s) = (x.map f).outcome := by
  have runs {i : Instr} {x : Res Unit} (hi : Machine.nextInstr s = some i) (hx : exec i s = x.outcome)
      (hy : exec i (f s) = (x.map f).outcome) :
      ∃ x : Res Unit, engineStep s = x.outcome ∧ engineStep (f s) = (x.map f).outcome :=
    ⟨x, (engineStep_of_instr hi).trans hx, (engineStep_of_instr ((hf.nextInstr s).trans hi)).trans hy⟩
  obtain hc | hc | hc | hc := Ctl.side_decoder h
  · exact runs (i := .dReadHeader) (by rw [Machine.nextInstr, hc]) rfl (congrArg Res.outcome (hf.readHeader s))
  · exact runs (i := .dInit) (by rw [Machine.nextInstr, hc]) rfl (congrArg Res.outcome (hf.initDecoder s))
  · exact runs (i := .dReadRecord) (by rw [Machine.nextInstr, hc]) rfl (congrArg Res.outcome (hf.readRecord s))
  · exact runs (nextInstr_of_segment hc) rfl (congrArg Res.outcome (hf.deliverSegment _ s))

end

theorem Res.outcome_map_next {α : Type} {f : State → State} {x : Res α} {t : State} (h : x.outcome = .next t) :
    (x.map f).outcome = .next (f t) := by
  cases x <;> cases h <;> rfl

theorem Res.outcome_map_refused {α : Type} {f : State → State} {x : Res α} {r : Refusal} (h : x.outcome = .refused r) :
    (x.map f).outcome = .refused r := by
  cases x <;> cases h; rfl

/-- Settles O12: the configuration is a change the decoder does not see. -/
theorem decoderIgnoresConfiguration : Obligations.DecoderIgnoresConfiguration := by
  intro s c hs hside
  obtain ⟨x, hx, hxc⟩ := (blind_setCfg c).engineStep_decoder hside
  rw [step_of_silent hs, step_of_silent (s := s.setCfg c) hs, hx, hxc]
  exact ⟨fun t => Res.outcome_map_next, fun r => Res.outcome_map_refused⟩

end Sys2Proof.Machine
end

section
/-! PROOFS. The invariant of a good state: it holds after reset, every host action and every controller step keeps it, and from
it only attaching ports to a running call is refused. -/

namespace Sys2Proof.Machine

/-! ## Reset and the host's actions -/

/-- Settles O56: in IDLE the invariant is the register widths, and every register is 0. -/
theorem resetStateIsGood : Obligations.ResetStateIsGood where
  call := trivial
  widths := by unfold FitsWidths; decide
  writer := by unfold WriterOk; decide
  cursor := fun _ => rfl
  reader := by unfold ReaderOk; decide
  err := by decide
  clean := by decide

/-- The invariant does not speak of the configuration, the ports, the host's actions and the draw counter. -/
theorem Inv.env {s : State} (h : Inv s) (c : HostRegs) (p : Ports) (l : List HostEvent) (k : Nat) :
    Inv ((((s.setCfg c).setPorts p).setHost l).setFreeCount k) :=
  ⟨h.call, h.widths, h.writer, h.cursor, h.reader, h.err, h.clean⟩

theorem Inv.setHost {s : State} (h : Inv s) (l : List HostEvent) : Inv (s.setHost l) := h.env s.cfg s.ports l s.freeCount

theorem Inv.setPorts {s : State} (h : Inv s) (p : Ports) : Inv (s.setPorts p) := h.env s.cfg p s.host s.freeCount

theorem Inv.setCfg {s : State} (h : Inv s) (c : HostRegs) : Inv (s.setCfg c) := h.env c s.ports s.host s.freeCount

theorem resetBlock_inv (s : State) : Inv (resetBlock s) := resetStateIsGood.env State.reset.cfg s.ports s.host s.freeCount

theorem hostWrite_inv {s : State} (h : Inv s) (c : HostRegs) : Inv (hostWrite s c) := by
  rw [hostWrite_eq]
  exact h.setCfg _

/-- The per-call initialisation makes a fresh call from any registers that fit (R33). -/
theorem startCall_inv {s : State} (h : FitsWidths s) : Inv (startCall s) := by
  obtain ⟨hp, hr, hs, -⟩ := h
  have hcall : CallInv (startCall s) ∧ (startCall s).ctl ≠ .error := by
    have hc : (startCall s).ctl = commandEntry s.cfg.cmd := rfl
    rw [CallInv, hc]
    cases s.cfg.cmd <;> exact ⟨⟨rfl, rfl⟩, by simp [commandEntry]⟩
  have zeros : 0 < 2 ^ 32 ∧ 0 < 2 ^ 16 ∧ 0 < 2 ^ 16 := by decide
  exact Inv.build hcall.1 ⟨hp, hr, hs, zeros, Nat.two_pow_pos 3, Nat.two_pow_pos 4⟩ ⟨rfl, Nat.two_pow_pos 3⟩ rfl
    ⟨rfl, Nat.zero_le 8⟩ rfl rfl hcall.2

theorem hostStart_inv {s : State} (h : Inv s) : Inv (hostStart s) := by
  unfold hostStart
  split
  · exact h
  · exact startCall_inv h.widths

/-! ## A controller step -/

/-- An operation that ends well, by a result or by a raise, answers a good state. -/
theorem Res.Ends.next_inv {α : Type} {x : Res α} (h : x.Ends (fun _ t => Inv t) Inv) : ∃ t, x.outcome = .next t ∧ Inv t := by
  obtain ⟨t, ht, ⟨-, hi⟩ | hi⟩ := h.next <;> exact ⟨t, ht, hi⟩

/-- From a good state a controller step is not refused and ends in a good state (R94, R104). -/
theorem engineStep_inv {s : State} (h : Inv s) : ∃ t, engineStep s = .next t ∧ Inv t := by
  have runs {i : Instr} {x : Res Unit} (hn : nextInstr s = some i) (hx : exec i s = x.outcome)
      (hi : x.Ends (fun _ t => Inv t) Inv) : ∃ t, engineStep s = .next t ∧ Inv t := by
    rw [engineStep_of_instr hn, hx]
    exact hi.next_inv
  cases hc : s.ctl with
  | idle => exact ⟨s, engineStep_of_rest (by rw [nextInstr, hc]), h⟩
  | eSetup => exact runs (i := .eSetup) (by rw [nextInstr, hc]) rfl (setupEncoder_inv h hc)
  | eWriteHeader => exact runs (i := .eWriteHeader) (by rw [nextInstr, hc]) rfl (writeHeader_inv h hc)
  | ePrimeHistory => exact runs (i := .ePrimeHistory) (by rw [nextInstr, hc]) rfl (primeHistory_inv h hc)
  | eEmitRecord => exact runs (i := .eEmitRecord) (by rw [nextInstr, hc]) rfl (emitRecord_inv h hc)
  | eWriteEnding => exact runs (i := .eWriteEnding) (by rw [nextInstr, hc]) rfl (writeEnding_inv h hc)
  | eFlush => exact runs (i := .eFlush) (by rw [nextInstr, hc]) rfl (flush_inv h hc)
  | dReadHeader => exact runs (i := .dReadHeader) (by rw [nextInstr, hc]) rfl (readHeader_inv h hc)
  | dInit => exact runs (i := .dInit) (by rw [nextInstr, hc]) rfl (init_inv h hc)
  | dReadRecord => exact runs (i := .dReadRecord) (by rw [nextInstr, hc]) rfl (readRecord_inv h hc)
  | dWriteDecoded => exact runs (nextInstr_of_segment hc) rfl (deliverSegment_inv h hc _)
  | done => exact ⟨s, engineStep_of_rest (by rw [nextInstr, hc]), h⟩
  | error => exact ⟨s, engineStep_of_rest (by rw [nextInstr, hc]), h⟩

/-! ## A step -/

/-- What a host action makes of a good state: a good state, but for ports attached to a running call (U7, log 15). -/
theorem hostStep_inv {s : State} (h : Inv s) (e : HostEvent) :
    (∃ t, hostStep e s = .next t ∧ Inv t) ∨
      ∃ src ans, e = .attach src ans ∧ s.busy = true ∧ hostStep e s = .refused .portsInUse := by
  cases e with
  | engineTurn => exact .inl (engineStep_inv h)
  | writeCfgHb v => exact .inl ⟨_, rfl, hostWrite_inv h _⟩
  | writeCfgMlb v => exact .inl ⟨_, rfl, hostWrite_inv h _⟩
  | writeCfgSd v => exact .inl ⟨_, rfl, hostWrite_inv h _⟩
  | writeCmd c => exact .inl ⟨_, rfl, hostWrite_inv h _⟩
  | attach src ans =>
    cases hb : s.busy with
    | false => exact .inl ⟨_, hostAttach_of_rest hb src ans, h.setPorts _⟩
    | true => exact .inr ⟨src, ans, rfl, rfl, hostAttach_of_busy hb src ans⟩
  | start => exact .inl ⟨_, exec_commandInstr _ s, hostStart_inv (hostWrite_inv h _)⟩
  | reset => exact .inl ⟨_, rfl, resetBlock_inv s⟩
  | resetDuring reads writes => exact .inl ⟨_, rfl, resetBlock_inv _⟩

/-- What a step makes of a good state: a good state, but where the host attaches ports to a running call. -/
theorem step_inv {s : State} (h : Inv s) :
    (∃ t, step s = .next t ∧ Inv t) ∨
      ∃ src ans rest, s.host = .attach src ans :: rest ∧ s.busy = true ∧ step s = .refused .portsInUse := by
  cases hs : s.host with
  | nil => rw [step_of_silent hs]; exact .inl (engineStep_inv h)
  | cons e rest =>
    rw [step_of_host hs]
    obtain hnext | ⟨src, ans, rfl, hb, hr⟩ := hostStep_inv (h.setHost rest) e
    · exact .inl hnext
    · exact .inr ⟨src, ans, rest, rfl, hb, hr⟩

/-- Settles O57: a step from a good state that answers a next state is not the refused one. -/
theorem stepKeepsGoodStatesGood : Obligations.StepKeepsGoodStatesGood := by
  intro s t h ht
  obtain ⟨u, hu, hi⟩ | ⟨-, -, -, -, -, hr⟩ := step_inv h
  · rw [hu] at ht; cases ht; exact hi
  · rw [hr] at ht; cases ht

/-- Settles O58: a host that keeps off the ports of a running call shuts out the one refusal. -/
theorem goodStatesGoOn : Obligations.GoodStatesGoOn := by
  intro s h hk
  obtain ⟨t, ht, -⟩ | ⟨src, ans, rest, hs, hb, -⟩ := step_inv h
  · exact ⟨t, ht⟩
  · rw [hk src ans rest hs] at hb; cases hb

/-- A run goes on from the next state of its first step. -/
theorem run_succ {s t : State} (h : step s = .next t) (n : Nat) : Host.Core.run core (n + 1) s = Host.Core.run core n t := by
  have hstep : core.step s = .next t := h
  simp only [Host.Core.run, hstep]

/-- Settles O59, by induction on the number of steps: a silent host stays silent. -/
theorem callsRunWithoutRefusal : Obligations.CallsRunWithoutRefusal := by
  intro s h hs n
  induction n generalizing s with
  | zero => exact ⟨s, rfl⟩
  | succ n ih =>
    obtain ⟨t, ht, hi⟩ := engineStep_inv h
    obtain ⟨u, hu⟩ := ih t hi ((engineStep_stays ht).host.trans hs)
    exact ⟨u, (run_succ ((step_of_silent hs).trans ht) n).trans hu⟩

end Sys2Proof.Machine
end

section
/-! PROOFS. No instruction takes a byte back from the sink (R42, R48, R122). -/

namespace Sys2Proof.Machine

/-- A command leaves the sink alone (R33; log 32). -/
theorem exec_commandInstr_snk {c : Cmd} {s t : State} (h : exec (commandInstr c) s = .next t) :
    t.ports.snk = s.ports.snk := by
  cases hb : s.busy with
  | true => rw [exec_commandInstr_of_busy hb] at h; cases h; rfl
  | false => rw [exec_commandInstr_of_rest hb] at h; cases h; rfl

/-- Settles O53: the two commands leave the sink alone, every other instruction stays in the frame `Stays`. -/
theorem sinkOnlyGrows : Obligations.SinkOnlyGrows := by
  intro i s t h
  by_cases hc : ∃ c, i = commandInstr c
  · obtain ⟨c, rfl⟩ := hc
    rw [exec_commandInstr_snk h]
  · exact (exec_stays (fun he => hc ⟨.encode, he⟩) (fun hd => hc ⟨.decode, hd⟩) h).snk

end Sys2Proof.Machine
end

section
/-! PROOFS. The encoder's own operations and the elements do not see a change that the shared operations do not see; so no
instruction sees the source's "interrupted" answers (R41, R127). -/

namespace Sys2Proof.Machine

section
variable {f : State → State} (hf : Blind f)
include hf

/-- A last change of the state that commutes with `f`, as the new STATE. -/
theorem Blind.andThen {α : Type} {x y : Res α} {g : State → State} (hx : y = x.map f) (hg : ∀ t, g (f t) = f (g t)) :
    (y.bind fun _ t => Res.ok () (g t)) = (x.bind fun _ t => .ok () (g t)).map f :=
  hf.bind hx fun _ t => by rw [hg, Res.map_ok]

/-! ## The encoder -/

theorem Blind.afterRecord (s : State) : afterRecord (f s) = f (afterRecord s) := by
  unfold Machine.afterRecord
  rw [hf.mem, hf.setCtl]

theorem Blind.writeHeaderFields (hb mlb : Nat) (s : State) :
    writeHeaderFields hb mlb (f s) = (writeHeaderFields hb mlb s).map f :=
  hf.bind (hf.writeBits 5 hb s) fun _ t => hf.writeBits 4 mlb t

theorem Blind.lengthField (l : Nat) (s : State) : lengthField l (f s) = lengthField l s := by
  unfold Machine.lengthField
  rw [hf.params, hf.freeCount]

theorem Blind.countDraw (l : Nat) (s : State) : countDraw l (f s) = f (countDraw l s) := by
  unfold Machine.countDraw
  rw [hf.params]
  split
  · rfl
  · rw [hf.freeCount, hf.setFreeCount]

/-- EMIT_REFERENCE (R99). -/
theorem Blind.writeReference (p l : Nat) (s : State) : writeReference p l (f s) = (writeReference p l s).map f := by
  unfold Machine.writeReference
  rw [hf.countDraw, hf.record, hf.setRecord, hf.lengthField]
  refine hf.bind (hf.writeBit false _) fun _ t => ?_
  rw [hf.params]
  refine hf.bind (hf.writeBits _ p t) fun _ u => ?_
  rw [hf.params]
  exact hf.writeBits _ _ u

/-- EMIT_LITERAL (R100). -/
theorem Blind.writeLiteral (b : Byte) (s : State) : writeLiteral b (f s) = (writeLiteral b s).map f := by
  unfold Machine.writeLiteral
  rw [hf.record, hf.setRecord]
  exact hf.bind (hf.writeBit true _) fun _ t => hf.writeByte b t

/-- E_EMIT_RECORD (R98). -/
theorem Blind.emitRecord (s : State) : emitRecord (f s) = (emitRecord s).map f := by
  have advance (m : Nat) (t : State) : ((Machine.advanceReader m (f t)).bind fun _ u => Res.ok () (Machine.afterRecord u)) =
      ((Machine.advanceReader m t).bind fun _ u => .ok () (Machine.afterRecord u)).map f :=
    hf.andThen (hf.advanceReader m t) hf.afterRecord
  unfold Machine.emitRecord
  rw [hf.mem, hf.params, hf.search]
  generalize bestMatch s.mem.hist s.mem.win s.params.thr s.params.sd s.search = r
  dsimp only
  rw [hf.setSearch]
  split
  · exact hf.bind (hf.writeReference _ _ _) fun _ t => advance _ t
  · cases s.mem.win with
    | nil => rfl
    | cons b w => exact hf.bind (hf.writeLiteral b _) fun _ t => advance 1 t

/-- E_WRITE_ENDING (R101). -/
theorem Blind.writeEnding (s : State) : writeEnding (f s) = (writeEnding s).map f := by
  unfold Machine.writeEnding
  rw [hf.writer]
  split
  · exact hf.bind (hf.writeBit true s) fun _ t => hf.padToByte t
  · rfl

/-- E_SETUP (R95) reads the configuration: it does not see `f` where `f` keeps that too. -/
theorem Blind.setupEncoder (hcfg : ∀ s, (f s).cfg = s.cfg) (s : State) : setupEncoder (f s) = (setupEncoder s).map f := by
  unfold Machine.setupEncoder
  dsimp only
  rw [hcfg, hf.setHdr]
  split
  · rw [hf.setParams]
    exact hf.andThen (hf.constructReader _) fun t => hf.setCtl t _
  · exact hf.raising _ _

/-! ## The decoder on an element -/

theorem Blind.acceptHeaderElement (hb : BitVec 5) (mlb : BitVec 4) (s : State) :
    acceptHeaderElement hb mlb (f s) = (acceptHeaderElement hb mlb s).map f := by
  refine hf.needField (hf.readBits 5 s) fun _ t => ?_
  rw [hf.hdr, hf.setHdr]
  refine hf.needField (hf.readBits 4 _) fun _ u => ?_
  rw [hf.hdr, hf.setHdr, hf.acceptHeader]

theorem Blind.acceptPrimeByte (b : Byte) (s : State) : acceptPrimeByte b (f s) = (acceptPrimeByte b s).map f := by
  refine hf.needField (hf.readBits 8 s) fun _ t => hf.andThen (hf.deliverByte b t) fun u => ?_
  rw [hf.mem, hf.params]
  split
  · exact hf.setCtl u _
  · rfl

theorem Blind.acceptTag (tag : Bool) (s : State) {more : State → Res Unit} (hm : ∀ t, more (f t) = (more t).map f) :
    acceptTag tag (f s) more = (acceptTag tag s more).map f := by
  refine hf.bind (hf.readBit s) fun r t => ?_
  cases r with
  | none => exact hf.endCleanly t
  | some b => dsimp only; rw [hf.record, hf.setRecord, hm]

theorem Blind.acceptLiteral (b : Byte) (s : State) : acceptLiteral b (f s) = (acceptLiteral b s).map f := by
  refine hf.acceptTag true s fun t => hf.bind (hf.readBits 8 t) fun r u => ?_
  cases r with
  | eof k => exact hf.endCleanly u
  | val v => dsimp only; rw [hf.record, hf.setRecord, hf.setCtl, Res.map_ok]

theorem Blind.acceptReferenceElement (pos encLen : Nat) (s : State) :
    acceptReferenceElement pos encLen (f s) = (acceptReferenceElement pos encLen s).map f := by
  refine hf.acceptTag false s fun t => ?_
  rw [hf.params]
  refine hf.needField (hf.readBits _ t) fun _ u => ?_
  rw [hf.params, hf.record, hf.setRecord]
  refine hf.needField (hf.readBits _ _) fun _ v => ?_
  rw [hf.params, hf.record, hf.setRecord, hf.acceptReference]

end

/-! ## Outcomes -/

/-- An operation that does not see the interrupted answers makes an instruction that does not see them. -/
theorem quietly_outcome {α : Type} {x y : Res α} (h : y = x.map quiet) : quietly x.outcome = y.outcome := by
  subst h
  cases x <;> rfl

theorem quietly_outcomeOf {α : Type} {x y : Res α} (g : α → OpResult) (h : y = x.map quiet) :
    quietly (x.outcomeOf g) = y.outcomeOf g := by
  subst h
  cases x <;> rfl

/-- An element that neither controller sees the interrupted answers in. -/
theorem quietly_bySide {s : State} {enc enc' dec dec' : Res Unit} (he : enc' = enc.map quiet) (hd : dec' = dec.map quiet) :
    quietly (bySide s enc dec) = bySide (quiet s) enc' dec' := by
  unfold bySide
  rw [blind_quiet.ctl]
  split
  · exact quietly_outcome he
  · exact quietly_outcome hd
  · rfl

/-- The commands do not look at the source (R22, R33). -/
theorem quietly_exec_commandInstr (c : Cmd) (s : State) :
    quietly (exec (commandInstr c) s) = exec (commandInstr c) (quiet s) := by
  have hq : (quiet s).busy = s.busy := rfl
  cases hb : s.busy with
  | true => rw [exec_commandInstr_of_busy hb, exec_commandInstr_of_busy (hq.trans hb)]; rfl
  | false => rw [exec_commandInstr_of_rest hb, exec_commandInstr_of_rest (hq.trans hb)]; rfl

/-- Settles O29, by the instructions: each is an operation that does not see the change `quiet`, or leaves the source alone. -/
theorem interruptedAnswersAreInvisible : Obligations.InterruptedAnswersAreInvisible := by
  intro i s
  have hf : Blind quiet := blind_quiet
  cases i with
  | header hb mlb => exact quietly_bySide (hf.writeHeaderFields _ _ s) (hf.acceptHeaderElement hb mlb s)
  | primeByte b => exact quietly_bySide (hf.writeByte b s) (hf.acceptPrimeByte b s)
  | literal b => exact quietly_bySide (hf.writeLiteral b s) (hf.acceptLiteral b s)
  | reference pos encLen => exact quietly_bySide (hf.writeReference pos _ s) (hf.acceptReferenceElement pos encLen s)
  | sentinel => exact quietly_bySide (hf.writeBit true s) (hf.acceptTag true s hf.readLiteral)
  | pad n => exact quietly_bySide (hf.writeBitList _ s) (hf.readLiteral s)
  | encode => exact quietly_exec_commandInstr .encode s
  | decode => exact quietly_exec_commandInstr .decode s
  | bwWriteBit b => exact quietly_outcome (hf.writeBit b s)
  | bwWriteBits n v => exact quietly_outcome (hf.writeBits n v s)
  | bwWriteByte b => exact quietly_outcome (hf.writeByte b s)
  | bwPad => exact quietly_outcome (hf.padToByte s)
  | bwFlush => exact quietly_outcome (hf.snkFlush s)
  | brReadBit => exact quietly_outcomeOf bitResult (hf.readBit s)
  | brReadBits n => exact quietly_outcomeOf fieldResult (hf.readBits n s)
  | brReadByte => exact quietly_outcomeOf fieldResult (hf.readBits 8 s)
  | histPush seg => rfl
  | swrConstruct => exact quietly_outcome (hf.constructReader s)
  | swrNext m => exact quietly_outcomeOf viewResult (hf.bind (hf.advanceReader m s) fun _ t => by rw [hf.mem, Res.map_ok])
  | swrCurrent => rfl
  | firstMatch seq sub => rfl
  | bestMatch seq sub thr depth => rfl
  | eSetup => exact quietly_outcome (hf.setupEncoder (fun _ => rfl) s)
  | eWriteHeader => exact quietly_outcome (hf.andThen (hf.writeHeaderFields _ _ s) fun t => hf.setCtl t _)
  | ePrimeHistory => exact quietly_outcome (hf.andThen (hf.writeBytes _ s) hf.afterRecord)
  | eEmitRecord => exact quietly_outcome (hf.emitRecord s)
  | emitReference p l => exact quietly_outcome (hf.writeReference p l s)
  | emitLiteral b => exact quietly_outcome (hf.writeLiteral b s)
  | eWriteEnding => exact quietly_outcome (hf.andThen (hf.writeEnding s) fun t => hf.setCtl t _)
  | eFlush => exact quietly_outcome (hf.andThen (hf.snkFlush s) hf.enterDone)
  | dReadHeader => exact quietly_outcome (hf.readHeader s)
  | dInit => exact quietly_outcome (hf.initDecoder s)
  | dReadRecord => exact quietly_outcome (hf.readRecord s)
  | readLiteral => exact quietly_outcome (hf.readLiteral s)
  | readReference => exact quietly_outcome (hf.readReference s)
  | dWriteDecoded seg => exact quietly_outcome (hf.deliverSegment seg s)
  | dDone => exact quietly_outcome (hf.finishDecode s)
  | raise e => rfl

end Sys2Proof.Machine
end

section
/-! PROOFS. Decoding a place of the stream and encoding are inverse: for each place, when decoding answers an element and which
(R57 to R62, R65, R67, R69). -/

namespace Sys2Proof

/-! ## Cutting a field off the front -/

theorem take_fieldBits (n v : Nat) (rest : Bits) : (fieldBits n v ++ rest).take n = fieldBits n v :=
  List.take_left' (fieldBits_length n v)

theorem drop_fieldBits (n v : Nat) (rest : Bits) : (fieldBits n v ++ rest).drop n = rest :=
  List.drop_left' (fieldBits_length n v)

/-- The first `n` bits are the field of their own value (R44). -/
theorem fieldBits_append_drop {n : Nat} {bits : Bits} (h : n ≤ bits.length) :
    fieldBits n (fieldVal (bits.take n)) ++ bits.drop n = bits := by
  have hfield := fieldBits_fieldVal (bits.take n)
  rw [List.length_take, Nat.min_eq_left h] at hfield
  rw [hfield, List.take_append_drop]

theorem fieldVal_take_lt {n : Nat} {bits : Bits} (h : n ≤ bits.length) : fieldVal (bits.take n) < 2 ^ n := by
  simpa [List.length_take, Nat.min_eq_left h] using fieldVal_lt (bits.take n)

/-- The first 8 bits are the bits of their own byte (R44). -/
theorem byteBits_append_drop {bits : Bits} (h : 8 ≤ bits.length) : byteBits (bitsByte (bits.take 8)) ++ bits.drop 8 = bits := by
  rw [byteBits_bitsByte (by rw [List.length_take]; omega), List.take_append_drop]

theorem bitsByte_take_byteBits (b : Byte) (rest : Bits) : bitsByte ((byteBits b ++ rest).take 8) = b := by
  rw [List.take_left' (byteBits_length b), bitsByte_byteBits]

/-! ## When decoding answers an element, place by place -/

section
variable {ended : Bool} {bits rest : Bits} {i : Instr}

/-- Stream bit 0 begins a HEADER where 9 bits stand (R57). -/
theorem decode_header_iff : decode .header ended bits = .element i rest ↔
    ∃ hb mlb, i = .header hb mlb ∧ bits = fieldBits 5 hb.toNat ++ (fieldBits 4 mlb.toNat ++ rest) := by
  constructor
  · intro h
    rw [decode] at h
    split at h
    case isFalse => cases h
    case isTrue h9 =>
      cases h
      have h4 : 4 ≤ (bits.drop 5).length := by rw [List.length_drop]; omega
      refine ⟨_, _, rfl, ?_⟩
      rw [BitVec.toNat_ofNat, BitVec.toNat_ofNat, Nat.mod_eq_of_lt (fieldVal_take_lt (by omega)),
        Nat.mod_eq_of_lt (fieldVal_take_lt h4), show bits.drop 9 = (bits.drop 5).drop 4 by rw [List.drop_drop],
        fieldBits_append_drop h4, fieldBits_append_drop (by omega)]
  · rintro ⟨hb, mlb, rfl, rfl⟩
    have hrest : (fieldBits 5 hb.toNat ++ (fieldBits 4 mlb.toNat ++ rest)).drop 9 = rest := by
      rw [← List.append_assoc]; exact List.drop_left' (by simp)
    rw [decode, if_pos (by simp; omega), hrest, take_fieldBits, drop_fieldBits, take_fieldBits,
      fieldVal_fieldBits_of_lt hb.isLt, fieldVal_fieldBits_of_lt mlb.isLt, BitVec.ofNat_toNat, BitVec.ofNat_toNat,
      BitVec.setWidth_eq, BitVec.setWidth_eq]

/-- Each of the WC places after the header holds a PRIME_BYTE where 8 bits stand (R58). -/
theorem decode_prime_iff : decode .prime ended bits = .element i rest ↔
    ∃ b, i = .primeByte b ∧ bits = byteBits b ++ rest := by
  constructor
  · intro h
    rw [decode] at h
    split at h
    case isFalse => cases h
    case isTrue h8 =>
      cases h
      exact ⟨_, rfl, (byteBits_append_drop h8).symm⟩
  · rintro ⟨b, rfl, rfl⟩
    rw [decode, if_pos (by simp), bitsByte_take_byteBits, List.drop_left' (byteBits_length b)]

/-- A tag 1 begins a LITERAL where 8 bits follow it; with fewer before the end of the source it is a SENTINEL (R59, R61). -/
theorem decode_record_true_iff {hb mlb : Nat} {tail : Bits} :
    decode (.record hb mlb) ended (true :: tail) = .element i rest ↔
      (∃ b, i = .literal b ∧ tail = byteBits b ++ rest) ∨ (i = .sentinel ∧ ended = true ∧ rest.length < 8 ∧ tail = rest) := by
  constructor
  · intro h
    simp only [decode] at h
    split at h
    case isTrue h8 =>
      cases h
      exact .inl ⟨_, rfl, (byteBits_append_drop h8).symm⟩
    case isFalse h8 =>
      split at h
      case isFalse => cases h
      case isTrue he =>
        cases h
        exact .inr ⟨rfl, he, by omega, rfl⟩
  · rintro (⟨b, rfl, rfl⟩ | ⟨rfl, rfl, h8, rfl⟩)
    · simp only [decode]
      rw [if_pos (by simp), bitsByte_take_byteBits, List.drop_left' (byteBits_length b)]
    · simp only [decode, if_neg (Nat.not_le.2 h8), if_true]

/-- A tag 0 begins a REFERENCE where both its fields follow (R60). -/
theorem decode_record_false_iff {hb mlb : Nat} {tail : Bits} :
    decode (.record hb mlb) ended (false :: tail) = .element i rest ↔
      ∃ p e, i = .reference p e ∧ p < 2 ^ hb ∧ e < 2 ^ mlb ∧ tail = fieldBits hb p ++ (fieldBits mlb e ++ rest) := by
  constructor
  · intro h
    simp only [decode] at h
    split at h
    case isFalse => cases h
    case isTrue hlen =>
      cases h
      have hm : mlb ≤ (tail.drop hb).length := by rw [List.length_drop]; omega
      refine ⟨_, _, rfl, fieldVal_take_lt (by omega), fieldVal_take_lt hm, ?_⟩
      rw [← List.drop_drop, fieldBits_append_drop hm, fieldBits_append_drop (by omega)]
  · rintro ⟨p, e, rfl, hp, he, rfl⟩
    simp only [decode]
    rw [if_pos (by simp), ← List.drop_drop, take_fieldBits, drop_fieldBits, take_fieldBits, drop_fieldBits,
      fieldVal_fieldBits_of_lt hp, fieldVal_fieldBits_of_lt he]

/-- A record boundary with no bit left begins nothing (R67). -/
theorem decode_record_nil_ne {hb mlb : Nat} : decode (.record hb mlb) ended [] ≠ .element i rest := by
  simp [decode]

/-- After the SENTINEL stand the fewer than 8 bits the source ends with (R62, R65). -/
theorem decode_ending_iff : decode .ending ended bits = .element i rest ↔
    i = .pad bits.length ∧ rest = [] ∧ bits.length < 8 ∧ ended = true := by
  constructor
  · intro h
    rw [decode] at h
    split at h
    case isFalse => cases h
    case isTrue h8 =>
      split at h
      case isFalse => cases h
      case isTrue he =>
        cases h
        exact ⟨rfl, rfl, h8, he⟩
  · rintro ⟨rfl, rfl, h8, rfl⟩
    rw [decode, if_pos h8, if_pos rfl]

/-- CMD is one bit (R69). -/
theorem decode_command_iff : decode .command ended bits = .element i rest ↔
    rest = [] ∧ (i = .encode ∧ bits = [false] ∨ i = .decode ∧ bits = [true]) := by
  constructor
  · intro h
    simp only [decode] at h
    split at h <;> cases h
    · exact ⟨rfl, .inl ⟨rfl, rfl⟩⟩
    · exact ⟨rfl, .inr ⟨rfl, rfl⟩⟩
  · rintro ⟨rfl, ⟨rfl, rfl⟩ | ⟨rfl, rfl⟩⟩ <;> rfl

end

/-! ## The obligations -/

/-- Settles O1: at each place the encoded element followed by `rest` has the form decoding asks for. -/
theorem decodeOfEncodeIsTheElement : Obligations.DecodeOfEncodeIsTheElement := by
  intro hb mlb i slot hwf hfits hslot ended rest hsentinel hpad hcommand
  cases i <;> cases hslot
  case header h m => exact decode_header_iff.2 ⟨h, m, rfl, List.append_assoc _ _ _⟩
  case primeByte b => exact decode_prime_iff.2 ⟨b, rfl, rfl⟩
  case literal b => exact decode_record_true_iff.2 (.inl ⟨b, rfl, rfl⟩)
  case reference p e =>
    simp only [Instr.fits, Bool.and_eq_true, decide_eq_true_eq] at hfits
    exact decode_record_false_iff.2 ⟨p, e, rfl, hfits.1, hfits.2, List.append_assoc _ _ _⟩
  case sentinel =>
    obtain ⟨he, h8⟩ := hsentinel rfl
    exact decode_record_true_iff.2 (.inr ⟨rfl, he, h8, rfl⟩)
  case pad n =>
    obtain ⟨he, rfl⟩ := hpad n rfl
    have h7 : n ≤ 7 := of_decide_eq_true hwf
    exact decode_ending_iff.2 ⟨by simp [encode], rfl, by simp [encode]; omega, he⟩
  case encode => exact decode_command_iff.2 ⟨hcommand rfl, .inl ⟨rfl, by rw [hcommand rfl]; rfl⟩⟩
  case decode => exact decode_command_iff.2 ⟨hcommand rfl, .inr ⟨rfl, by rw [hcommand rfl]; rfl⟩⟩

/-- Settles O2: at each place the form that decoding asks for is the encoded element followed by the bits left over. -/
theorem encodeOfDecodeIsTheBits : Obligations.EncodeOfDecodeIsTheBits := by
  intro hb mlb slot ended bits rest i h hplace
  cases slot with
  | header =>
    obtain ⟨a, b, rfl, rfl⟩ := decode_header_iff.1 h
    exact ⟨rfl, rfl, nofun, fun _ => List.append_assoc _ _ _⟩
  | prime =>
    obtain ⟨b, rfl, rfl⟩ := decode_prime_iff.1 h
    exact ⟨rfl, rfl, nofun, fun _ => rfl⟩
  | record hb' mlb' =>
    obtain ⟨rfl, rfl⟩ := hplace _ _ rfl
    match bits with
    | [] => exact absurd h decode_record_nil_ne
    | true :: tail =>
      obtain ⟨b, rfl, rfl⟩ | ⟨rfl, -, -, rfl⟩ := decode_record_true_iff.1 h
      · exact ⟨rfl, rfl, nofun, fun _ => rfl⟩
      · exact ⟨rfl, rfl, nofun, fun _ => rfl⟩
    | false :: tail =>
      obtain ⟨p, e, rfl, hp, he, rfl⟩ := decode_record_false_iff.1 h
      exact ⟨rfl, by simp [Instr.fits, hp, he], nofun, fun _ => congrArg _ (List.append_assoc _ _ _)⟩
  | ending =>
    obtain ⟨rfl, rfl, h8, -⟩ := decode_ending_iff.1 h
    exact ⟨rfl, rfl, fun _ => ⟨rfl, rfl, h8⟩, fun hne => absurd rfl hne⟩
  | command =>
    obtain ⟨rfl, ⟨rfl, rfl⟩ | ⟨rfl, rfl⟩⟩ := decode_command_iff.1 h <;> exact ⟨rfl, rfl, nofun, fun _ => rfl⟩

/-- Settles O3: each rejection is the branch of `decode` for too few bits. -/
theorem streamEndsAreToldApart : Obligations.StreamEndsAreToldApart := by
  intro hb mlb bits
  refine ⟨fun h => ?header, fun h => ?prime, rfl, fun h => ?reference, fun h => decode_record_true_iff.2 ?sentinel⟩
  case header => rw [decode, if_neg (by omega), if_pos rfl]
  case prime => rw [decode, if_neg (by omega), if_pos rfl]
  case reference => simp only [decode, if_neg (Nat.not_le.2 h), if_true]
  case sentinel => exact .inr ⟨rfl, rfl, h, rfl⟩

/-- Settles O4: each word is the encoding of its element, written out. -/
theorem writtenWordsDecode : Obligations.WrittenWordsDecode :=
  ⟨decode_header_iff.2 ⟨4, 2, rfl, rfl⟩, decode_header_iff.2 ⟨12, 4, rfl, rfl⟩, decode_prime_iff.2 ⟨0x41, rfl, rfl⟩,
    decode_record_true_iff.2 (.inl ⟨0x58, rfl, rfl⟩),
    decode_record_false_iff.2 ⟨0, 3, rfl, by decide, by decide, rfl⟩,
    decode_record_false_iff.2 ⟨3, 1, rfl, by decide, by decide, rfl⟩,
    decode_record_true_iff.2 (.inr ⟨rfl, rfl, by decide, rfl⟩), decode_ending_iff.2 ⟨rfl, rfl, by decide, rfl⟩⟩

end Sys2Proof
end

section
/-! PROOFS. The six wire elements to the encoder and to a resting block (R57 to R62, R96 to R101, R122, R137; log 9, log 10). -/

namespace Sys2Proof.Machine

theorem bySide_of_encoder {s : State} (h : s.ctl.side = .encoder) (enc dec : Res Unit) : bySide s enc dec = enc.outcome := by
  rw [bySide, h]

theorem bySide_of_decoder {s : State} (h : s.ctl.side = .decoder) (enc dec : Res Unit) : bySide s enc dec = dec.outcome := by
  rw [bySide, h]

theorem bySide_of_resting {s : State} (h : s.ctl.side = .resting) (enc dec : Res Unit) : bySide s enc dec = .next s := by
  rw [bySide, h]

/-- Where neither machine is busy neither runs (R17, R19). -/
theorem Ctl.side_of_not_busy {c : Ctl} (h : c.busy = false) : c.side = .resting := by
  cases c <;> cases h <;> rfl

theorem fieldWidthOk_of_bounds {n : Nat} (h1 : 1 ≤ n) (h32 : n ≤ 32) : fieldWidthOk n = true := by
  simp [fieldWidthOk, h1, h32]

/-- Settles O51: each element is one of the encoder's writing operations; a REFERENCE's length is biased by THR and so written
back as it came. -/
theorem encoderEmitsItsElements : Obligations.EncoderEmitsItsElements := by
  intro s hside
  have emits {t : State} {bits : Bits} {x dec : Res Unit} (hx : Writes bits t x) : Emits bits id t (bySide s x dec) := by
    rw [bySide_of_encoder hside]
    exact hx.emits_id
  refine ⟨fun hb mlb => emits (writeHeaderFields_ends _ _ s), fun b => emits (writeByte_ends b s),
    fun b => emits (writeLiteral_ends b s), fun p e hb1 hb32 hm1 hm32 => emits ?reference, emits (writeBit_ends true s),
    fun n => emits (writeBitList_ends _ s)⟩
  case reference =>
    have h := writeReference_ends (p := p) (Nat.le_add_left s.params.thr e) (fieldWidthOk_of_bounds hb1 hb32)
      (fieldWidthOk_of_bounds hm1 hm32)
    rwa [Nat.add_sub_cancel] at h

/-- Settles O52: a block at rest is on neither side, and PAD is READ_LITERAL on the decoder's. -/
theorem restingBlockIgnoresElements : Obligations.RestingBlockIgnoresElements := by
  constructor
  · intro s i hb hi
    have rests (enc dec : Res Unit) : bySide s enc dec = .next s := bySide_of_resting (Ctl.side_of_not_busy hb) enc dec
    obtain ⟨hb, mlb, rfl⟩ | ⟨b, rfl⟩ | ⟨b, rfl⟩ | ⟨p, e, rfl⟩ | rfl | ⟨n, rfl⟩ := hi <;> exact rests _ _
  · intro s n hside
    exact bySide_of_decoder hside _ _

end Sys2Proof.Machine
end

section
/-! PROOFS. The decoder's program is the stream (R104): reading on and being given the element at the cursor are one step. -/

namespace Sys2Proof.Machine

/-! ## Reading what is known to stand at the cursor -/

/-- BR_READ_BITS on a known field (R77). -/
theorem readBits_field {n v : Nat} {s : State} {rest : Bits} {e : Bool} (hn : fieldWidthOk n = true) (hv : v < 2 ^ n)
    (hw : wireBits s = (fieldBits n v ++ rest, e)) :
    ∃ t, readBits n s = .ok (.val v) t ∧ OnlyRead s t ∧ wireBits t = (rest, e) := by
  obtain ⟨t, ht, htook⟩ := readBits_val (s := s) hn (by rw [hw]; simp)
  rw [hw, take_fieldBits, fieldVal_fieldBits_of_lt hv] at ht
  exact ⟨t, ht, htook.only, by rw [htook.wire, hw, drop_fieldBits]⟩

/-- After a known field two continuations count as the same if they agree on its value; a width without meaning is refused
before either (R77, U4). -/
theorem readBits_bind_congr {n v : Nat} {s : State} {rest : Bits} {e : Bool} {f g : ReadResult → State → Res Unit}
    (hw : wireBits s = (fieldBits n v ++ rest, e)) (hv : v < 2 ^ n)
    (h : ∀ t, OnlyRead s t → wireBits t = (rest, e) → f (.val v) t = g (.val v) t) :
    (readBits n s).bind f = (readBits n s).bind g := by
  by_cases hn : fieldWidthOk n = true
  · obtain ⟨t, ht, ho, hwt⟩ := readBits_field hn hv hw
    rw [ht, Res.bind_ok, Res.bind_ok, h t ho hwt]
  · rw [readBits, if_neg hn]
    rfl

/-- After a known tag two continuations count as the same if they agree on the bits behind it. -/
theorem acceptTag_congr {b tag : Bool} {s : State} {bs : Bits} {e : Bool} {f g : State → Res Unit}
    (hw : wireBits s = (b :: bs, e)) (h : ∀ t, t.params = s.params → wireBits t = (bs, e) → f t = g t) :
    acceptTag tag s f = acceptTag tag s g := by
  obtain ⟨t, ht, htook⟩ := readBit_cons hw
  rw [acceptTag, acceptTag, ht]
  exact h _ htook.only.params (by rw [wireBits_setRecord, htook.wire, hw]; rfl)

/-- D_READ_RECORD takes the tag, then reads on as the tag says (R108). -/
theorem readRecord_of_tag {tag : Bool} {s : State} {bs : Bits} {e : Bool} (hw : wireBits s = (tag :: bs, e)) :
    readRecord s = acceptTag tag s (if tag then readLiteral else readReference) := by
  obtain ⟨t, ht, -⟩ := readBit_cons hw
  rw [readRecord, acceptTag, ht]
  cases tag <;> rfl

/-! ## Each element the decoder finds -/

/-- D_READ_HEADER on a HEADER (R57, R105). -/
theorem readHeader_eq_acceptHeaderElement {s : State} {hb : BitVec 5} {mlb : BitVec 4} {rest : Bits} {e : Bool}
    (hw : wireBits s = (fieldBits 5 hb.toNat ++ (fieldBits 4 mlb.toNat ++ rest), e)) :
    readHeader s = acceptHeaderElement hb mlb s := by
  refine readBits_bind_congr hw hb.isLt fun t _ hwt => ?_
  simp only [BitVec.ofNat_toNat, BitVec.setWidth_eq]
  refine readBits_bind_congr (by rw [wireBits_setHdr]; exact hwt) mlb.isLt fun u _ _ => ?_
  simp only [BitVec.ofNat_toNat, BitVec.setWidth_eq]

/-- D_READ_RECORD on a LITERAL (R59, R108, R109). -/
theorem readRecord_eq_acceptLiteral {s : State} {b : Byte} {rest : Bits} {e : Bool}
    (hw : wireBits s = (true :: (byteBits b ++ rest), e)) : readRecord s = acceptLiteral b s := by
  rw [readRecord_of_tag hw, acceptLiteral]
  refine acceptTag_congr hw fun t _ hwt => ?_
  refine readBits_bind_congr hwt b.isLt fun u _ _ => ?_
  simp only [BitVec.ofNat_toNat, BitVec.setWidth_eq]

/-- D_READ_RECORD on a REFERENCE (R60, R108, R110), whatever the widths. -/
theorem readRecord_eq_acceptReferenceElement {s : State} {p l : Nat} {rest : Bits} {e : Bool} (hp : p < 2 ^ s.params.hb)
    (hl : l < 2 ^ s.params.mlb)
    (hw : wireBits s = (false :: (fieldBits s.params.hb p ++ (fieldBits s.params.mlb l ++ rest)), e)) :
    readRecord s = acceptReferenceElement p l s := by
  rw [readRecord_of_tag hw, acceptReferenceElement]
  refine acceptTag_congr hw fun t hpt hwt => ?_
  rw [← hpt] at hp hl hwt
  refine readBits_bind_congr hwt hp fun u hu hwu => ?_
  rw [← hu.params] at hl hwu
  exact readBits_bind_congr (by rw [wireBits_setRecord]; exact hwu) hl fun v _ _ => rfl

/-- A record element the bits at the cursor decode to is what D_READ_RECORD does (R67, R108). -/
theorem exec_dReadRecord_of_element {s : State} {i : Instr} {rest : Bits} (hc : s.ctl.side = .decoder)
    (h : decode (.record s.params.hb s.params.mlb) (wireBits s).2 (wireBits s).1 = .element i rest) :
    exec .dReadRecord s = exec i s := by
  obtain ⟨bits, ended, hw⟩ : ∃ bits ended, wireBits s = (bits, ended) := ⟨_, _, rfl⟩
  have runs {enc dec : Res Unit} (hd : readRecord s = dec) : exec .dReadRecord s = bySide s enc dec := by
    rw [bySide_of_decoder hc, ← hd]
    rfl
  rw [hw] at h
  match bits with
  | [] => exact absurd h decode_record_nil_ne
  | true :: tail =>
    obtain ⟨b, rfl, rfl⟩ | ⟨rfl, -⟩ := decode_record_true_iff.1 h
    · exact runs (readRecord_eq_acceptLiteral hw)
    · exact runs (readRecord_of_tag hw)
  | false :: tail =>
    obtain ⟨p, l, rfl, hp, hl, rfl⟩ := decode_record_false_iff.1 h
    exact runs (readRecord_eq_acceptReferenceElement hp hl hw)

/-- A HEADER the bits at the cursor decode to is what D_READ_HEADER does (R67, R105). -/
theorem exec_dReadHeader_of_element {s : State} {i : Instr} {rest : Bits} (hc : s.ctl.side = .decoder)
    (h : decode .header (wireBits s).2 (wireBits s).1 = .element i rest) : exec .dReadHeader s = exec i s := by
  obtain ⟨hb, mlb, rfl, hbits⟩ := decode_header_iff.1 h
  have hread : readHeader s = acceptHeaderElement hb mlb s :=
    readHeader_eq_acceptHeaderElement (e := (wireBits s).2) (Prod.ext hbits rfl)
  exact (congrArg Res.outcome hread).trans (bySide_of_decoder hc _ _).symm

/-- Settles O19: the step is D_READ_HEADER or D_READ_RECORD, and that is the element at the cursor. -/
theorem stepRunsTheElementOnTheWire : Obligations.StepRunsTheElementOnTheWire := by
  intro s i rest hs
  constructor
  · intro hc h
    rw [step_of_instr hs (i := .dReadHeader) (by rw [nextInstr, hc])]
    exact exec_dReadHeader_of_element (by rw [hc]; rfl) h
  · intro hc h
    rw [step_of_instr hs (i := .dReadRecord) (by rw [nextInstr, hc])]
    exact exec_dReadRecord_of_element (by rw [hc]; rfl) h

/-! ## D_INIT, one priming byte after another -/

theorem OnlyWrote.wireBits {s t : State} (h : OnlyWrote s t) : wireBits t = wireBits s := by
  rw [wireBits_eq, wireBits_eq, sourceComing, sourceComing, h.reader, h.srcEof, h.src]

/-- A delivered byte is pushed to the history and leaves the rest of the decoder's call as it is; a failing sink ends the call
(R107, R122). -/
theorem deliverByte_ends (b : Byte) (s : State) :
    (deliverByte b s).Ends
      (fun _ t => t.ctl = s.ctl ∧ t.params = s.params ∧ t.mem = s.mem.push [b] s.params.h ∧ wireBits t = wireBits s)
      (fun t => t.ctl = .error) := by
  refine Res.Ends.bind ((snkWrite_ends b s).mono (fun _ _ h => h) ?_) ?_
  · rintro _ ⟨u, -, -, -, rfl, -⟩
    rfl
  · rintro - u ⟨ho, -⟩
    refine ⟨ho.ctl, ho.params, ?_, ho.wireBits⟩
    rw [pushHistory, State.setMem_mem, ho.mem, ho.params]

/-- Below the capacity a pushed byte is one more byte of history (R80). -/
theorem Memory.push_byte_hlen {m : Memory} {h : Nat} (hm : m.hlen < h) (b : Byte) : (m.push [b] h).hlen = m.hlen + 1 := by
  simp only [Memory.push, Memory.evict, List.length_cons, List.length_nil]
  omega

/-- A turn of D_INIT in the middle of the priming bytes and the PRIME_BYTE it finds do the same: both deliver the byte, or both
raise where the sink fails (R58, R107; log 9). -/
theorem primingTurn_cases {s : State} {b : Byte} {rest : Bits} {e : Bool} (hc : s.ctl = .dInit)
    (hn : s.mem.hlen < s.params.wc) (hfit : s.params.wc ≤ s.params.h) (hw : wireBits s = (byteBits b ++ rest, e)) :
    (∃ u, (∀ n, readPriming (n + 1) s = readPriming n u) ∧
        exec (.primeByte b) s = .next (if u.mem.hlen = u.params.wc then u.setCtl .dReadRecord else u) ∧
        u.ctl = .dInit ∧ u.params = s.params ∧ u.mem.hlen = s.mem.hlen + 1 ∧ wireBits u = (rest, e)) ∨
      ∃ u, (∀ n, readPriming (n + 1) s = .raised u) ∧ exec (.primeByte b) s = .next u ∧ u.ctl = .error := by
  obtain ⟨t, ht, ho, hwt⟩ := readBits_field (n := 8) rfl b.isLt hw
  have hturn (n : Nat) : readPriming (n + 1) s = (deliverByte b t).bind fun _ u => readPriming n u := by
    rw [readPriming, readByte, needField, ht, Res.bind_ok]
    simp only [BitVec.ofNat_toNat, BitVec.setWidth_eq]
  have helem : exec (.primeByte b) s = ((deliverByte b t).bind fun _ u =>
      Res.ok () (if u.mem.hlen = u.params.wc then u.setCtl .dReadRecord else u)).outcome := by
    refine (bySide_of_decoder (by rw [hc]; rfl) _ _).trans (congrArg Res.outcome ?_)
    rw [acceptPrimeByte, readByte, needField, ht, Res.bind_ok]
  have hends := deliverByte_ends b t
  cases hd : deliverByte b t with
  | ok _ u =>
    rw [hd] at hends hturn helem
    obtain ⟨huc, hup, hum, huw⟩ := hends
    refine .inl ⟨u, hturn, helem, huc.trans (ho.ctl.trans hc), hup.trans ho.params, ?_, huw.trans hwt⟩
    rw [hum, ho.mem, ho.params]
    exact Memory.push_byte_hlen (by omega) b
  | raised u =>
    rw [hd] at hends hturn helem
    exact .inr ⟨u, hturn, helem, hends⟩
  | refused r =>
    rw [hd] at hends
    exact hends.elim

theorem runAll_cons_next {i : Instr} {is : List Instr} {s t : State} (h : exec i s = .next t) :
    runAll (i :: is) s = runAll is t := by
  rw [runAll, h]

/-- A block at rest does nothing on any number of PRIME_BYTEs (R122; log 9). -/
theorem runAll_primeBytes_of_resting {s : State} (h : s.ctl.side = .resting) (bs : List Byte) :
    runAll (bs.map .primeByte) s = .next s := by
  induction bs with
  | nil => rfl
  | cons b bs ih =>
    have hstays : exec (.primeByte b) s = .next s := bySide_of_resting h _ _
    exact (runAll_cons_next hstays).trans ih

/-- From the middle of D_INIT, as many bytes short of WC as `b :: bs` has: the turns to come are its PRIME_BYTEs (R107). -/
theorem readPriming_eq_runAll (bs : List Byte) {b : Byte} {s : State} (hc : s.ctl = .dInit)
    (hn : s.mem.hlen + (bs.length + 1) = s.params.wc) (hfit : s.params.wc ≤ s.params.h)
    (hw : bytesBits (b :: bs) <+: (wireBits s).1) :
    ((readPriming (bs.length + 1) s).bind fun _ t => .ok () (t.setCtl .dReadRecord)).outcome =
      runAll ((b :: bs).map .primeByte) s := by
  obtain ⟨rest, hrest⟩ := hw
  rw [bytesBits_cons, List.append_assoc] at hrest
  have hturn := primingTurn_cases (rest := bytesBits bs ++ rest) (e := (wireBits s).2) hc (by omega) hfit
    (Prod.ext hrest.symm rfl)
  rw [List.map_cons]
  obtain ⟨u, hread, hexec, huc, hup, huh, huw⟩ | ⟨u, hread, hexec, huc⟩ := hturn
  · rw [runAll_cons_next hexec, hread, huh, hup]
    cases bs with
    | nil =>
      rw [if_pos (show s.mem.hlen + 1 = s.params.wc from hn)]
      rfl
    | cons b' bs =>
      rw [List.length_cons] at hn
      rw [if_neg (by omega)]
      exact readPriming_eq_runAll bs huc (by rw [huh, hup]; omega) (by rw [hup]; exact hfit)
        ⟨rest, by rw [huw]⟩
  · rw [runAll_cons_next hexec, hread, runAll_primeBytes_of_resting (by rw [huc]; rfl)]
    rfl

/-- Settles O20: from the empty buffer all WC turns are to come. -/
theorem initRunsItsPrimingBytes : Obligations.InitRunsItsPrimingBytes := by
  intro s bs hs hc hm hpos hfit hlen hw
  rw [step_of_instr hs (i := .dInit) (by rw [nextInstr, hc])]
  match bs with
  | [] => rw [← hlen] at hpos; cases hpos
  | b :: bs =>
    rw [← readPriming_eq_runAll bs hc (by rw [hm, ← hlen]; exact Nat.zero_add _) hfit hw,
      show bs.length + 1 = s.params.wc from hlen]
    rfl

end Sys2Proof.Machine
end

section
/-! PROOFS. A placed table word stands at the cursor of a decoder that expects it, or in CMD with START pending, so the next step
runs it (log 22, log 23). -/

namespace Sys2Proof

/-- The places a table word can have, each with its number of bits (log 22). -/
theorem tableElement_cases {nbits w : Nat} {slot : Slot} {bits : Bits} (h : tableElement nbits w = some (slot, bits)) :
    (slot = .command ∧ bits.length = 1) ∨ (slot = .prime ∧ bits.length = 8) ∨ (slot = .header ∧ bits.length = 9) ∨
      (slot = .record 12 4 ∧ (bits.length = 9 ∨ bits.length = 17)) := by
  unfold tableElement at h
  split at h
  · cases h; simp
  split at h
  · cases h; simp
  split at h
  · split at h <;> cases h <;> simp
  split at h
  · cases h; simp
  · cases h

/-- What a table word decodes to stands at its place with no bit left over. -/
theorem decodeTableWord_eq_some {nbits w : Nat} {i : Instr} (h : decodeTableWord nbits w = some i) :
    ∃ slot bits, tableElement nbits w = some (slot, bits) ∧ decode slot true bits = .element i [] := by
  unfold decodeTableWord at h
  split at h
  case h_1 => cases h
  case h_2 slot bits htable =>
    split at h
    case h_1 hdec => cases h; exact ⟨slot, bits, htable, hdec⟩
    case h_2 => cases h
    case h_3 => cases h

/-- Bits packed into enough bytes come first in the bits of those bytes (R44). -/
theorem bytesBits_packBits {fuel : Nat} {bits : Bits} (h : bits.length ≤ 8 * fuel) :
    ∃ fill, bytesBits (packBits fuel bits) = bits ++ fill := by
  induction fuel generalizing bits with
  | zero =>
    obtain rfl := List.eq_nil_of_length_eq_zero (Nat.le_zero.1 h)
    exact ⟨[], rfl⟩
  | succ fuel ih =>
    match bits with
    | [] => exact ⟨[], rfl⟩
    | b :: bs =>
      obtain ⟨fill, hfill⟩ := ih (bits := (b :: bs).drop 8) (by rw [List.length_drop]; omega)
      rw [packBits, bytesBits_cons, hfill, byteBits_bitsByte (by simp)]
      by_cases h8 : 8 ≤ (b :: bs).length
      · exact ⟨fill, by rw [List.take_append_of_le_length h8, ← List.append_assoc, List.take_append_drop]⟩
      · rw [List.drop_eq_nil_of_le (by omega), List.take_append, List.take_of_length_le (by omega), List.append_assoc]
        exact ⟨_, rfl⟩

/-- A HEADER stays what it is when more bits follow. -/
theorem decode_header_append {ended ended' : Bool} {bits rest : Bits} {i : Instr}
    (h : decode .header ended bits = .element i rest) (more : Bits) :
    decode .header ended' (bits ++ more) = .element i (rest ++ more) := by
  obtain ⟨hb, mlb, rfl, rfl⟩ := decode_header_iff.1 h
  exact decode_header_iff.2 ⟨hb, mlb, rfl, by simp only [List.append_assoc]⟩

/-- A whole LITERAL or REFERENCE stays what it is when more bits follow; a lone tag 1 would not. -/
theorem decode_record_append {hb mlb : Nat} {ended ended' : Bool} {bits rest : Bits} {i : Instr}
    (h : decode (.record hb mlb) ended bits = .element i rest) (hlen : rest.length + 1 < bits.length) (more : Bits) :
    decode (.record hb mlb) ended' (bits ++ more) = .element i (rest ++ more) := by
  match bits with
  | [] => exact absurd h decode_record_nil_ne
  | true :: tail =>
    obtain ⟨b, rfl, rfl⟩ | ⟨-, -, -, rfl⟩ := decode_record_true_iff.1 h
    · exact decode_record_true_iff.2 (.inl ⟨b, rfl, List.append_assoc _ _ _⟩)
    · exact absurd hlen (Nat.lt_irrefl _)
  | false :: tail =>
    obtain ⟨p, e, rfl, hp, he, rfl⟩ := decode_record_false_iff.1 h
    rw [List.cons_append]
    exact decode_record_false_iff.2 ⟨p, e, rfl, hp, he, by simp only [List.append_assoc]⟩

namespace Machine

/-- A source that answers bytes only delivers them and ends (R41). -/
theorem srcComing_map_byte (l : List Byte) : srcComing (l.map .byte) = (l, true) := by
  induction l with
  | nil => rfl
  | cons b l ih => simp only [List.map_cons, srcComing, ih]

/-- The bits placed on a fresh source are the first at the cursor. -/
theorem wireBits_withStream {bits : Bits} (h : bits.length ≤ 24) (s : State) (c : Ctl) :
    ∃ fill, wireBits (withStream s c bits) = (bits ++ fill, true) := by
  obtain ⟨fill, hfill⟩ := bytesBits_packBits (fuel := 3) h
  have hcoming : sourceComing (withStream s c bits) = (packBits 3 bits, true) := srcComing_map_byte _
  exact ⟨fill, by rw [wireBits_eq, hcoming, hfill]; rfl⟩

theorem runAll_singleton (i : Instr) (s : State) : runAll [i] s = exec i s := by
  cases h : exec i s <;> simp only [runAll, h]

/-- With START pending the step runs the command in CMD (R22, R69). -/
theorem step_of_start {s : State} (h : s.host = [.start]) : step s = exec (commandInstr s.cfg.cmd) (s.setHost []) :=
  step_of_host h

/-- A HEADER placed before a fresh decoder is what the step runs (R105). -/
theorem step_of_placedHeader {bits : Bits} {i : Instr} (hlen : bits.length ≤ 24)
    (h : decode .header true bits = .element i []) (s : State) :
    step (withStream s .dReadHeader bits) = exec i (withStream s .dReadHeader bits) := by
  obtain ⟨fill, hw⟩ := wireBits_withStream hlen s .dReadHeader
  refine (stepRunsTheElementOnTheWire _ i fill rfl).1 rfl ?_
  rw [hw]
  exact decode_header_append h fill

/-- A priming byte placed before a decoder that expects one byte is what the step runs (R107). -/
theorem step_of_placedPrimeByte {t : State} {b : Byte} {fill : Bits} {e : Bool} (hs : t.host = []) (hc : t.ctl = .dInit)
    (hm : t.mem = { buf := [], hlen := 0, wlen := 0, wcap := 0 }) (hwc : t.params.wc = 1) (hh : 1 ≤ t.params.h)
    (hw : wireBits t = (byteBits b ++ fill, e)) : step t = exec (.primeByte b) t := by
  have hrun := initRunsItsPrimingBytes t [b] hs hc hm (by rw [hwc]) (by rw [hwc]; exact hh) (by rw [hwc]; rfl)
    ⟨fill, by rw [hw, bytesBits_cons, bytesBits_nil, List.append_nil]⟩
  rw [hrun, List.map_singleton, runAll_singleton]

/-- Settles O21: at the place its width picks, the word's element is what D_READ_HEADER, D_INIT or D_READ_RECORD finds, and a
command is the pending START's. -/
theorem placedTableWordRunsNext : Obligations.PlacedTableWordRunsNext := by
  intro s nbits w i hword
  obtain ⟨slot, bits, htable, hdec⟩ := decodeTableWord_eq_some hword
  unfold State.withFetchWord placeWord
  obtain ⟨rfl, hlen⟩ | ⟨rfl, hlen⟩ | ⟨rfl, hlen⟩ | ⟨rfl, hlen⟩ := tableElement_cases htable <;> rw [htable] <;> dsimp only
  case inl =>
    obtain ⟨-, ⟨rfl, rfl⟩ | ⟨rfl, rfl⟩⟩ := decode_command_iff.1 hdec <;> exact step_of_start rfl
  case inr.inl =>
    obtain ⟨fill, hw⟩ := wireBits_withStream (bits := bits) (by omega) s .dInit
    obtain ⟨b, rfl, rfl⟩ := decode_prime_iff.1 hdec
    rw [List.append_nil] at hw
    exact step_of_placedPrimeByte rfl rfl rfl rfl (show 1 ≤ 8 by decide) hw
  case inr.inr.inl => exact step_of_placedHeader (by omega) hdec s
  case inr.inr.inr =>
    obtain ⟨fill, hw⟩ := wireBits_withStream (bits := bits) (by omega) s .dReadRecord
    refine (stepRunsTheElementOnTheWire _ i fill rfl).2 rfl ?_
    have hfill : wireBits ((withStream s .dReadRecord bits).setParams (paramsOf 12 4 s.params.sd)) = (bits ++ fill, true) := hw
    rw [hfill]
    exact decode_record_append hdec (by rw [List.length_nil]; omega) fill

end Machine
end Sys2Proof
end

section
/-! PROOFS. The bit I/O operations run on their own (R71 to R78): each obligation reads off the law of its operation. -/

namespace Sys2Proof

/-- Bit `k` of an `n`-bit field is bit `n - 1 - k` of its value (R44, R72). -/
theorem fieldBits_getElem? {n k : Nat} (v : Nat) (h : k < n) : (fieldBits n v)[k]? = some (v.testBit (n - 1 - k)) := by
  induction n generalizing k with
  | zero => exact absurd h (Nat.not_lt_zero k)
  | succ n ih =>
    cases k with
    | zero => simp [fieldBits, Nat.testBit_eq_decide_div_mod_eq, beq_eq_decide]
    | succ k =>
      rw [fieldBits, List.getElem?_cons_succ, ih (Nat.lt_of_succ_lt_succ h),
        show n - 1 - k = n + 1 - 1 - (k + 1) by omega]

theorem fieldBits_fieldVal_take {n : Nat} {bits : Bits} (h : n ≤ bits.length) :
    fieldBits n (fieldVal (bits.take n)) = bits.take n := by
  simpa [List.length_take, Nat.min_eq_left h] using fieldBits_fieldVal (bits.take n)

namespace Machine

/-! ## The instructions as outcomes of the shared operations -/

theorem exec_bwWriteBit (b : Bool) (s : State) : exec (.bwWriteBit b) s = (writeBit b s).outcome := rfl

theorem exec_bwWriteBits (n v : Nat) (s : State) : exec (.bwWriteBits n v) s = (writeBits n v s).outcome := rfl

theorem exec_bwWriteByte (b : Byte) (s : State) : exec (.bwWriteByte b) s = (writeByte b s).outcome := rfl

theorem exec_bwPad (s : State) : exec .bwPad s = (padToByte s).outcome := rfl

theorem exec_bwFlush (s : State) : exec .bwFlush s = (snkFlush s).outcome := rfl

theorem exec_brReadBit (s : State) : exec .brReadBit s = (readBit s).outcomeOf bitResult := rfl

theorem exec_brReadBits (n : Nat) (s : State) : exec (.brReadBits n) s = (readBits n s).outcomeOf fieldResult := rfl

theorem exec_brReadByte (s : State) : exec .brReadByte s = (readBits 8 s).outcomeOf fieldResult := rfl

/-! ## Writing -/

/-- A bit that completes no byte stays pending (R71). -/
theorem writeBit_pending {b : Bool} {s : State} (hs : WriterOk s) (h : s.writer.wcnt < 7) :
    writeBit b s = .ok () (s.setWriter { wacc := s.writer.wacc ++ [b], wcnt := s.writer.wcnt + 1,
                                         bitsWritten := s.writer.bitsWritten + 1 }) := by
  have hlen : (s.writer.wacc ++ [b]).length = s.writer.wcnt + 1 := by rw [hs.1, List.length_append, List.length_singleton]
  rw [writeBit, hlen, if_neg (by omega)]

/-- The eighth pending bit completes a byte, which goes to the sink (R71). -/
theorem writeBit_completes {b : Bool} {s : State} (h : (s.writer.wacc ++ [b]).length = 8) :
    writeBit b s = snkWrite (bitsByte (s.writer.wacc ++ [b]))
      (s.setWriter { wacc := [], wcnt := 0, bitsWritten := s.writer.bitsWritten + 1 }) := if_pos h

/-- BW_PAD on the byte boundary does nothing (R74). -/
theorem padToByte_aligned {s : State} (h : s.writer.wcnt = 0) : padToByte s = .ok () s := by
  rw [padToByte, padLoop, if_pos h]

/-- Settles O23: the bit either joins the pending ones or completes the byte they begin, which the sink takes or fails. -/
theorem writeBitAppendsOneBit : Obligations.WriteBitAppendsOneBit := by
  intro b s hs
  refine ⟨fun hlt => by rw [exec_bwWriteBit, writeBit_pending hs hlt]; rfl, fun h7 => ?_⟩
  have h8 : (s.writer.wacc ++ [b]).length = 8 := by rw [List.length_append, ← hs.1, h7]; rfl
  refine ⟨_, byteBits_bitsByte h8, fun rest htakes => ?takes, fun rest hfail => ⟨_, ?fails, raiseError_from _ _⟩⟩
  case takes =>
    rw [exec_bwWriteBit, writeBit_completes h8, snkWrite_takes (rest := rest)]
    · rfl
    · exact htakes
  case fails =>
    rw [exec_bwWriteBit, writeBit_completes h8, snkWrite_fails (rest := rest)]
    · rfl
    · exact hfail

/-- Settles O24: both instructions write the list of a field's bits, and bit `k` of that list is bit `n - 1 - k`. -/
theorem writeFieldsMostSignificantBitFirst : Obligations.WriteFieldsMostSignificantBitFirst := by
  refine ⟨fun n v k hk => fieldBits_getElem? v hk, fun s => ⟨fun n v h1 h32 _ => ?_, fun b => ⟨?_, ?_⟩⟩⟩
  · rw [exec_bwWriteBits]; exact (writeBits_ends v s (fieldWidthOk_of_bounds h1 h32)).emits_id
  · rw [exec_bwWriteByte]; exact (writeByte_ends b s).emits_id
  · rw [exec_bwWriteByte, exec_bwWriteBits, writeByte]

/-- Settles O25: BW_PAD writes the missing zeros, and the pending bits they follow with them make exactly one byte. -/
theorem padZeroFillsToTheByte : Obligations.PadZeroFillsToTheByte := by
  intro s hs
  have hemits := (padToByte_ends hs).emits_id
  rw [← exec_bwPad] at hemits
  refine ⟨hemits, fun h0 => by rw [exec_bwPad, padToByte_aligned h0]; rfl, fun t hwilling ht => ?_⟩
  obtain ⟨u, hu, hnext⟩ := hemits.willing hwilling
  obtain rfl : t = u := by rw [ht] at hnext; injection hnext
  have hcnt : t.writer.wcnt = 0 := hu.padded hs
  refine ⟨hcnt, List.eq_nil_of_length_eq_zero ((hu.writer hs).1 ▸ hcnt), fun hne => ?_⟩
  have hlt := hs.2
  have hmissing : (8 - s.writer.wcnt) % 8 = 8 - s.writer.wcnt := Nat.mod_eq_of_lt (by omega)
  constructor
  · rw [hu.sinkLength hs, completedBytes, List.length_replicate, hmissing, Nat.add_sub_of_le (by omega)]
  · rw [hu.count, List.length_replicate, hmissing]

/-- Settles O26: a flush is one transaction that appends nothing, whether the sink takes it or fails it. -/
theorem flushNeverWritesAByte : Obligations.FlushNeverWritesAByte := by
  refine fun s rest => ⟨fun htakes => by rw [exec_bwFlush, snkFlush_takes htakes]; rfl, fun hfail => ?_⟩
  refine ⟨s.setPorts { s.ports with snkFlushes := s.ports.snkFlushes + 1, snkAns := rest }, _, ?_, rfl, rfl, rfl,
    raiseError_from _ _⟩
  rw [exec_bwFlush, snkFlush_fails hfail]; rfl

/-! ## Reading -/

/-- While a bit is at hand the source is not asked (R76). -/
theorem readBit_at_hand {b : Bool} {bs : Bits} {s : State} (h : s.reader.racc = b :: bs) :
    readBit s = .ok (some b) (s.setReader { racc := bs, rcnt := bs.length, bitsRead := s.reader.bitsRead + 1 }) := by
  rw [readBit, h]; rfl

/-- Settles O27: the three cases of BR_READ_BIT are told apart by the stream's next bit and its end. -/
theorem readBitTakesTheNextStreamBit : Obligations.ReadBitTakesTheNextStreamBit := by
  intro s
  refine ⟨fun b bs e hw => ?bit, fun hw => ?ended, fun hw => ?failed⟩
  case bit =>
    obtain ⟨t, hread, htook⟩ := readBit_cons hw
    refine ⟨t, htook, by rw [exec_brReadBit, hread]; rfl, fun hne => ?_⟩
    obtain ⟨c, cs, hracc⟩ := List.exists_cons_of_ne_nil hne
    rw [readBit_at_hand hracc] at hread
    injection hread with _ ht
    exact ⟨by rw [← ht]; rfl, by rw [← ht]; rfl⟩
  case ended =>
    obtain ⟨_, _, _, _, hw', -⟩ | ⟨t, -, hread, htook, heof⟩ | ⟨_, hw', -⟩ := readBit_cases s
    · rw [hw] at hw'; cases hw'
    · exact ⟨t, htook, heof, by rw [exec_brReadBit, hread]; rfl⟩
    · rw [hw] at hw'; cases hw'
  case failed =>
    obtain ⟨_, _, _, _, hw', -⟩ | ⟨_, hw', -⟩ | ⟨u, -, hread, hu, hreader⟩ := readBit_cases s
    · rw [hw] at hw'; cases hw'
    · rw [hw] at hw'; cases hw'
    · exact ⟨u, _, hu, hreader, by rw [exec_brReadBit, hread]; rfl, raiseError_from _ _⟩

/-- Settles O28: BR_READ_BYTE is BR_READ_BITS(8), and the value read is the field of the bits taken. -/
theorem readFieldsMostSignificantBitFirst : Obligations.ReadFieldsMostSignificantBitFirst := by
  intro n i s h1 h32 hi
  have hexec : exec i s = (readBits n s).outcomeOf fieldResult := by
    obtain rfl | ⟨rfl, rfl⟩ := hi
    · exact exec_brReadBits n s
    · exact exec_brReadByte s
  have hok := fieldWidthOk_of_bounds h1 h32
  refine ⟨fun hn => ?value, fun hn hend => ?ended, fun hn hend => ?failed⟩
  case value =>
    obtain ⟨t, hread, htook⟩ := readBits_val hok hn
    exact ⟨t, _, htook, by rw [hexec, hread]; rfl, fieldVal_take_lt hn, fieldBits_fieldVal_take hn⟩
  case ended =>
    obtain ⟨t, hread, htook, heof⟩ := readBits_eof hok hn hend
    exact ⟨t, htook, heof, by rw [hexec, hread]; rfl⟩
  case failed =>
    obtain ⟨u, hread, hu, hcount⟩ := readBits_fail hok hn hend
    exact ⟨u, _, hu, hcount, by rw [hexec, hread]; rfl, raiseError_from _ _⟩

end Machine
end Sys2Proof
end

section
/-! PROOFS. The sliding-buffer operations run on their own (R80 to R83), and the calls outside a precondition (U4, U5, D26, R98). -/

namespace Sys2Proof.Machine

/-! ## The instructions as outcomes of the shared operations -/

theorem exec_histPush (seg : List Byte) (s : State) : exec (.histPush seg) s = .next (pushHistory seg s) := rfl

theorem exec_swrConstruct (s : State) : exec .swrConstruct s = (constructReader s).outcome := rfl

theorem exec_swrNext (m : Nat) (s : State) :
    exec (.swrNext m) s = ((advanceReader m s).bind fun _ t => .ok t.mem t).outcomeOf viewResult := rfl

theorem exec_swrCurrent (s : State) : exec .swrCurrent s = .next (s.setOpResult (viewResult s.mem)) := rfl

theorem exec_eEmitRecord (s : State) : exec .eEmitRecord s = (emitRecord s).outcome := rfl

/-! ## HistPush and SWR_CONSTRUCT -/

/-- HLEN after HistPush, whatever the form of the buffer and its window (R80, log 17). -/
theorem Memory.push_hlen (m : Memory) (seg : List Byte) (h : Nat) :
    (m.push seg h).hlen = min h (m.hlen + seg.length) := by
  simp only [Memory.push, Memory.evict]; omega

/-- Settles O30: the law of the push on a buffer with an empty window says the history, whose index shift is that of `drop`. -/
theorem histPushAppendsThenEvicts : Obligations.HistPushAppendsThenEvicts := by
  intro seg s
  refine ⟨s.mem.push seg s.params.h, exec_histPush seg s, rfl, Memory.push_hlen .., rfl, rfl, fun hwf => ?_⟩
  refine ⟨Memory.push_wf hwf seg _, fun hempty => ?_⟩
  obtain ⟨-, hhist, hwin, -⟩ := Memory.push_spec hwf hempty seg s.params.h
  exact ⟨hwin, fun k => by rw [Memory.histByte, hhist, List.getElem?_drop]⟩

/-- The views of a buffer filled with `2 * n` bytes, half history and half window (R81). -/
theorem Memory.halves_spec {n : Nat} {l : List Byte} (h : 2 * n ≤ l.length) (c : Nat) :
    (Memory.mk (l.take (2 * n)) n n c).wf ∧ (Memory.mk (l.take (2 * n)) n n c).hist = l.take n ∧
      (Memory.mk (l.take (2 * n)) n n c).win = (l.drop n).take n := by
  refine ⟨?_, ?_, ?_⟩
  · simp only [Memory.wf, List.length_take]; omega
  · simp only [Memory.hist, List.take_take]
    rw [Nat.min_eq_left (by omega)]
  · simp only [Memory.win, List.drop_take, List.take_take]
    rw [Nat.min_eq_left (by omega)]

/-- Settles O31: what the reader's construction reads, as history and window; a raise where the bytes do not suffice. -/
theorem constructFillsHistoryAndWindow : Obligations.ConstructFillsHistoryAndWindow := by
  refine fun s hbuf hfresh => ⟨fun henough => ?filled, fun hshort => ?short⟩
  case filled =>
    obtain ⟨t, hconstruct, honly, hmem, hcoming, heof⟩ := constructReader_ok hbuf hfresh henough
    obtain ⟨hwf, hhist, hwin⟩ := Memory.halves_spec henough s.params.wc
    rw [← hmem] at hwf hhist hwin
    refine ⟨t, honly, ?_, hwf, hhist, hwin, by rw [hmem], by rw [hmem], by rw [hmem], hcoming, heof⟩
    rw [exec_swrConstruct, hconstruct]; rfl
  case short =>
    obtain ⟨u, hconstruct, honly, heof⟩ := constructReader_short hbuf hfresh hshort
    exact ⟨u, _, honly, by rw [exec_swrConstruct, hconstruct]; rfl, raiseError_from _ _, heof⟩

/-! ## SWR_NEXT and SWR_CURRENT -/

/-- SWR_NEXT with a source that does not fail: the advanced state, its views the result (R82). -/
theorem exec_swrNext_ok {m : Nat} {s : State} (hwf : s.mem.wf) (h1 : 1 ≤ m) (hm : m ≤ s.mem.wlen)
    (hsrc : m ≤ (sourceComing s).1.length ∨ (sourceComing s).2 = true) :
    ∃ t, Advanced m s t ∧ exec (.swrNext m) s = .next (t.setOpResult (.view t.mem.hist t.mem.win)) := by
  obtain ⟨t, hadvance, hadv⟩ := advanceReader_ok hwf h1 hm hsrc
  exact ⟨t, hadv, by rw [exec_swrNext, hadvance]; rfl⟩

/-- Settles O32: the law of the advance in its two cases, the source failing before the `m` bytes or not. -/
theorem nextMovesTheWindowOn : Obligations.NextMovesTheWindowOn := by
  refine fun m s hwf h1 hm => ⟨exec_swrNext_ok hwf h1 hm, fun hshort hfails => ?_⟩
  obtain ⟨u, hadvance, honly⟩ := advanceReader_fail hm hshort hfails
  exact ⟨u, _, honly, by rw [exec_swrNext, hadvance]; rfl, raiseError_from _ _⟩

/-- Settles O33: the result is the view, whose two parts are the slices of BUF. -/
theorem currentReturnsTheView : Obligations.CurrentReturnsTheView := exec_swrCurrent

section
variable {m : Nat} {s t : State}

/-- History, window and what is to come stay one sequence, cut at the old end by the eviction (R82, R84). -/
theorem Advanced.views_append_coming (h : Advanced m s t) (hwf : s.mem.wf) (hm : m ≤ s.mem.wlen) :
    t.mem.hist ++ t.mem.win ++ (sourceComing t).1 =
      (s.mem.hist ++ s.mem.win ++ (sourceComing s).1).drop (s.mem.hlen + m - s.params.h) := by
  have hkept : s.mem.hlen + m - s.params.h ≤ (s.mem.hist ++ s.mem.win.take m).length := by
    rw [List.length_append, List.length_take, Memory.hist_length hwf, Memory.win_length hwf]; omega
  have hwhole : s.mem.hist ++ s.mem.win ++ (sourceComing s).1 =
      (s.mem.hist ++ s.mem.win.take m) ++ (s.mem.win.drop m ++ (sourceComing s).1) := by
    rw [List.append_assoc s.mem.hist (s.mem.win.take m), ← List.append_assoc (s.mem.win.take m), List.take_append_drop,
      List.append_assoc]
  rw [hwhole, List.drop_append_of_le_length hkept, ← h.hist, h.win, h.coming, List.append_assoc, List.append_assoc,
    List.take_append_drop]

/-- The window keeps its length while the source delivers (R82, R84). -/
theorem Advanced.wlen_eq_or_exhausted (h : Advanced m s t) (hm : m ≤ s.mem.wlen) :
    t.mem.wlen = s.mem.wlen ∨ (sourceComing t).1 = [] := by
  rcases Nat.le_total m (sourceComing s).1.length with henough | hshort
  · left; rw [h.wlen, List.length_take, Nat.min_eq_left henough, Nat.sub_add_cancel hm]
  · right; rw [h.coming]; exact List.drop_eq_nil_of_le hshort

end

/-- Settles O34: a conservation law of the advanced state; the result field is none of its terms. -/
theorem nextLosesOnlyEvictedBytes : Obligations.NextLosesOnlyEvictedBytes := by
  intro m s t hwf h1 hm hsrc hnext
  obtain ⟨u, hadv, hu⟩ := exec_swrNext_ok hwf h1 hm hsrc
  obtain rfl : u.setOpResult (.view u.mem.hist u.mem.win) = t := by rw [hu] at hnext; injection hnext
  have hlen : u.mem.hlen ≤ s.params.h := hadv.hlen ▸ Nat.min_le_left _ _
  exact ⟨hadv.views_append_coming hwf hm, hlen, hadv.wlen_eq_or_exhausted hm⟩

/-! ## Calls outside a precondition -/

/-- The widths U4 refuses (R72). -/
theorem fieldWidthOk_eq_false {n : Nat} (h : n = 0 ∨ 32 < n) : fieldWidthOk n = false := by
  simp only [fieldWidthOk, Bool.and_eq_false_iff, decide_eq_false_iff_not]; omega

/-- An empty window leaves BEST_MATCH nothing to find and E_EMIT_RECORD no literal (R89, R98). -/
theorem emitRecord_of_empty_window {s : State} (h : s.mem.win = []) : emitRecord s = .refused .emptyWindow := by
  have hnone : ¬ 0 < (bestMatch s.mem.hist s.mem.win s.params.thr s.params.sd s.search).bestLen := by
    have hbest := (bestMatch_spec s.mem.hist s.mem.win s.params.thr s.params.sd s.search).1
    obtain ⟨-, -, hle, -⟩ := hbest.valid
    rw [h, List.length_nil, ← h] at hle
    omega
  rw [emitRecord, if_neg hnone, h]

/-- Settles O17: each operation tests its precondition before it does anything, E_EMIT_RECORD after a search that finds nothing. -/
theorem callsOutsidePreconditionsAreRefused : Obligations.CallsOutsidePreconditionsAreRefused := by
  refine fun s => ⟨fun n v hn => ?width, fun m hm => ?advance, fun hused => ?construct, fun hempty => ?emit⟩
  case width =>
    have hwidth := fieldWidthOk_eq_false hn
    constructor
    · rw [exec_bwWriteBits, writeBits, hwidth]; rfl
    · rw [exec_brReadBits, readBits, hwidth]; rfl
  case advance => rw [exec_swrNext, advanceReader, if_neg (by omega)]; rfl
  case construct =>
    have hnotFresh : ¬ (s.mem.buf = [] ∧ s.srcEof = false) := by
      rintro ⟨hbuf, heof⟩
      exact hused.elim (fun h => h hbuf) fun h => by rw [h] at heof; cases heof
    rw [exec_swrConstruct, constructReader, if_neg hnotFresh]; rfl
  case emit => rw [exec_eEmitRecord, emitRecord_of_empty_window hempty]; rfl

end Sys2Proof.Machine
end

section
/-! PROOFS. FIRST_MATCH and BEST_MATCH run on their own (R88 to R92). -/

namespace Sys2Proof.Machine

/-! ## The instructions as results of the two searches -/

theorem exec_firstMatch (seq sub : List Byte) (s : State) :
    exec (.firstMatch seq sub) s = .next ((s.setSearch (firstMatch seq sub s.search).2).setOpResult
      (.range (firstMatch seq sub s.search).1.1 (firstMatch seq sub s.search).1.2)) := rfl

theorem exec_bestMatch (seq sub : List Byte) (thr depth : Nat) (s : State) :
    exec (.bestMatch seq sub thr depth) s = .next ((s.setSearch (bestMatch seq sub thr depth s.search)).setOpResult
      (.range (bestMatch seq sub thr depth s.search).bestPos (bestMatch seq sub thr depth s.search).bestLen)) := rfl

/-- FIRST_MATCH leaves BEST_POS, BEST_LEN, MS_FOUND and MS_OFF as they were (R88). -/
theorem firstMatch_frame (seq sub : List Byte) (r : SearchRegs) :
    (firstMatch seq sub r).2 =
      { r with start := (firstMatch seq sub r).2.start, count := (firstMatch seq sub r).2.count } := by
  obtain ⟨-, -, h | h⟩ | ⟨p, -, -, -, h⟩ := firstMatch_spec seq sub r <;> rw [h]

/-! ## The two results -/

/-- Settles O35: the specification of the scan, and the validity of a common prefix (R88). -/
theorem firstMatchIsTheOldestRun : Obligations.FirstMatchIsTheOldestRun := by
  intro seq sub s
  have hexec := exec_firstMatch seq sub s
  have hframe := firstMatch_frame seq sub s.search
  obtain ⟨hnone, hres, -⟩ | ⟨p, hearlier, hmatch, hres, -⟩ := firstMatch_spec seq sub s.search
  · rw [hres] at hexec
    exact ⟨0, 0, _, hexec, .inl ⟨rfl, rfl, hnone⟩, rfl, hframe⟩
  · rw [hres] at hexec
    exact ⟨p, _, _, hexec, .inr ⟨hmatch, rfl, hearlier⟩, take_commonPrefix (seq.drop p) sub, hframe⟩

/-- Settles O36: the loop's result is the best of the counted matches (R89, R91), and such a result is valid (R90, R92). -/
theorem bestMatchIsTheLongestCounted : Obligations.BestMatchIsTheLongestCounted := by
  intro seq sub thr depth s
  have hbest := (bestMatch_spec seq sub thr depth s.search).1
  obtain ⟨hlen, hinSeq, hinSub, hagrees⟩ := hbest.valid
  exact ⟨_, exec_bestMatch seq sub thr depth s, hbest, hlen.imp And.left And.right, hinSeq, hinSub, hagrees⟩

end Sys2Proof.Machine
end

section
/-! PROOFS. The encoder's states and actions that write, the flush that ends a call and E_SETUP (R95 to R97,
R99 to R102, R114). -/

namespace Sys2Proof.Machine

/-! ## The instructions as outcomes of their operations -/

theorem exec_eSetup (s : State) : exec .eSetup s = (setupEncoder s).outcome := rfl

theorem exec_eWriteHeader (s : State) : exec .eWriteHeader s =
    ((writeHeaderFields s.params.hb s.params.mlb s).bind fun _ t => .ok () (t.setCtl .ePrimeHistory)).outcome := rfl

theorem exec_ePrimeHistory (s : State) : exec .ePrimeHistory s =
    ((writeBytes s.mem.hist s).bind fun _ t => .ok () (afterRecord t)).outcome := rfl

theorem exec_emitReference (p l : Nat) (s : State) : exec (.emitReference p l) s = (writeReference p l s).outcome := rfl

theorem exec_emitLiteral (b : Byte) (s : State) : exec (.emitLiteral b) s = (writeLiteral b s).outcome := rfl

theorem exec_eWriteEnding (s : State) : exec .eWriteEnding s =
    ((writeEnding s).bind fun _ t => .ok () (t.setCtl .eFlush)).outcome := rfl

/-- E_FLUSH and D_DONE are the same instruction in two STATEs (R102, R114). -/
theorem exec_flush {i : Instr} (h : i = .eFlush ∨ i = .dDone) (s : State) : exec i s = (finishDecode s).outcome := by
  obtain rfl | rfl := h <;> rfl

/-! ## Writing -/

/-- STATE after the priming bytes and after each record (R94). -/
theorem afterRecord_eq (s : State) : afterRecord s = s.setCtl (if 0 < s.mem.wlen then .eEmitRecord else .eWriteEnding) := rfl

/-- Two closing updates count as the same if they agree where the bits are written. -/
theorem Writes.bind_congr {α : Type} {bits : Bits} {s : State} {x : Res α} {f g : State → State} (h : Writes bits s x)
    (hfg : ∀ t, Wrote bits s t → f t = g t) : (x.bind fun _ t => Res.ok () (f t)) = x.bind fun _ t => .ok () (g t) := by
  cases hx : x with
  | ok r t => rw [Res.bind_ok, Res.bind_ok, hfg t (h.ok hx)]
  | raised t => rfl
  | refused r => rfl

/-- Settles O38: the two fields are one writing operation, closed by the new STATE. -/
theorem writeHeaderEmitsBothFields : Obligations.WriteHeaderEmitsBothFields := by
  intro s
  rw [exec_eWriteHeader]
  exact (writeHeaderFields_ends _ _ s).emits _

/-- Settles O39: the bytes of HIST are one writing operation, which leaves the window alone. -/
theorem primeHistoryEmitsTheHistory : Obligations.PrimeHistoryEmitsTheHistory := by
  intro s
  have hwrites := writeBytes_ends s.mem.hist s
  rw [exec_ePrimeHistory, hwrites.bind_congr (g := fun t => t.setCtl (if 0 < s.mem.wlen then .eEmitRecord else .eWriteEnding))]
  · exact hwrites.emits _
  · intro t ht
    rw [afterRecord_eq, ht.only.mem]

/-- Settles O40: the record's writing law, with the length field that is biased or, below THR, free. -/
theorem emitReferenceWritesBiasedLength : Obligations.EmitReferenceWritesBiasedLength := by
  intro p l s hb1 hb32 hm1 hm32
  have hwrites := writeReference_writes (p := p) (l := l) (fieldWidthOk_of_bounds hb1 hb32) (fieldWidthOk_of_bounds hm1 hm32)
  rw [exec_emitReference]
  refine ⟨fun hl => ?biased, fun hl => ⟨_, lengthField_free hl, ?free⟩⟩
  case biased =>
    rw [lengthField_biased hl, countDraw_biased hl] at hwrites
    exact hwrites.emits_id
  case free =>
    rw [countDraw_free hl] at hwrites
    exact hwrites.emits_id

/-- Settles O41: the literal's writing law. -/
theorem emitLiteralWritesTagAndByte : Obligations.EmitLiteralWritesTagAndByte := by
  intro b s
  rw [exec_emitLiteral]
  exact (writeLiteral_ends b s).emits_id

/-- Settles O43: the Ending's writing law; what it wrote fills the last byte, and a raise does not lead to E_FLUSH. -/
theorem endingClosesTheLastByte : Obligations.EndingClosesTheLastByte := by
  intro s hs hc
  have hwrites := writeEnding_ends hs hc
  rw [exec_eWriteEnding]
  refine ⟨hwrites.emits _, fun t ht hflush => ?_⟩
  obtain ⟨u, hu, ⟨v, hv, rfl⟩ | ⟨v, -, -, -, hraised⟩⟩ := (hwrites.emits fun t => t.setCtl .eFlush).any
  · obtain rfl : v.setCtl .eFlush = t := by rw [hu] at ht; injection ht
    have hzero := hv.ended hs hc
    exact ⟨hzero, (hv.cursor hs hc).symm.trans hzero⟩
  · obtain rfl : u = t := by rw [hu] at ht; injection ht
    rw [RaisedFrom, SameButDiscarded] at hraised
    rw [hraised] at hflush
    cases hflush

/-! ## The flush that ends a call -/

theorem finishDecode_takes {s : State} {rest : List SnkAnswer} (h : SinkTakes s rest) : finishDecode s =
    .ok () (enterDone (s.setPorts { s.ports with snkFlushes := s.ports.snkFlushes + 1, snkAns := rest })) := by
  rw [finishDecode, snkFlush_takes h, Res.bind_ok]

/-- Settles O44: the flush in its two outcomes, then DONE where the sink took it. -/
theorem flushEndsTheCall : Obligations.FlushEndsTheCall := by
  intro i s rest hi
  rw [exec_flush hi]
  constructor
  · intro htakes
    exact ⟨_, by rw [finishDecode_takes htakes]; rfl, discard_same _⟩
  · intro hfail
    refine ⟨s.setPorts { s.ports with snkFlushes := s.ports.snkFlushes + 1, snkAns := rest }, _, ?_, rfl, rfl, rfl,
      raiseError_from _ _⟩
    rw [finishDecode, snkFlush_fails hfail]; rfl

/-! ## E_SETUP -/

theorem paramsLegal_cfg_iff (c : HostRegs) : paramsLegal c.cfgHb.toNat c.cfgMlb.toNat = true ↔
    3 ≤ c.cfgHb.toNat ∧ 2 ≤ c.cfgMlb.toNat ∧ c.cfgMlb.toNat < c.cfgHb.toNat := by
  rw [paramsLegal_iff]
  have := c.cfgHb.isLt
  have := c.cfgMlb.isLt
  omega

/-- The state in which E_SETUP constructs the reader: the header registers and the parameters are written (R95). -/
def withParams (s : State) : State :=
  (s.setHdr { hb := s.cfg.cfgHb, mlb := s.cfg.cfgMlb }).setParams
    (paramsOf s.cfg.cfgHb.toNat s.cfg.cfgMlb.toNat s.cfg.cfgSd.toNat)

theorem setupEncoder_of_illegal {s : State} (h : paramsLegal s.cfg.cfgHb.toNat s.cfg.cfgMlb.toNat = false) :
    setupEncoder s = .raised (raiseError .configurationError (s.setHdr { hb := s.cfg.cfgHb, mlb := s.cfg.cfgMlb })) :=
  if_neg (by simp [h])

theorem setupEncoder_of_legal {s : State} (h : paramsLegal s.cfg.cfgHb.toNat s.cfg.cfgMlb.toNat = true) :
    setupEncoder s = (constructReader (withParams s)).bind fun _ t => .ok () (t.setCtl .eWriteHeader) := if_pos h

theorem sourceComing_withParams (s : State) : sourceComing (withParams s) = sourceComing s := rfl

/-- E_SETUP on a fresh buffer with `2 * WC` bytes to come: half of them history, half window (R81, R95). -/
theorem setupEncoder_ok {s : State} (h : paramsLegal s.cfg.cfgHb.toNat s.cfg.cfgMlb.toNat = true) (hbuf : s.mem.buf = [])
    (hfresh : s.srcEof = false) {wc : Nat} (hwc : (withParams s).params.wc = wc) (henough : 2 * wc ≤ (sourceComing s).1.length) :
    ∃ t, setupEncoder s = .ok () (t.setCtl .eWriteHeader) ∧ OnlyRefilled (withParams s) t ∧ t.mem.wf ∧
      t.mem.hist = (sourceComing s).1.take wc ∧ t.mem.win = ((sourceComing s).1.drop wc).take wc ∧ t.mem.hlen = wc ∧
      t.mem.wlen = wc ∧ t.mem.wcap = wc ∧
      sourceComing t = ((sourceComing s).1.drop (2 * wc), (sourceComing s).2) ∧ t.srcEof = false := by
  subst hwc
  obtain ⟨t, ht, honly, hmem, hcoming, heof⟩ := constructReader_ok (s := withParams s) hbuf hfresh henough
  rw [sourceComing_withParams] at hmem hcoming
  obtain ⟨hwf, hhist, hwin⟩ := Memory.halves_spec henough (withParams s).params.wc
  rw [← hmem] at hwf hhist hwin
  exact ⟨t, by rw [setupEncoder_of_legal h, ht, Res.bind_ok], honly, hwf, hhist, hwin, by rw [hmem], by rw [hmem],
    by rw [hmem], hcoming, heof⟩

/-- Settles O37: the checks by their branch, then SWR_CONSTRUCT in its two outcomes on the written parameters. -/
theorem setupChecksThenConstructs : Obligations.SetupChecksThenConstructs := by
  intro s hb mlb
  have hlegal := paramsLegal_cfg_iff s.cfg
  refine ⟨fun hbad => ⟨_, ?_, raiseError_from _ _⟩, fun h3 h2 hlt hbuf hfresh => ⟨fun henough => ?_, fun hshort => ?_⟩⟩
  · rw [exec_eSetup, setupEncoder_of_illegal (Bool.eq_false_iff.2 fun h => by have := hlegal.1 h; omega)]; rfl
  · obtain ⟨t, ht, honly, -, hrest⟩ := setupEncoder_ok (hlegal.2 ⟨h3, h2, hlt⟩) hbuf hfresh rfl henough
    exact ⟨t, honly, by rw [exec_eSetup, ht]; rfl, hrest⟩
  · obtain ⟨u, hu, honly, -⟩ := constructReader_short (s := withParams s) hbuf hfresh hshort
    exact ⟨u, _, honly, by rw [exec_eSetup, setupEncoder_of_legal (hlegal.2 ⟨h3, h2, hlt⟩), hu]; rfl, raiseError_from _ _⟩

end Sys2Proof.Machine
end

section
/-! PROOFS. Where each STATE goes (R94, R104): an operation's result stands in the STATE it names, a raise in ERROR. -/

namespace Sys2Proof.Machine

/-! ## The STATE an operation ends in -/

section
variable {α β : Type}

/-- A result is in `P`, a raise in ERROR. -/
def Res.Leads (P : State → Prop) : Res α → Prop
  | .ok _ t => P t
  | .raised t => t.ctl = .error
  | .refused _ => True

theorem Res.Leads.bind {P Q : State → Prop} {x : Res α} {f : α → State → Res β} (hx : x.Leads P)
    (hf : ∀ a t, P t → (f a t).Leads Q) : (x.bind f).Leads Q := by
  cases x with
  | ok a t => exact hf a t hx
  | raised t => exact hx
  | refused r => trivial

/-- A last update of the state that names STATE. -/
theorem Res.Leads.andThen {P Q : State → Prop} {x : Res α} {g : State → State} (hx : x.Leads P) (hg : ∀ t, P t → Q (g t)) :
    (x.bind fun _ t => Res.ok () (g t)).Leads Q :=
  hx.bind fun _ t => hg t

theorem Res.Leads.next {P : State → Prop} {x : Res α} {t : State} (hx : x.Leads P) (h : x.outcome = .next t) :
    P t ∨ t.ctl = .error := by
  cases x with
  | ok a u => cases h; exact .inl hx
  | raised u => cases h; exact .inr hx
  | refused r => cases h

theorem Res.Ends.leads {P : α → State → Prop} {Q : State → Prop} {x : Res α} (hx : x.Ends P Q)
    (hq : ∀ t, Q t → t.ctl = .error) : x.Leads fun t => ∃ a, P a t := by
  cases x with
  | ok a t => exact ⟨a, hx⟩
  | raised t => exact hq t hx
  | refused r => exact hx.elim

/-- Nothing is asked of a result: only where a raise leads. -/
abbrev Res.Raises (x : Res α) : Prop := x.Leads fun _ => True

theorem Res.Leads.raises {P : State → Prop} {x : Res α} (hx : x.Leads P) : x.Raises := by
  cases x with
  | ok a t => trivial
  | raised t => exact hx
  | refused r => trivial

end

/-! ## The shared operations -/

theorem Writes.raises {α : Type} {bits : Bits} {s : State} {x : Res α} (h : Writes bits s x) : x.Raises := by
  refine (h.ends.leads ?_).raises
  rintro _ ⟨u, -, -, -, rfl, -⟩
  rfl

theorem RaisedReading.ctl {e : ErrorClass} {s t : State} (h : RaisedReading e s t) : t.ctl = .error := by
  obtain ⟨u, -, rfl⟩ := h
  rfl

theorem writeBits_raises (n v : Nat) (s : State) : (writeBits n v s).Raises := by
  by_cases h : fieldWidthOk n = true
  · exact (writeBits_ends v s h).raises
  · rw [writeBits, if_neg h]; trivial

theorem padLoop_raises (k : Nat) (s : State) : (padLoop k s).Raises := by
  induction k generalizing s with
  | zero => trivial
  | succ k ih =>
    rw [padLoop]
    split
    · trivial
    · exact (writeBit_ends false s).raises.bind fun _ t _ => ih t

theorem snkWriteAll_raises (l : List Byte) (s : State) : (snkWriteAll l s).Raises := by
  refine ((snkWriteAll_ends l s).leads ?_).raises
  rintro _ ⟨u, -, -, -, -, rfl, -⟩
  rfl

theorem readBit_raises (s : State) : (readBit s).Raises := ((readBit_ends s).leads fun _ h => h.ctl).raises

theorem readBits_raises (n : Nat) (s : State) : (readBits n s).Raises := by
  by_cases h : fieldWidthOk n = true
  · exact ((readBits_ends s h).leads fun _ h => h.ctl).raises
  · rw [readBits, if_neg h]; trivial

theorem fillBuffer_raises (n : Nat) (s : State) : (fillBuffer n s).Raises := by
  by_cases h : n ≤ (sourceComing s).1.length
  · obtain ⟨t, ht, -⟩ := fillBuffer_ok h
    rw [ht]; trivial
  · obtain ⟨u, hu, -⟩ := fillBuffer_short (Nat.lt_of_not_le h)
    rw [hu]; rfl

theorem constructReader_raises (s : State) : (constructReader s).Raises := by
  rw [constructReader]
  split
  · exact (fillBuffer_raises _ s).andThen fun _ _ => trivial
  · trivial

theorem refillWindow_raises (n k : Nat) (s : State) : (refillWindow n k s).Raises := by
  by_cases h : n ≤ (sourceComing s).1.length ∨ (sourceComing s).2 = true
  · obtain ⟨t, ht, -⟩ := refillWindow_ok k h
    rw [ht]; trivial
  · rw [not_or] at h
    obtain ⟨u, hu, -⟩ := refillWindow_fail k (Nat.lt_of_not_le h.1) (by simpa using h.2)
    rw [hu]; rfl

theorem advanceReader_raises (m : Nat) (s : State) : (advanceReader m s).Raises := by
  rw [advanceReader]
  split
  · exact (refillWindow_raises m 0 s).bind fun _ _ _ => trivial
  · trivial

/-! ## The encoder -/

theorem setupEncoder_leads (s : State) : (setupEncoder s).Leads fun t => t.ctl = .eWriteHeader := by
  cases h : paramsLegal s.cfg.cfgHb.toNat s.cfg.cfgMlb.toNat with
  | true => rw [setupEncoder_of_legal h]; exact (constructReader_raises _).andThen fun _ _ => rfl
  | false => rw [setupEncoder_of_illegal h]; rfl

/-- The STATE after the priming bytes and after each record (R94). -/
def GoesOnByWindow (t : State) : Prop := t.ctl = if 0 < t.mem.wlen then .eEmitRecord else .eWriteEnding

theorem emitRecord_leads (s : State) : (emitRecord s).Leads GoesOnByWindow := by
  have advance (m : Nat) (t : State) : ((advanceReader m t).bind fun _ u => .ok () (afterRecord u)).Leads GoesOnByWindow :=
    (advanceReader_raises m t).andThen fun _ _ => rfl
  unfold emitRecord
  dsimp only
  split
  · exact Res.Leads.bind ((writeBit_ends false _).raises.bind fun _ t _ => (writeBits_raises _ _ t).bind fun _ u _ =>
      writeBits_raises _ _ u) fun _ t _ => advance _ t
  · split
    · trivial
    · exact (writeLiteral_ends _ _).raises.bind fun _ t _ => advance 1 t

theorem writeEnding_raises (s : State) : (writeEnding s).Raises := by
  unfold writeEnding
  split
  · exact (writeBit_ends true s).raises.bind fun _ t _ => padLoop_raises 8 t
  · trivial

/-- D_DONE and E_FLUSH (R102, R114). -/
theorem finishDecode_leads (s : State) :
    (finishDecode s).Leads fun t => t.ctl = .done ∧ t.cleanEnd = s.cleanEnd := by
  refine ((snkFlush_ends s).leads ?_).andThen ?_
  · rintro _ ⟨r, rfl⟩; rfl
  · rintro _ ⟨-, r, rfl⟩; exact ⟨rfl, rfl⟩

/-! ## The decoder -/

theorem needField_leads {n : Nat} {s : State} {f : Nat → State → Res Unit} {P : State → Prop}
    (hf : ∀ v t, (f v t).Leads P) : (needField (readBits n s) f).Leads P := by
  refine (readBits_raises n s).bind fun r t _ => ?_
  cases r with
  | eof k => rfl
  | val v => exact hf v t

theorem readHeader_leads (s : State) : (readHeader s).Leads fun t => t.ctl = .dInit := by
  refine needField_leads fun a t => needField_leads fun b u => ?_
  rw [acceptHeader]
  split <;> rfl

theorem readPriming_raises (n : Nat) (s : State) : (readPriming n s).Raises := by
  induction n generalizing s with
  | zero => trivial
  | succ n ih =>
    exact needField_leads fun v t => ((deliverByte_ends _ t).leads fun _ h => h).raises.bind fun _ u _ => ih u

/-- Where D_READ_RECORD leads but for ERROR (R104, R108, R112). -/
def RecordReadOrCleanEnd (t : State) : Prop := t.ctl = .dWriteDecoded ∨ t.ctl = .done ∧ t.cleanEnd = true

theorem endCleanly_leads (s : State) : (endCleanly s).Leads RecordReadOrCleanEnd := by
  have h := finishDecode_leads (s.setCleanEnd true)
  unfold endCleanly
  cases hx : finishDecode (s.setCleanEnd true) with
  | ok a t => rw [hx] at h; exact .inr h
  | raised t => rw [hx] at h; exact h
  | refused r => trivial

theorem readLiteral_leads (s : State) : (readLiteral s).Leads RecordReadOrCleanEnd := by
  refine (readBits_raises 8 s).bind fun r t _ => ?_
  cases r with
  | eof k => exact endCleanly_leads t
  | val v => exact .inl rfl

theorem readReference_leads (s : State) : (readReference s).Leads RecordReadOrCleanEnd := by
  refine needField_leads fun p t => needField_leads fun e u => ?_
  rw [acceptReference]
  split
  · rfl
  · exact .inl rfl

theorem readRecord_leads (s : State) : (readRecord s).Leads RecordReadOrCleanEnd := by
  refine (readBit_raises s).bind fun r t _ => ?_
  match r with
  | none => exact endCleanly_leads t
  | some true => exact readLiteral_leads _
  | some false => exact readReference_leads _

/-- Settles O22: a controller step is its instruction's operation, which leads where the STATE's row of the table says; a block
at rest stays. -/
theorem controllerFollowsTheTransitionTables : Obligations.ControllerFollowsTheTransitionTables := by
  intro s t hs ht
  have runs {i : Instr} {x : Res Unit} {P : State → Prop} (hn : nextInstr s = some i) (hx : exec i s = x.outcome)
      (hl : x.Leads P) : P t ∨ t.ctl = .error :=
    hl.next (hx.symm.trans ((step_of_instr hs hn).symm.trans ht))
  have rests (hn : nextInstr s = none) : t.ctl = s.ctl := by
    rw [step_of_silent hs, engineStep_of_rest hn] at ht
    injection ht with h
    rw [h]
  cases hc : s.ctl with
  | idle => exact (rests (by rw [nextInstr, hc])).trans hc
  | eSetup => exact runs (i := .eSetup) (by rw [nextInstr, hc]) rfl (setupEncoder_leads s)
  | eWriteHeader =>
    exact runs (i := .eWriteHeader) (P := fun u => u.ctl = .ePrimeHistory) (by rw [nextInstr, hc]) rfl
      ((writeHeaderFields_ends _ _ s).raises.andThen fun _ _ => rfl)
  | ePrimeHistory =>
    exact runs (i := .ePrimeHistory) (P := GoesOnByWindow) (by rw [nextInstr, hc]) rfl
      ((writeBytes_ends _ s).raises.andThen fun _ _ => rfl)
  | eEmitRecord => exact runs (i := .eEmitRecord) (P := GoesOnByWindow) (by rw [nextInstr, hc]) rfl (emitRecord_leads s)
  | eWriteEnding =>
    exact runs (i := .eWriteEnding) (P := fun u => u.ctl = .eFlush) (by rw [nextInstr, hc]) rfl
      ((writeEnding_raises s).andThen fun _ _ => rfl)
  | eFlush =>
    exact (runs (i := .eFlush) (by rw [nextInstr, hc]) (exec_flush (.inl rfl) s) (finishDecode_leads s)).imp_left And.left
  | dReadHeader => exact runs (i := .dReadHeader) (by rw [nextInstr, hc]) rfl (readHeader_leads s)
  | dInit =>
    exact runs (i := .dInit) (P := fun u => u.ctl = .dReadRecord) (by rw [nextInstr, hc]) rfl
      ((readPriming_raises _ s).andThen fun _ _ => rfl)
  | dReadRecord => exact or_assoc.1 (runs (i := .dReadRecord) (by rw [nextInstr, hc]) rfl (readRecord_leads s))
  | dWriteDecoded =>
    exact runs (P := fun u => u.ctl = .dReadRecord) (nextInstr_of_segment hc) rfl
      ((snkWriteAll_raises _ s).andThen fun _ _ => rfl)
  | done => exact (rests (by rw [nextInstr, hc])).trans hc
  | error => exact (rests (by rw [nextInstr, hc])).trans hc

end Sys2Proof.Machine
end

section
/-! PROOFS. E_EMIT_RECORD in its three parts (R98): the search finds a record that fits, the record is written, the reader moves
on by its length. -/

namespace Sys2Proof.Machine

theorem EncoderBuffer.paramsOk {s : State} (h : EncoderBuffer s) : ParamsOk s.params := h.1

theorem EncoderBuffer.wf {s : State} (h : EncoderBuffer s) : s.mem.wf := h.2.1

/-! ## The record the search finds -/

/-- The scratch registers after the search of the view (R89, R98). -/
def searchView (s : State) : SearchRegs := bestMatch s.mem.hist s.mem.win s.params.thr s.params.sd s.search

/-- By how many bytes the record moves the reader on (R98). -/
def recordLength (s : State) : Nat := if 0 < (searchView s).bestLen then (searchView s).bestLen else 1

/-- The record E_EMIT_RECORD writes: a REFERENCE to the match found, else the LITERAL WIN[0] (R98). -/
def recordFound (s : State) : Instr :=
  if 0 < (searchView s).bestLen then .reference (searchView s).bestPos ((searchView s).bestLen - s.params.thr)
  else .literal (s.mem.win.headD 0)

/-- The search and record registers as the record's writing leaves them (R99, R100). -/
def withRecord (s : State) : State :=
  (s.setSearch (searchView s)).setRecord
    (if 0 < (searchView s).bestLen then
      { s.record with tag := false, pos := (searchView s).bestPos, len := (searchView s).bestLen }
    else { s.record with tag := true, byte := s.mem.win.headD 0 })

/-- The writing part of E_EMIT_RECORD (R98). -/
def writeRecord (s : State) : Res Unit :=
  if 0 < (searchView s).bestLen then writeReference (searchView s).bestPos (searchView s).bestLen (s.setSearch (searchView s))
  else writeLiteral (s.mem.win.headD 0) (s.setSearch (searchView s))

@[simp] theorem sourceComing_withRecord (s : State) : sourceComing (withRecord s) = sourceComing s := rfl
@[simp] theorem outBits_withRecord (s : State) : outBits (withRecord s) = outBits s := rfl

/-- A match found is at least THR long and lies in the history, and the window begins with it (R90, R92). -/
theorem searchView_valid {s : State} (hwf : s.mem.wf) (hfound : 0 < (searchView s).bestLen) :
    s.params.thr ≤ (searchView s).bestLen ∧ (searchView s).bestPos + (searchView s).bestLen ≤ s.mem.hlen ∧
      (searchView s).bestLen ≤ s.mem.wlen ∧
      histSlice s.mem (searchView s).bestPos (searchView s).bestLen = s.mem.win.take (searchView s).bestLen := by
  obtain ⟨hlen, hhist, hwin, hagrees⟩ := (bestMatch_spec s.mem.hist s.mem.win s.params.thr s.params.sd s.search).1.valid
  rw [Memory.hist_length hwf] at hhist
  rw [Memory.win_length hwf] at hwin
  obtain ⟨hzero, -⟩ | ⟨-, hthr⟩ := hlen
  · exact absurd hzero (Nat.ne_of_gt hfound)
  · exact ⟨hthr, hhist, hwin, hagrees⟩

/-- The record takes at least one byte from the window and no more than it holds (R82, R98). -/
theorem recordLength_bounds {s : State} (hwf : s.mem.wf) (hpos : 0 < s.mem.wlen) :
    1 ≤ recordLength s ∧ recordLength s ≤ s.mem.wlen := by
  unfold recordLength
  split
  case isTrue hfound =>
    obtain ⟨-, -, hle, -⟩ := searchView_valid hwf hfound
    exact ⟨hfound, hle⟩
  case isFalse => exact ⟨le_rfl, hpos⟩

theorem Memory.exists_win_cons {m : Memory} (hwf : m.wf) (hpos : 0 < m.wlen) : ∃ b bs, m.win = b :: bs :=
  List.exists_cons_of_length_pos (by rw [Memory.win_length hwf]; exact hpos)

/-! ## Writing it and moving on -/

/-- E_EMIT_RECORD inside its precondition: the record, the advance, the new STATE (R98). -/
theorem emitRecord_eq {s : State} (hwf : s.mem.wf) (hpos : 0 < s.mem.wlen) :
    emitRecord s = (writeRecord s).bind fun _ t => (advanceReader (recordLength s) t).bind fun _ u => .ok () (afterRecord u) := by
  unfold emitRecord writeRecord recordLength
  by_cases hfound : 0 < (searchView s).bestLen
  · rw [if_pos hfound, if_pos hfound]
    exact if_pos hfound
  · rw [if_neg hfound, if_neg hfound]
    refine (if_neg hfound).trans ?_
    obtain ⟨b, bs, hwin⟩ := Memory.exists_win_cons hwf hpos
    split
    case h_1 hnil => rw [hwin] at hnil; cases hnil
    case h_2 c cs hcons =>
      rw [show s.mem.win.headD 0 = c by rw [hcons]; rfl]
      rfl

theorem writeRecord_writes {s : State} (hbuf : EncoderBuffer s) :
    Writes (encode s.params.hb s.params.mlb (recordFound s)) (withRecord s) (writeRecord s) := by
  obtain ⟨hparams, hwf, -⟩ := hbuf
  unfold writeRecord withRecord recordFound
  split
  case isTrue hfound =>
    exact writeReference_ends (s := s.setSearch (searchView s)) (searchView_valid hwf hfound).1 hparams.ranges.hbWidth
      hparams.ranges.mlbWidth
  case isFalse => exact writeLiteral_ends _ (s.setSearch (searchView s))

theorem OnlyWrote.sourceComing {s t : State} (h : OnlyWrote s t) : sourceComing t = sourceComing s := by
  rw [Machine.sourceComing, Machine.sourceComing, h.srcEof, h.src]

theorem OnlyRefilled.snkAns {s t : State} (h : OnlyRefilled s t) : t.ports.snkAns = s.ports.snkAns := by rw [h]; rfl

/-- What E_EMIT_RECORD has done when the record is written and the reader has moved on (R98). -/
structure RecordEmitted (s t : State) : Prop where
  emitted : ∃ u w, Wrote (encode s.params.hb s.params.mlb (recordFound s)) (withRecord s) u ∧
    Advanced (recordLength s) u w ∧ t = afterRecord w
  willing : SinkWilling s → SinkWilling t

section
variable {s : State} (hbuf : EncoderBuffer s) (hpos : 0 < s.mem.wlen)
include hbuf hpos

/-- Once the record is written: the advance and the new STATE, with a source that does not fail (R82, R98). -/
theorem emitRecord_of_written {u : State} (hu : writeRecord s = .ok () u)
    (hsrc : recordLength s ≤ (sourceComing s).1.length ∨ (sourceComing s).2 = true) :
    ∃ t, emitRecord s = .ok () t ∧ RecordEmitted s t := by
  have hends := (writeRecord_writes hbuf).ends
  rw [hu] at hends
  obtain ⟨hwrote, -, hwilling⟩ := hends
  have hmem : u.mem = s.mem := hwrote.only.mem
  obtain ⟨h1, hm⟩ := recordLength_bounds hbuf.wf hpos
  obtain ⟨w, hw, hadv⟩ := advanceReader_ok (by rw [hmem]; exact hbuf.wf) h1 (by rw [hmem]; exact hm)
    (by rw [hwrote.only.sourceComing]; exact hsrc)
  refine ⟨afterRecord w, by rw [emitRecord_eq hbuf.wf hpos, hu, Res.bind_ok, hw, Res.bind_ok], ⟨u, w, hwrote, hadv, rfl⟩,
    fun h => ?_⟩
  rw [SinkWilling, afterRecord_eq, State.setCtl_ports, hadv.only.snkAns]
  exact hwilling h

/-- Once the record is written: IOError where the source fails within its bytes (R82, R120). -/
theorem emitRecord_of_failing_source {u : State} (hu : writeRecord s = .ok () u)
    (hshort : (sourceComing s).1.length < recordLength s) (hfails : (sourceComing s).2 = false) :
    ∃ x, OnlyRefilled u x ∧ emitRecord s = .raised (raiseError .ioError x) := by
  have hwrote := (writeRecord_writes hbuf).ok hu
  have hmem : u.mem = s.mem := hwrote.only.mem
  have hcoming := hwrote.only.sourceComing
  rw [sourceComing_withRecord] at hcoming
  obtain ⟨x, hx, honly⟩ := advanceReader_fail (m := recordLength s) (s := u)
    (by rw [hmem]; exact (recordLength_bounds hbuf.wf hpos).2)
    (by rw [hcoming]; exact hshort) (by rw [hcoming]; exact hfails)
  exact ⟨x, honly, by rw [emitRecord_eq hbuf.wf hpos, hu, Res.bind_ok, hx, Res.bind_raised]⟩

/-- E_EMIT_RECORD in its two endings: the record emitted, or IOError (R98, R120). -/
theorem emitRecord_ends : (emitRecord s).Ends (fun _ t => RecordEmitted s t) (fun t => t.ctl = .error ∧ t.err = .ioError) := by
  have hends := (writeRecord_writes hbuf).ends
  cases hx : writeRecord s with
  | ok r u =>
    by_cases hsrc : recordLength s ≤ (sourceComing s).1.length ∨ (sourceComing s).2 = true
    · obtain ⟨t, hemit, hemitted⟩ := emitRecord_of_written hbuf hpos hx hsrc
      rw [hemit]
      exact hemitted
    · rw [not_or] at hsrc
      obtain ⟨x, -, hemit⟩ := emitRecord_of_failing_source hbuf hpos hx (Nat.lt_of_not_le hsrc.1) (by simpa using hsrc.2)
      rw [hemit]
      exact ⟨rfl, rfl⟩
  | raised t =>
    rw [hx] at hends
    obtain ⟨u, -, -, -, rfl, -⟩ := hends
    rw [emitRecord_eq hbuf.wf hpos, hx]
    exact ⟨rfl, rfl⟩
  | refused r => rw [hx] at hends; exact hends.elim

end

/-- Settles O42: the record's writing law for a willing sink and for one that fails at a byte, and the advance with a source that
delivers and with one that fails. -/
theorem emitRecordSearchesWritesAdvances : Obligations.EmitRecordSearchesWritesAdvances := by
  intro s hbuf hpos r b m i v
  have hwrites := writeRecord_writes hbuf
  refine ⟨fun hwilling hsrc => ?emitted, fun hs k rest hans hk => ?sinkFails, fun hwilling hshort hfails => ?sourceFails,
    ?next⟩
  case emitted =>
    obtain ⟨_, _, hu, -⟩ := hwrites.willing hwilling
    obtain ⟨_, hemit, ⟨u, w, hwrote, hadv, rfl⟩, -⟩ := emitRecord_of_written hbuf hpos hu hsrc
    exact ⟨u, w, hwrote, hadv, by rw [exec_eEmitRecord, hemit]; rfl⟩
  case sinkFails =>
    obtain ⟨u, hu, honly, hrest, hbits⟩ := (hwrites.meets hs k _ hans).fails hk rest rfl
    refine ⟨u, _, honly, hrest, ?_, raiseError_from _ _, hbits⟩
    rw [exec_eEmitRecord, emitRecord_eq hbuf.wf hpos, hu]; rfl
  case sourceFails =>
    obtain ⟨_, u, hu, hwrote, -⟩ := hwrites.willing hwilling
    obtain ⟨x, honly, hemit⟩ := emitRecord_of_failing_source hbuf hpos hu hshort hfails
    exact ⟨u, x, _, hwrote, honly, by rw [exec_eEmitRecord, hemit]; rfl, raiseError_from _ _⟩
  case next =>
    obtain ⟨t, ht, ⟨-, ⟨u, w, hwrote, hadv, rfl⟩, -⟩ | hraised⟩ := (emitRecord_ends hbuf hpos).next
    · exact ⟨_, ht, .inl ⟨rfl, hadv.only.err.trans hwrote.only.err⟩⟩
    · exact ⟨t, ht, .inr hraised⟩

end Sys2Proof.Machine
end

section
/-! PROOFS. The decoder on a whole record: the two steps that read it and deliver its bytes (R108 to R111), and the record the
encoder wrote undone by them. -/

namespace Sys2Proof.Machine

theorem DecoderBuffer.paramsOk {s : State} (h : DecoderBuffer s) : ParamsOk s.params := h.1

theorem DecoderBuffer.wf {s : State} (h : DecoderBuffer s) : s.mem.wf := h.2.1

/-! ## What a call keeps from one record to the next -/

theorem OnlyRead.snkFlushes {s t : State} (h : OnlyRead s t) : t.ports.snkFlushes = s.ports.snkFlushes := by rw [h]; rfl

/-- From `s` to `t` a call went on under the same header and parameters, without an error, a flush or a word from the host. -/
structure SameCall (s t : State) : Prop where
  host : t.host = s.host
  hdr : t.hdr = s.hdr
  params : t.params = s.params
  err : t.err = s.err
  snkFlushes : t.ports.snkFlushes = s.ports.snkFlushes

theorem SameCall.refl (s : State) : SameCall s s := ⟨rfl, rfl, rfl, rfl, rfl⟩

theorem SameCall.trans {s t u : State} (h : SameCall s t) (k : SameCall t u) : SameCall s u :=
  ⟨k.host.trans h.host, k.hdr.trans h.hdr, k.params.trans h.params, k.err.trans h.err, k.snkFlushes.trans h.snkFlushes⟩

theorem OnlyRead.sameCall {s t : State} (h : OnlyRead s t) : SameCall s t := ⟨h.host, h.hdr, h.params, h.err, h.snkFlushes⟩

theorem OnlyWrote.sameCall {s t : State} (h : OnlyWrote s t) : SameCall s t := ⟨h.host, h.hdr, h.params, h.err, h.snkFlushes⟩

theorem setCtl_sameCall (s : State) (c : Ctl) : SameCall s (s.setCtl c) := ⟨rfl, rfl, rfl, rfl, rfl⟩

theorem setRecord_sameCall (s : State) (x : RecordRegs) : SameCall s (s.setRecord x) := ⟨rfl, rfl, rfl, rfl, rfl⟩

theorem pushHistory_sameCall (seg : List Byte) (s : State) : SameCall s (pushHistory seg s) := ⟨rfl, rfl, rfl, rfl, rfl⟩


/-! ## Reading a whole record -/

/-- D_READ_RECORD on a whole LITERAL (R59, R108, R109). -/
theorem readRecord_literal {s : State} {b : Byte} {rest : Bits} {e : Bool}
    (hw : wireBits s = (true :: (byteBits b ++ rest), e)) :
    ∃ u, Took 9 s u ∧
      readRecord s = .ok () ((u.setRecord { s.record with tag := true, byte := b }).setCtl .dWriteDecoded) := by
  obtain ⟨t, ht, htook⟩ := readBit_cons hw
  have hwt : wireBits (t.setRecord { t.record with tag := true }) = (byteBits b ++ rest, e) := by
    rw [wireBits_setRecord, htook.wire, hw]; rfl
  obtain ⟨u, hu, hutook⟩ := readBits_val (n := 8) rfl (s := t.setRecord { t.record with tag := true }) (by rw [hwt]; simp)
  refine ⟨_, htook.thenRecord hutook, ?_⟩
  rw [readRecord_eq_acceptLiteral hw, acceptLiteral, acceptTag, ht, Res.bind_ok]
  dsimp only
  rw [hu, Res.bind_ok, State.setRecord_set, hutook.only.record, State.setRecord_record, htook.only.record]

/-- D_READ_RECORD on a whole REFERENCE inside the history (R60, R63, R108, R110). -/
theorem readRecord_reference {s : State} {p l : Nat} {rest : Bits} {e : Bool} (hb : fieldWidthOk s.params.hb = true)
    (hm : fieldWidthOk s.params.mlb = true) (hp : p < 2 ^ s.params.hb) (hl : l < 2 ^ s.params.mlb)
    (hin : p + (l + s.params.thr) ≤ s.mem.hlen)
    (hw : wireBits s = (false :: (fieldBits s.params.hb p ++ (fieldBits s.params.mlb l ++ rest)), e)) :
    ∃ u, Took (1 + s.params.hb + s.params.mlb) s u ∧ readRecord s =
      .ok () ((u.setRecord { s.record with tag := false, pos := p, len := l + s.params.thr }).setCtl .dWriteDecoded) := by
  obtain ⟨t, ht, htook⟩ := readBit_cons hw
  have hwt : wireBits (t.setRecord { t.record with tag := false }) =
      (fieldBits s.params.hb p ++ (fieldBits s.params.mlb l ++ rest), e) := by
    rw [wireBits_setRecord, htook.wire, hw]; rfl
  obtain ⟨u, hu, hutook⟩ := readBits_val hb (s := t.setRecord { t.record with tag := false }) (by rw [hwt]; simp)
  have hwu : wireBits (u.setRecord { u.record with pos := p }) = (fieldBits s.params.mlb l ++ rest, e) := by
    rw [wireBits_setRecord, hutook.wire, hwt, drop_fieldBits]
  obtain ⟨v, hv, hvtook⟩ := readBits_val hm (s := u.setRecord { u.record with pos := p }) (by rw [hwu]; simp)
  have htp : t.params = s.params := htook.only.params
  have hup : u.params = s.params := hutook.only.params.trans htp
  have hvp : v.params = s.params := hvtook.only.params.trans hup
  have hvr : v.record = { s.record with tag := false, pos := p } := by
    rw [hvtook.only.record, State.setRecord_record, hutook.only.record, State.setRecord_record, htook.only.record]
  have hvm : v.mem = s.mem := hvtook.only.mem.trans (hutook.only.mem.trans htook.only.mem)
  refine ⟨_, (htook.thenRecord hutook).thenRecord hvtook, ?_⟩
  rw [readRecord_eq_acceptReferenceElement hp hl hw, acceptReferenceElement, acceptTag, ht, Res.bind_ok]
  dsimp only
  rw [State.setRecord_params, htp, needField, hu, Res.bind_ok]
  dsimp only
  rw [hup, needField, hv, Res.bind_ok]
  dsimp only
  rw [acceptReference, if_neg, State.setRecord_set, hvr, hvp]
  rw [State.setRecord_mem, State.setRecord_record, hvm, hvp, hvr]
  exact Nat.not_lt.2 hin

/-! ## Delivering its bytes -/

/-- `seg` went to a willing sink and into the history (R107, R111). -/
structure Delivered (seg : List Byte) (s t : State) : Prop where
  call : SameCall s t
  mem : t.mem = s.mem.push seg s.params.h
  snk : t.ports.snk = s.ports.snk ++ seg
  wire : wireBits t = wireBits s
  willing : SinkWilling t

theorem snkWriteAll_delivered (seg : List Byte) {s : State} (h : SinkWilling s) :
    ∃ t, snkWriteAll seg s = .ok () t ∧ Delivered seg s (pushHistory seg t) := by
  obtain ⟨t, ht, honly, -, hsnk, hwilling⟩ := snkWriteAll_willing seg h
  refine ⟨t, ht, ⟨honly.sameCall.trans (pushHistory_sameCall seg t), ?_, hsnk, honly.wireBits, hwilling⟩⟩
  rw [pushHistory, State.setMem_mem, honly.mem, honly.params]

/-- D_WRITE_DECODED with a willing sink (R111). -/
theorem deliverSegment_delivered (seg : List Byte) {s : State} (h : SinkWilling s) :
    ∃ t, deliverSegment seg s = .ok () (t.setCtl .dReadRecord) ∧ Delivered seg s t := by
  obtain ⟨t, ht, hdelivered⟩ := snkWriteAll_delivered seg h
  exact ⟨_, by rw [deliverSegment, ht, Res.bind_ok], hdelivered⟩

/-- A decoder at a record boundary, with nothing from the host and a willing sink. -/
structure AtRecord (s : State) : Prop where
  host : s.host = []
  ctl : s.ctl = .dReadRecord
  buffer : DecoderBuffer s
  willing : SinkWilling s

/-- Bits of the stream turned into `seg` between two record boundaries; the stream goes on with `rest` (R108 to R111). -/
structure RecordDecoded (seg : List Byte) (rest : Bits × Bool) (s t : State) : Prop where
  call : SameCall s t
  atRecord : AtRecord t
  hist : t.mem.hist = (s.mem.hist ++ seg).drop (s.mem.hlen + seg.length - s.params.h)
  snk : t.ports.snk = s.ports.snk ++ seg
  wire : wireBits t = rest

theorem decodedSegment_congr {s t : State} (hr : t.record = s.record) (hm : t.mem = s.mem) :
    decodedSegment t = decodedSegment s := by
  rw [decodedSegment, decodedSegment, hr, hm]

/-- D_WRITE_DECODED of a good decoder with a willing sink delivers the segment of the record just read (R111). -/
theorem step_of_segment {s : State} (hs : s.host = []) (hc : s.ctl = .dWriteDecoded) (hbuf : DecoderBuffer s)
    (hwilling : SinkWilling s) : ∃ t, step s = .next t ∧ RecordDecoded (decodedSegment s) (wireBits s) s t := by
  obtain ⟨t, ht, hdelivered⟩ := deliverSegment_delivered (decodedSegment s) hwilling
  obtain ⟨hparams, hwf, hhlen, hwlen, hwcap, hwc⟩ := hbuf
  obtain ⟨hpwf, hphist, -, hphlen, hpwlen, hpwcap⟩ := Memory.push_spec hwf hwlen (decodedSegment s) s.params.h
  have hfit := hparams.ranges.windowFits
  have hcall := hdelivered.call
  have hbuf : DecoderBuffer (t.setCtl .dReadRecord) := by
    unfold DecoderBuffer
    rw [State.setCtl_params, hcall.params, State.setCtl_mem, hdelivered.mem, hphlen]
    exact ⟨hparams, hpwf, by omega, hpwlen, hpwcap.trans hwcap, by omega⟩
  refine ⟨t.setCtl .dReadRecord, ?_, hcall.trans (setCtl_sameCall t _), ⟨hcall.host.trans hs, rfl, hbuf, hdelivered.willing⟩,
    ?_, hdelivered.snk, hdelivered.wire⟩
  · rw [step_of_instr hs (nextInstr_of_segment hc)]
    exact congrArg Res.outcome ht
  · rw [State.setCtl_mem, hdelivered.mem, hphist]

/-- A record read at a record boundary is delivered by the next step (R108, R111). -/
theorem AtRecord.decodes {s u : State} {r : RecordRegs} {n : Nat} (h : AtRecord s) (htook : Took n s u)
    (hread : readRecord s = .ok () ((u.setRecord r).setCtl .dWriteDecoded)) :
    ∃ d1 d2, step s = .next d1 ∧ step d1 = .next d2 ∧
      RecordDecoded (decodedSegment (s.setRecord r)) ((wireBits s).1.drop n, (wireBits s).2) s d2 := by
  have honly := htook.only
  have hcall : SameCall s ((u.setRecord r).setCtl .dWriteDecoded) :=
    honly.sameCall.trans ((setRecord_sameCall u r).trans (setCtl_sameCall _ _))
  have hbuf : DecoderBuffer ((u.setRecord r).setCtl .dWriteDecoded) := by
    have hb := h.buffer
    rw [DecoderBuffer, ← honly.params, ← honly.mem] at hb
    exact hb
  have hread : step s = .next ((u.setRecord r).setCtl .dWriteDecoded) := by
    rw [step_of_instr h.host (i := .dReadRecord) (by rw [nextInstr, h.ctl])]
    exact congrArg Res.outcome hread
  obtain ⟨d2, hd2, hdec⟩ := step_of_segment (hcall.host.trans h.host) rfl hbuf (honly.willing h.willing)
  have hseg : decodedSegment ((u.setRecord r).setCtl .dWriteDecoded) = decodedSegment (s.setRecord r) :=
    decodedSegment_congr rfl honly.mem
  refine ⟨_, d2, hread, hd2, hcall.trans hdec.call, hdec.atRecord, ?_, ?_, hdec.wire.trans htook.wire⟩
  · rw [hdec.hist, hseg, hcall.params, State.setCtl_mem, State.setRecord_mem, honly.mem]
  · rw [hdec.snk, hseg, State.setCtl_ports, State.setRecord_ports, honly.snk]

/-! ## The encoder's record undone -/

/-- A Literal's segment is its byte, a Reference's the history bytes it names (R109, R110). -/
theorem decodedSegment_setRecord (s : State) (r : RecordRegs) :
    decodedSegment (s.setRecord r) = if r.tag then [r.byte] else histSlice s.mem r.pos r.len := rfl

theorem wireBits_drop {s : State} {bits rest : Bits} {e : Bool} {n : Nat} (hw : wireBits s = (bits ++ rest, e))
    (hn : bits.length = n) : ((wireBits s).1.drop n, (wireBits s).2) = (rest, e) := by
  rw [hw, List.drop_left' hn]

/-- The bits of the record that the encoder finds make a decoder with the same parameters and history deliver the window bytes
the record covers (R98, R108 to R111). -/
theorem AtRecord.undoes {e d : State} {rest : Bits} {ended : Bool} (h : AtRecord d) (hbuf : EncoderBuffer e)
    (hpos : 0 < e.mem.wlen) (hhb : d.params.hb = e.params.hb) (hmlb : d.params.mlb = e.params.mlb)
    (hhist : d.mem.hist = e.mem.hist)
    (hw : wireBits d = (encode e.params.hb e.params.mlb (recordFound e) ++ rest, ended)) :
    ∃ d1 d2, step d = .next d1 ∧ step d1 = .next d2 ∧
      RecordDecoded (e.mem.win.take (recordLength e)) (rest, ended) d d2 := by
  obtain ⟨hparams, hwf, hhlen, hwlen, -⟩ := hbuf
  rw [← hhb, ← hmlb] at hw
  unfold recordFound at hw
  unfold recordLength
  by_cases hfound : 0 < (searchView e).bestLen
  case pos =>
    rw [if_pos hfound] at hw ⊢
    obtain ⟨hthr, hin, hle, hagrees⟩ := searchView_valid hwf hfound
    have hr := h.buffer.paramsOk.ranges
    have hsame : d.params.thr = e.params.thr ∧ d.params.h = e.params.h ∧ d.params.wc = e.params.wc := by
      rw [h.buffer.paramsOk.2, hparams.2, hhb, hmlb]
      exact ⟨rfl, rfl, rfl⟩
    have hlen : d.mem.hlen = e.mem.hlen := by
      rw [← Memory.hist_length h.buffer.wf, hhist, Memory.hist_length hwf]
    have hcapacity := hr.capacity
    have hwindow := hr.window
    obtain ⟨u, htook, hread⟩ := readRecord_reference (p := (searchView e).bestPos)
      (l := (searchView e).bestLen - e.params.thr) hr.hbWidth hr.mlbWidth (by omega) (by omega) (by omega)
      (by rw [hw, encode, List.cons_append, List.append_assoc])
    have hdec := h.decodes htook hread
    rw [wireBits_drop (n := 1 + d.params.hb + d.params.mlb) hw (Laws.EncodedLength.reference _ _ _ _), hsame.1,
      Nat.sub_add_cancel hthr, decodedSegment_setRecord, if_neg (by simp), histSlice, hhist] at hdec
    rw [← hagrees]
    exact hdec
  case neg =>
    rw [if_neg hfound] at hw ⊢
    obtain ⟨u, htook, hread⟩ := readRecord_literal hw
    have hdec := h.decodes htook hread
    rw [wireBits_drop (n := 9) hw (Laws.EncodedLength.literal _ _ _), decodedSegment_setRecord, if_pos rfl] at hdec
    obtain ⟨b, bs, hwin⟩ := Memory.exists_win_cons hwf hpos
    rw [hwin] at hdec ⊢
    exact hdec

/-- The stream grows by the record's bits (R98). -/
theorem RecordEmitted.outBits {s t : State} (h : RecordEmitted s t) :
    outBits t = outBits s ++ encode s.params.hb s.params.mlb (recordFound s) := by
  obtain ⟨u, w, hwrote, hadv, rfl⟩ := h.emitted
  have hout : Machine.outBits (afterRecord w) = Machine.outBits u := by
    rw [Machine.outBits, Machine.outBits, afterRecord_eq, State.setCtl_ports, State.setCtl_writer, hadv.only.snk,
      hadv.only.writer]
  rw [hout, hwrote.out, outBits_withRecord]

/-- The record's bytes leave the window for the history, which loses its oldest beyond the capacity (R82, R98). -/
theorem RecordEmitted.views {s t : State} (h : RecordEmitted s t) :
    t.mem.hist = (s.mem.hist ++ s.mem.win.take (recordLength s)).drop (s.mem.hlen + recordLength s - s.params.h) ∧
      t.mem.win = s.mem.win.drop (recordLength s) ++ (sourceComing s).1.take (recordLength s) ∧
      sourceComing t = ((sourceComing s).1.drop (recordLength s), (sourceComing s).2) := by
  obtain ⟨u, w, hwrote, hadv, rfl⟩ := h.emitted
  have hmem : u.mem = s.mem := hwrote.only.mem
  have hparams : u.params = s.params := hwrote.only.params
  have hcoming : sourceComing u = sourceComing s := hwrote.only.sourceComing
  rw [← hmem, ← hparams, ← hcoming]
  exact ⟨hadv.hist, hadv.win, hadv.coming⟩

theorem step_eEmitRecord {s : State} (hs : s.host = []) (hc : s.ctl = .eEmitRecord) : step s = (emitRecord s).outcome := by
  rw [step_of_instr hs (i := .eEmitRecord) (by rw [nextInstr, hc]), exec_eEmitRecord]

/-- Over a record undone the decoder's history is again the encoder's. -/
theorem RecordDecoded.hist_eq {e e' d d' : State} {rest : Bits × Bool}
    (h : RecordDecoded (e.mem.win.take (recordLength e)) rest d d') (he : RecordEmitted e e') (hbuf : EncoderBuffer e)
    (hpos : 0 < e.mem.wlen) (hd : DecoderBuffer d) (hhb : d.params.hb = e.params.hb) (hhist : d.mem.hist = e.mem.hist) :
    d'.mem.hist = e'.mem.hist := by
  have hcapacity : d.params.h = e.params.h := by rw [hd.paramsOk.2, hbuf.paramsOk.2, hhb]; rfl
  have hlen : d.mem.hlen = e.mem.hlen := by rw [← Memory.hist_length hd.wf, hhist, Memory.hist_length hbuf.wf]
  rw [h.hist, he.views.1, hhist, hlen, hcapacity, List.length_take, Memory.win_length hbuf.wf,
    Nat.min_eq_left (recordLength_bounds hbuf.wf hpos).2]

/-- Settles O54: the encoder's step wrote the record its search found, whose bits the decoder turns into the window bytes it
covers; both histories then take the same bytes. -/
theorem decoderUndoesOneRecord : Obligations.DecoderUndoesOneRecord := by
  intro e e' d bits rest ended hehost hectl hebuf hpos hestep hok hout hdhost hdctl hdbuf hhb hmlb hhist hwilling hw
  obtain ⟨t, ht, ⟨-, hemitted⟩ | ⟨herror, -⟩⟩ := (emitRecord_ends hebuf hpos).next
  case inr =>
    rw [step_eEmitRecord hehost hectl, ht] at hestep
    cases hestep
    exact absurd herror hok
  rw [step_eEmitRecord hehost hectl, ht] at hestep
  cases hestep
  obtain rfl : bits = encode e.params.hb e.params.mlb (recordFound e) :=
    List.append_cancel_left (hout.symm.trans hemitted.outBits)
  have hd : AtRecord d := ⟨hdhost, hdctl, hdbuf, hwilling⟩
  obtain ⟨d1, d2, hd1, hd2, hdec⟩ := hd.undoes hebuf hpos hhb hmlb hhist hw
  obtain ⟨h1, hm⟩ := recordLength_bounds hebuf.wf hpos
  refine ⟨d1, d2, recordLength e, hd1, hd2, hdec.atRecord.ctl, hdec.hist_eq hemitted hebuf hpos hdbuf hhb hhist, hdec.wire,
    h1, hm, hdec.snk, ?_⟩
  obtain ⟨-, hwin, -⟩ := hemitted.views
  rw [hwin]
  exact List.take_left' (by rw [List.length_drop, Memory.win_length hebuf.wf])

end Sys2Proof.Machine
end

section
/-! PROOFS. Runs of a call: how the host starts one, the encoder from its first record to DONE, and the decoder undoing its
records and its Ending (R22, R33, R98, R101, R108 to R114). -/

namespace Sys2Proof.Machine

/-! ## Runs -/

/-- `t` comes after `s` in some number of steps. -/
abbrev Reaches (s t : State) : Prop := Relation.ReflTransGen (fun a b => step a = .next b) s t

theorem Reaches.run {s t : State} (h : Reaches s t) : ∃ n, Host.Core.run core n s = .next t := by
  induction h using Relation.ReflTransGen.head_induction_on with
  | refl => exact ⟨0, rfl⟩
  | head hstep _ ih =>
    obtain ⟨n, hn⟩ := ih
    exact ⟨n + 1, (run_succ hstep n).trans hn⟩

/-! ## The host starts a call -/

/-- A call of the command in `c` at its first step, on a source that delivers `l` and a fresh sink (R22, R33, R138). -/
structure CallStarted (c : HostRegs) (l : List Byte) (t : State) : Prop where
  cfg : t.cfg = c
  host : t.host = []
  ctl : t.ctl = commandEntry c.cmd
  err : t.err = .none
  mem : t.mem = { buf := [], hlen := 0, wlen := 0, wcap := 0 }
  writer : t.writer = { wacc := [], wcnt := 0, bitsWritten := 0 }
  reader : t.reader = { racc := [], rcnt := 0, bitsRead := 0 }
  srcEof : t.srcEof = false
  ports : t.ports = { src := l.map .byte, snk := [], snkFlushes := 0, snkAns := [] }

theorem CallStarted.sourceComing {c : HostRegs} {l : List Byte} {t : State} (h : CallStarted c l t) :
    sourceComing t = (l, true) := by
  rw [Machine.sourceComing, h.srcEof, h.ports]
  exact srcComing_map_byte l

theorem CallStarted.willing {c : HostRegs} {l : List Byte} {t : State} (h : CallStarted c l t) : SinkWilling t := by
  rw [SinkWilling, h.ports]
  exact fun _ hmem => absurd hmem List.not_mem_nil

theorem CallStarted.snkFlushes {c : HostRegs} {l : List Byte} {t : State} (h : CallStarted c l t) :
    t.ports.snkFlushes = 0 := by rw [h.ports]

theorem callStarted_startCall {s : State} {l : List Byte} (hs : s.host = [])
    (hp : s.ports = { src := l.map .byte, snk := [], snkFlushes := 0, snkAns := [] }) : CallStarted s.cfg l (startCall s) :=
  ⟨rfl, hs, rfl, rfl, rfl, rfl, rfl, rfl, hp⟩

section
variable {s : State} {rest : List HostEvent} (hb : s.busy = false)
include hb

/-- A register write at rest (R24). -/
theorem step_of_hostWrite {e : HostEvent} {c : HostRegs} (hs : s.host = e :: rest)
    (he : hostStep e (s.setHost rest) = .next (hostWrite (s.setHost rest) c)) :
    ∃ t, step s = .next t ∧ t.busy = false ∧ t.host = rest ∧ t.cfg = c := by
  rw [step_of_host hs, he, hostWrite_of_rest (s := s.setHost rest) hb]
  exact ⟨_, rfl, hb, rfl, rfl⟩

/-- Fresh ports at rest (R33, R138). -/
theorem step_of_attach {src : List SrcAnswer} {ans : List SnkAnswer} (hs : s.host = .attach src ans :: rest) :
    ∃ t, step s = .next t ∧ t.busy = false ∧ t.host = rest ∧ t.cfg = s.cfg ∧
      t.ports = { src := src, snk := [], snkFlushes := 0, snkAns := ans } :=
  ⟨_, (step_of_host hs).trans (hostAttach_of_rest (s := s.setHost rest) hb src ans), hb, rfl, rfl, rfl⟩

/-- START at rest on fresh ports (R22, R33). -/
theorem step_of_start_callStarted {l : List Byte} (hs : s.host = [.start])
    (hp : s.ports = { src := l.map .byte, snk := [], snkFlushes := 0, snkAns := [] }) :
    ∃ t, step s = .next t ∧ CallStarted s.cfg l t := by
  rw [step_of_start hs, exec_commandInstr_of_rest (s := s.setHost []) hb]
  exact ⟨_, rfl, callStarted_startCall (s := (s.setHost []).setCfg s.cfg) rfl hp⟩

/-- The host writes the command, attaches the ports and starts the call (R20, R22). -/
theorem reaches_callStarted {c : Cmd} {l : List Byte} (hs : s.host = [.writeCmd c, .attach (l.map .byte) [], .start]) :
    ∃ t, Reaches s t ∧ CallStarted { s.cfg with cmd := c } l t := by
  obtain ⟨s1, hstep1, hb1, hs1, hc1⟩ := step_of_hostWrite hb hs rfl
  obtain ⟨s2, hstep2, hb2, hs2, hc2, hp2⟩ := step_of_attach hb1 hs1
  obtain ⟨t, hstep3, ht⟩ := step_of_start_callStarted hb2 hs2 hp2
  rw [hc2, hc1] at ht
  exact ⟨t, .head hstep1 (.head hstep2 (.single hstep3)), ht⟩

/-- The host writes the configuration, then starts the encoder's call (R20, R22). -/
theorem reaches_encodeStarted {hbits : BitVec 5} {mbits : BitVec 4} {sd : BitVec 32} {l : List Byte}
    (hs : s.host = [.writeCfgHb hbits, .writeCfgMlb mbits, .writeCfgSd sd, .writeCmd .encode, .attach (l.map .byte) [], .start]) :
    ∃ t, Reaches s t ∧ CallStarted { cfgHb := hbits, cfgMlb := mbits, cfgSd := sd, cmd := .encode } l t := by
  obtain ⟨s1, hstep1, hb1, hs1, hc1⟩ := step_of_hostWrite hb hs rfl
  obtain ⟨s2, hstep2, hb2, hs2, hc2⟩ := step_of_hostWrite hb1 hs1 rfl
  obtain ⟨s3, hstep3, hb3, hs3, hc3⟩ := step_of_hostWrite hb2 hs2 rfl
  obtain ⟨t, hreach, ht⟩ := reaches_callStarted hb3 hs3
  simp only [State.setHost_cfg, hc1, hc2, hc3] at ht
  exact ⟨t, .head hstep1 (.head hstep2 (.head hstep3 hreach)), ht⟩

end

/-! ## The encoder between its steps -/

theorem OnlyRefilled.snkFlushes {s t : State} (h : OnlyRefilled s t) : t.ports.snkFlushes = s.ports.snkFlushes := by rw [h]; rfl

theorem OnlyRefilled.sameCall {s t : State} (h : OnlyRefilled s t) : SameCall s t :=
  ⟨h.host, h.hdr, h.params, h.err, h.snkFlushes⟩

/-- An encoder between two steps, with nothing from the host, a willing sink and a source that ends. -/
structure Encoding (s : State) : Prop where
  host : s.host = []
  buffer : EncoderBuffer s
  writer : WriterOk s
  cursor : s.writer.wcnt = s.writer.bitsWritten % 8
  willing : SinkWilling s
  ends : (sourceComing s).2 = true

@[simp] theorem outBits_setCtl (s : State) (c : Ctl) : outBits (s.setCtl c) = outBits s := rfl
@[simp] theorem sourceComing_setCtl (s : State) (c : Ctl) : sourceComing (s.setCtl c) = sourceComing s := rfl

/-- The input bytes that no record covers yet: the window, then what the source has left (R38, R84). -/
def toEncode (s : State) : List Byte := s.mem.win ++ (sourceComing s).1

/-- Writing and a new STATE leave the encoder what it is. -/
theorem Encoding.wrote {bits : Bits} {s u : State} (h : Encoding s) (hu : Wrote bits s u) (hwilling : SinkWilling u) (c : Ctl) :
    Encoding (u.setCtl c) :=
  ⟨hu.only.host.trans h.host, h.buffer.transport hu.only.params hu.only.mem hu.only.srcEof, hu.writer h.writer,
    hu.cursor h.writer h.cursor, hwilling, (congrArg Prod.snd hu.only.sourceComing).trans h.ends⟩

theorem toEncode_wrote {bits : Bits} {s u : State} (hu : Wrote bits s u) (c : Ctl) : toEncode (u.setCtl c) = toEncode s := by
  rw [toEncode, toEncode, ← hu.only.sourceComing, ← hu.only.mem]; rfl

/-- A step that writes bits and enters the STATE `c`. -/
theorem Encoding.writes {bits : Bits} {s : State} {i : Instr} {c : Ctl} {x : Res Unit} (h : Encoding s) (hi : nextInstr s = i)
    (hexec : exec i s = (x.bind fun _ t => .ok () (t.setCtl c)).outcome) (hx : Writes bits s x) :
    ∃ u, step s = .next (u.setCtl c) ∧ Wrote bits s u ∧ Encoding (u.setCtl c) := by
  obtain ⟨_, u, hu, hwrote, hwilling⟩ := hx.willing h.willing
  exact ⟨u, by rw [step_of_instr h.host hi, hexec, hu]; rfl, hwrote, h.wrote hwrote hwilling c⟩

/-- With the window empty the source has ended and nothing is left (R27, R84). -/
theorem Encoding.toEncode_eq_nil {s : State} (h : Encoding s) (hempty : s.mem.wlen = 0) : toEncode s = [] := by
  obtain ⟨hparams, hwf, -, -, hcap, hfull⟩ := h.buffer
  have heof : s.srcEof = true := by
    by_contra hne
    have hwc := hfull (by simpa using hne)
    have hlow := hparams.ranges.windowLow
    omega
  have hwin : s.mem.win = [] := List.eq_nil_of_length_eq_zero ((Memory.win_length hwf).trans hempty)
  rw [toEncode, hwin, sourceComing, if_pos heof]; rfl

/-- An advance keeps the buffer the encoder's: its window shrinks only once the source has ended (R27, R82). -/
theorem Advanced.encoderBuffer {m : Nat} {s t : State} (h : Advanced m s t) (hbuf : EncoderBuffer s) (hm : m ≤ s.mem.wlen) :
    EncoderBuffer t := by
  obtain ⟨hparams, hwf, hhlen, hwlen, hcap, hfull⟩ := hbuf
  have htake : ((sourceComing s).1.take m).length ≤ m := List.length_take_le _ _
  have hw := h.wlen
  have hc := h.wcap
  unfold EncoderBuffer
  rw [h.only.params, h.hlen]
  refine ⟨hparams, h.form, Nat.min_le_left _ _, by omega, by omega, fun heof => ?_⟩
  rw [h.srcEof, Bool.or_eq_false_iff, decide_eq_false_iff_not, Nat.not_lt] at heof
  rw [List.length_take, Nat.min_eq_left heof.2] at hc
  have := hfull heof.1
  omega

theorem RecordEmitted.sameCall {s t : State} (h : RecordEmitted s t) : SameCall s t := by
  obtain ⟨u, w, hwrote, hadv, rfl⟩ := h.emitted
  have hrecord : SameCall s (withRecord s) := ⟨rfl, rfl, rfl, rfl, rfl⟩
  exact hrecord.trans (hwrote.only.sameCall.trans (hadv.only.sameCall.trans (setCtl_sameCall w _)))

theorem RecordEmitted.goesOn {s t : State} (h : RecordEmitted s t) : GoesOnByWindow t := by
  obtain ⟨u, w, -, -, rfl⟩ := h.emitted
  rfl

theorem RecordEmitted.encoding {s t : State} (h : RecordEmitted s t) (hs : Encoding s) (hpos : 0 < s.mem.wlen) :
    Encoding t := by
  obtain ⟨-, -, hcoming⟩ := h.views
  obtain ⟨u, w, hwrote, hadv, rfl⟩ := h.emitted
  have hbuf : EncoderBuffer u := hs.buffer.transport hwrote.only.params hwrote.only.mem hwrote.only.srcEof
  have hm : recordLength s ≤ u.mem.wlen := by
    rw [hwrote.only.mem]
    exact (recordLength_bounds hs.buffer.wf hpos).2
  have hwriter : (afterRecord w).writer = u.writer := hadv.only.writer
  refine ⟨h.sameCall.host.trans hs.host, hadv.encoderBuffer hbuf hm, ?_, ?_, h.willing hs.willing, ?_⟩
  · rw [WriterOk, hwriter]; exact hwrote.writer hs.writer
  · rw [hwriter]; exact hwrote.cursor hs.writer hs.cursor
  · rw [hcoming]; exact hs.ends

/-- The bytes a record covers are the first of those that no record covered before. -/
theorem RecordEmitted.toEncode_eq {s t : State} (h : RecordEmitted s t) :
    toEncode s = s.mem.win.take (recordLength s) ++ toEncode t := by
  obtain ⟨-, hwin, hcoming⟩ := h.views
  rw [toEncode, toEncode, hwin, hcoming, List.append_assoc, List.take_append_drop, ← List.append_assoc, List.take_append_drop]

/-- E_EMIT_RECORD of such an encoder emits its record (R98). -/
theorem Encoding.emits {s : State} (h : Encoding s) (hc : s.ctl = .eEmitRecord) (hpos : 0 < s.mem.wlen) :
    ∃ t, step s = .next t ∧ RecordEmitted s t := by
  obtain ⟨_, u, hu, -⟩ := (writeRecord_writes h.buffer).willing h.willing
  obtain ⟨t, ht, hemitted⟩ := emitRecord_of_written h.buffer hpos hu (.inr h.ends)
  exact ⟨t, by rw [step_eEmitRecord h.host hc, ht]; rfl, hemitted⟩

/-! ## The records, written and undone -/

/-- `bits` make every decoder with these parameters and this history, from one record boundary to another, deliver `data`. -/
def DecodesTo (p : Params) (hist : List Byte) (bits : Bits) (data : List Byte) : Prop :=
  ∀ (d : State) (rest : Bits) (ended : Bool), AtRecord d → d.params.hb = p.hb → d.params.mlb = p.mlb → d.mem.hist = hist →
    wireBits d = (bits ++ rest, ended) →
    ∃ t, Reaches d t ∧ SameCall d t ∧ AtRecord t ∧ t.ports.snk = d.ports.snk ++ data ∧ wireBits t = (rest, ended)

theorem decodesTo_nil (p : Params) (hist : List Byte) : DecodesTo p hist [] [] :=
  fun d _ _ h _ _ _ hw => ⟨d, .refl, .refl d, h, (List.append_nil _).symm, hw⟩

/-- A record, then what follows it. -/
theorem RecordEmitted.decodesTo {e e' : State} {bits : Bits} {data : List Byte} (h : RecordEmitted e e')
    (hbuf : EncoderBuffer e) (hpos : 0 < e.mem.wlen) (hrest : DecodesTo e'.params e'.mem.hist bits data) :
    DecodesTo e.params e.mem.hist (encode e.params.hb e.params.mlb (recordFound e) ++ bits)
      (e.mem.win.take (recordLength e) ++ data) := by
  intro d rest ended hd hhb hmlb hhist hw
  rw [List.append_assoc] at hw
  obtain ⟨d1, d2, hd1, hd2, hdec⟩ := hd.undoes hbuf hpos hhb hmlb hhist hw
  rw [h.sameCall.params] at hrest
  obtain ⟨t, hreach, hcall, ht, hsnk, hwire⟩ := hrest d2 rest ended hdec.atRecord (by rw [hdec.call.params, hhb])
    (by rw [hdec.call.params, hmlb]) (hdec.hist_eq h hbuf hpos hd.buffer hhb hhist) hdec.wire
  exact ⟨t, .head hd1 (.head hd2 hreach), hdec.call.trans hcall, ht,
    by rw [hsnk, hdec.snk, List.append_assoc], hwire⟩

/-- The records from here to the Ending: each takes at least one byte of the input, and a decoder delivers them all. -/
theorem Encoding.records {e : State} (h : Encoding e) (hgo : GoesOnByWindow e) :
    ∃ e' bits, Reaches e e' ∧ SameCall e e' ∧ Encoding e' ∧ e'.ctl = .eWriteEnding ∧ outBits e' = outBits e ++ bits ∧
      DecodesTo e.params e.mem.hist bits (toEncode e) := by
  induction hn : (toEncode e).length using Nat.strong_induction_on generalizing e with
  | _ n ih =>
    by_cases hpos : 0 < e.mem.wlen
    case neg =>
      rw [GoesOnByWindow, if_neg hpos] at hgo
      refine ⟨e, [], .refl, .refl e, h, hgo, (List.append_nil _).symm, ?_⟩
      rw [h.toEncode_eq_nil (by omega)]
      exact decodesTo_nil _ _
    case pos =>
      rw [GoesOnByWindow, if_pos hpos] at hgo
      obtain ⟨t, ht, hemitted⟩ := h.emits hgo hpos
      have hsplit := hemitted.toEncode_eq
      obtain ⟨h1, hm⟩ := recordLength_bounds h.buffer.wf hpos
      have hless : (toEncode t).length < n := by
        have hlen := congrArg List.length hsplit
        rw [List.length_append, List.length_take, Memory.win_length h.buffer.wf] at hlen
        omega
      obtain ⟨e', bits, hreach, hcall, he', hc', hout, hdec⟩ := ih _ hless (hemitted.encoding h hpos) hemitted.goesOn rfl
      refine ⟨e', encode e.params.hb e.params.mlb (recordFound e) ++ bits, .head ht hreach, hemitted.sameCall.trans hcall, he',
        hc', ?_, ?_⟩
      · rw [hout, hemitted.outBits, List.append_assoc]
      · rw [hsplit]
        exact hemitted.decodesTo h.buffer hpos hdec

/-! ## The ends of the two calls -/

/-- A flush, then DONE; the header, the error code and the sink's bytes stay (R102, R114). -/
structure Finished (s t : State) : Prop where
  ctl : t.ctl = .done
  hdr : t.hdr = s.hdr
  err : t.err = s.err
  snk : t.ports.snk = s.ports.snk
  snkFlushes : t.ports.snkFlushes = s.ports.snkFlushes + 1

theorem finishDecode_finished {s : State} (h : SinkWilling s) :
    ∃ t, finishDecode s = .ok () t ∧ Finished s t ∧ t.cleanEnd = s.cleanEnd := by
  obtain ⟨rest, htakes⟩ := h.takes
  exact ⟨_, finishDecode_takes htakes, ⟨rfl, rfl, rfl, rfl, rfl⟩, rfl⟩

/-- The bits a stream may end with behind its last record: none, or a SENTINEL and less than a byte in all (R61, R101). -/
def IsEnding (bits : Bits) : Prop := bits = [] ∨ ∃ tail, bits = true :: tail ∧ tail.length < 8

/-- The Ending behind `n` bits (R101). -/
def endingBits (n : Nat) : Bits := if n % 8 = 0 then [] else true :: List.replicate (7 - n % 8) false

theorem isEnding_endingBits (n : Nat) : IsEnding (endingBits n) := by
  unfold endingBits
  split
  · exact .inl rfl
  · exact .inr ⟨_, rfl, by rw [List.length_replicate]; omega⟩

/-- From E_WRITE_ENDING to DONE the encoder completes the last byte and flushes (R101, R102). -/
theorem Encoding.finishes {e : State} (h : Encoding e) (hc : e.ctl = .eWriteEnding) :
    ∃ t ending, Reaches e t ∧ IsEnding ending ∧ bytesBits t.ports.snk = outBits e ++ ending ∧ t.ctl = .done ∧ t.hdr = e.hdr ∧
      t.err = e.err ∧ t.ports.snkFlushes = e.ports.snkFlushes + 1 := by
  obtain ⟨u, hending, hwrote, hwritten⟩ := h.writes (by rw [nextInstr, hc]) (exec_eWriteEnding e)
    (writeEnding_ends h.writer h.cursor)
  have hcall := hwrote.only.sameCall
  obtain ⟨t, ht, hfin, -⟩ := finishDecode_finished hwritten.willing
  have hempty : u.writer.wacc = [] :=
    List.eq_nil_of_length_eq_zero ((hwrote.writer h.writer).1.symm.trans (hwrote.ended h.writer h.cursor))
  have hflush : step (u.setCtl .eFlush) = .next t := by
    rw [step_of_instr hwritten.host (i := .eFlush) rfl, exec_flush (.inl rfl), ht]; rfl
  refine ⟨t, endingBits e.writer.bitsWritten, .head hending (.single hflush), isEnding_endingBits _, ?_, hfin.ctl,
    hfin.hdr.trans hcall.hdr, hfin.err.trans hcall.err, hfin.snkFlushes.trans (congrArg (· + 1) hcall.snkFlushes)⟩
  rw [endingBits, ← hwrote.out, outBits, hempty, List.append_nil, hfin.snk]; rfl

/-- A decoder at a record boundary whose stream ends there or in an Ending ends cleanly (R108, R109, R112). -/
theorem AtRecord.finishes {d : State} {ending : Bits} (h : AtRecord d) (hw : wireBits d = (ending, true))
    (hending : IsEnding ending) : ∃ t, step d = .next t ∧ Finished d t ∧ t.cleanEnd = true := by
  have ends {u : State} (hcall : SameCall d u) (hsnk : u.ports.snk = d.ports.snk) (hwilling : SinkWilling u)
      (hread : readRecord d = endCleanly u) : ∃ t, step d = .next t ∧ Finished d t ∧ t.cleanEnd = true := by
    obtain ⟨t, ht, hfin, hclean⟩ := finishDecode_finished (s := u.setCleanEnd true) hwilling
    refine ⟨t, ?_, ⟨hfin.ctl, hfin.hdr.trans hcall.hdr, hfin.err.trans hcall.err, hfin.snk.trans hsnk,
      hfin.snkFlushes.trans (congrArg (· + 1) hcall.snkFlushes)⟩, hclean⟩
    rw [step_of_instr h.host (i := .dReadRecord) (by rw [nextInstr, h.ctl])]
    exact congrArg Res.outcome (hread.trans ht)
  obtain rfl | ⟨tail, rfl, htail⟩ := hending
  · obtain ⟨_, _, _, _, hw', -⟩ | ⟨u, -, hread, htook, -⟩ | ⟨_, hw', -⟩ := readBit_cases d
    · rw [hw] at hw'; cases hw'
    · exact ends htook.only.sameCall htook.only.snk (htook.only.willing h.willing) (by rw [readRecord, hread, Res.bind_ok])
    · rw [hw] at hw'; cases hw'
  · obtain ⟨t, ht, htook⟩ := readBit_cons hw
    have hwt : wireBits (t.setRecord { t.record with tag := true }) = (tail, true) := by
      rw [wireBits_setRecord, htook.wire, hw]; rfl
    obtain ⟨u, hu, hutook, -⟩ := readBits_eof (n := 8) rfl (s := t.setRecord { t.record with tag := true })
      (by rw [hwt]; exact htail) (by rw [hwt])
    have hcall : SameCall d u :=
      htook.only.sameCall.trans ((setRecord_sameCall t _).trans hutook.only.sameCall)
    refine ends hcall (hutook.only.snk.trans htook.only.snk) (hutook.only.willing (htook.only.willing h.willing)) ?_
    rw [readRecord_of_tag hw, acceptTag, ht, Res.bind_ok]
    simp only [if_true]
    rw [readLiteral, hu, Res.bind_ok]

end Sys2Proof.Machine
end

section
/-! PROOFS. The round trip (R103, R115, R116): each call from its start to its first record, and the two calls as wholes. -/

namespace Sys2Proof.Machine

/-! ## The decoder before its first record -/

/-- D_READ_HEADER on a whole header with a legal pair (R57, R105, R106). -/
theorem readHeader_legal {s : State} {hb : BitVec 5} {mlb : BitVec 4} {rest : Bits} {e : Bool}
    (hlegal : paramsLegal hb.toNat mlb.toNat = true)
    (hw : wireBits s = (fieldBits 5 hb.toNat ++ (fieldBits 4 mlb.toNat ++ rest), e)) :
    ∃ u, OnlyRead s u ∧ wireBits u = (rest, e) ∧ readHeader s =
      .ok () (((u.setHdr { hb := hb, mlb := mlb }).setParams (paramsOf hb.toNat mlb.toNat s.params.sd)).setCtl .dInit) := by
  obtain ⟨t, ht, honly, hwt⟩ := readBits_field (n := 5) rfl hb.isLt hw
  obtain ⟨u, hu, honlyu, hwu⟩ := readBits_field (n := 4) (s := t.setHdr { t.hdr with hb := hb }) rfl mlb.isLt
    (by rw [wireBits_setHdr]; exact hwt)
  have hparams : u.params = s.params := honlyu.params.trans honly.params
  have hhdr : u.hdr.hb = hb := by rw [honlyu.hdr]; rfl
  refine ⟨u.setHdr s.hdr, honly.thenHdr honlyu, hwu, ?_⟩
  rw [readHeader_eq_acceptHeaderElement hw, acceptHeaderElement, needField, ht, Res.bind_ok]
  dsimp only
  rw [needField, hu, Res.bind_ok]
  dsimp only
  rw [acceptHeader, State.setHdr_hdr, hhdr, if_pos hlegal]
  dsimp only
  rw [State.setHdr_params, hparams]
  rfl

/-- Below the capacity pushed bytes are appended to the history (R80). -/
theorem Memory.push_of_fits {m : Memory} {seg : List Byte} {h : Nat} (hfit : m.hlen + seg.length ≤ h) :
    m.push seg h = { m with buf := m.buf ++ seg, hlen := m.hlen + seg.length } := by
  rw [Memory.push, Memory.evict, Nat.sub_eq_zero_of_le hfit]; rfl

theorem snkWriteAll_singleton (b : Byte) (s : State) : snkWriteAll [b] s = snkWrite b s := by
  rw [snkWriteAll]
  cases snkWrite b s <;> rfl

/-- A decoded byte with a willing sink (R107). -/
theorem deliverByte_delivered (b : Byte) {s : State} (h : SinkWilling s) :
    ∃ t, deliverByte b s = .ok () t ∧ Delivered [b] s t := by
  obtain ⟨t, ht, hdelivered⟩ := snkWriteAll_delivered [b] h
  rw [snkWriteAll_singleton] at ht
  exact ⟨_, by rw [deliverByte, ht, Res.bind_ok], hdelivered⟩

/-- D_INIT's loop on whole priming bytes that fit the capacity (R107). -/
theorem readPriming_delivered (bs : List Byte) {s : State} {rest : Bits} {e : Bool} (hwilling : SinkWilling s)
    (hfit : s.mem.hlen + bs.length ≤ s.params.h) (hw : wireBits s = (bytesBits bs ++ rest, e)) :
    ∃ t, readPriming bs.length s = .ok () t ∧ SameCall s t ∧ SinkWilling t ∧
      t.mem = { s.mem with buf := s.mem.buf ++ bs, hlen := s.mem.hlen + bs.length } ∧
      t.ports.snk = s.ports.snk ++ bs ∧ wireBits t = (rest, e) := by
  induction bs generalizing s with
  | nil => exact ⟨s, rfl, .refl s, hwilling, by simp, by simp, by simpa using hw⟩
  | cons b bs ih =>
    rw [bytesBits_cons, List.append_assoc] at hw
    rw [List.length_cons] at hfit
    obtain ⟨t, ht, honly, hwt⟩ := readBits_field (n := 8) rfl b.isLt hw
    obtain ⟨u, hu, hdel⟩ := deliverByte_delivered b (honly.willing hwilling)
    have hread : readPriming (bs.length + 1) s = readPriming bs.length u := by
      rw [readPriming, readByte, needField, ht, Res.bind_ok]
      simp only [BitVec.ofNat_toNat, BitVec.setWidth_eq]
      rw [hu, Res.bind_ok]
    have hcall : SameCall s u := honly.sameCall.trans hdel.call
    have hmem : u.mem = { s.mem with buf := s.mem.buf ++ [b], hlen := s.mem.hlen + 1 } := by
      rw [hdel.mem, honly.mem, honly.params, Memory.push_of_fits (by rw [List.length_singleton]; omega)]; rfl
    obtain ⟨v, hv, hvcall, hvwilling, hvmem, hvsnk, hvwire⟩ := ih hdel.willing
      (by rw [hmem, hcall.params]; dsimp only; omega) (by rw [hdel.wire, hwt])
    refine ⟨v, hread.trans hv, hcall.trans hvcall, hvwilling, ?_, ?_, hvwire⟩
    · rw [hvmem, hmem]
      simp only [List.append_assoc, List.singleton_append, List.length_cons, Nat.add_assoc, Nat.add_comm 1]
    · rw [hvsnk, hdel.snk, honly.snk, List.append_assoc, List.singleton_append]

/-- D_INIT on an empty buffer and whole priming bytes comes to the first record boundary (R107). -/
theorem step_of_init {s : State} {bs : List Byte} {rest : Bits} {e : Bool} (hs : s.host = []) (hc : s.ctl = .dInit)
    (hp : ParamsOk s.params) (hfresh : FreshBuffer s) (hwilling : SinkWilling s) (hlen : bs.length = s.params.wc)
    (hw : wireBits s = (bytesBits bs ++ rest, e)) :
    ∃ t, step s = .next t ∧ SameCall s t ∧ AtRecord t ∧ t.mem.hist = bs ∧ t.ports.snk = s.ports.snk ++ bs ∧
      wireBits t = (rest, e) := by
  have hfit := hp.ranges.windowFits
  rw [FreshBuffer] at hfresh
  obtain ⟨t, ht, hcall, htwilling, hmem, hsnk, hwire⟩ := readPriming_delivered bs hwilling
    (by rw [hfresh, hlen]; dsimp only; omega) hw
  rw [hfresh] at hmem
  dsimp only at hmem
  rw [List.nil_append, Nat.zero_add, hlen] at hmem
  refine ⟨t.setCtl .dReadRecord, ?_, hcall.trans (setCtl_sameCall t _), ⟨hcall.host.trans hs, rfl, ?_, htwilling⟩, ?_,
    hsnk, hwire⟩
  · rw [step_of_instr hs (i := .dInit) (by rw [nextInstr, hc])]
    refine congrArg Res.outcome (?_ : (readPriming s.params.wc s).bind _ = .ok () (t.setCtl .dReadRecord))
    rw [← hlen, ht, Res.bind_ok]
  · unfold DecoderBuffer
    rw [State.setCtl_params, hcall.params, State.setCtl_mem, hmem]
    exact ⟨hp, hlen, hfit, rfl, rfl, le_rfl⟩
  · rw [State.setCtl_mem, hmem, Memory.hist, ← hlen, List.take_length]

/-- From the start of a call on a stream with a legal header and its priming bytes, the decoder comes to the first record
boundary with those bytes delivered (R105, R107). -/
theorem CallStarted.reachesRecords {d : State} {c : HostRegs} {l bs : List Byte} {hb : BitVec 5} {mlb : BitVec 4} {rest : Bits}
    (h : CallStarted c l d) (hc : c.cmd = .decode) (hlegal : paramsLegal hb.toNat mlb.toNat = true)
    (hlen : bs.length = windowOf hb.toNat mlb.toNat)
    (hl : bytesBits l = fieldBits 5 hb.toNat ++ (fieldBits 4 mlb.toNat ++ (bytesBits bs ++ rest))) :
    ∃ t, Reaches d t ∧ AtRecord t ∧ t.params.hb = hb.toNat ∧ t.params.mlb = mlb.toNat ∧ t.mem.hist = bs ∧
      wireBits t = (rest, true) ∧ t.ports.snk = bs ∧ t.hdr = { hb := hb, mlb := mlb } ∧ t.err = .none ∧
      t.ports.snkFlushes = 0 := by
  have hw : wireBits d = (bytesBits l, true) := by
    rw [wireBits_eq, h.sourceComing, h.reader]; rfl
  rw [hl] at hw
  obtain ⟨u, honly, hwu, hread⟩ := readHeader_legal hlegal hw
  have hctl : d.ctl = .dReadHeader := by rw [h.ctl, hc]; rfl
  obtain ⟨t, ht, hcall, hat, hhist, hsnk, hwire⟩ := step_of_init
    (s := ((u.setHdr { hb := hb, mlb := mlb }).setParams (paramsOf hb.toNat mlb.toNat d.params.sd)).setCtl .dInit)
    (honly.host.trans h.host) rfl (paramsOf_ok hlegal _) (honly.mem.trans h.mem) (honly.willing h.willing) hlen hwu
  have hheader := (step_of_instr h.host (i := .dReadHeader) (by rw [nextInstr, hctl])).trans (congrArg Res.outcome hread)
  refine ⟨t, .head hheader (.single ht), hat, by rw [hcall.params]; rfl, by rw [hcall.params]; rfl, hhist, hwire, ?_,
    hcall.hdr, hcall.err.trans (honly.err.trans h.err), hcall.snkFlushes.trans (honly.snkFlushes.trans h.snkFlushes)⟩
  rw [hsnk, State.setCtl_ports, State.setParams_ports, State.setHdr_ports, honly.snk, h.ports]; rfl

/-! ## The encoder before its first record -/

/-- E_SETUP of a call with a legal pair, on an input of at least twice the window: the whole input is history or still to
encode (R81, R95). -/
theorem CallStarted.setsUp {s : State} {c : HostRegs} {x : List Byte} {wc : Nat} (h : CallStarted c x s)
    (hc : c.cmd = .encode) (hlegal : paramsLegal c.cfgHb.toNat c.cfgMlb.toNat = true)
    (hwc : windowOf c.cfgHb.toNat c.cfgMlb.toNat = wc) (henough : 2 * wc ≤ x.length) :
    ∃ t, step s = .next t ∧ Encoding t ∧ t.ctl = .eWriteHeader ∧ SameCall (withParams s) t ∧ outBits t = [] ∧
      t.mem.hist = x.take wc ∧ toEncode t = x.drop wc := by
  have hparams : (withParams s).params = paramsOf c.cfgHb.toNat c.cfgMlb.toNat c.cfgSd.toNat := by rw [withParams, h.cfg]; rfl
  obtain ⟨t, ht, honly, hwf, hhist, hwin, hhlen, hwlen, hwcap, hcoming, -⟩ := setupEncoder_ok (s := s) (wc := wc)
    (by rw [h.cfg]; exact hlegal) (by rw [h.mem]) h.srcEof (by rw [hparams]; exact hwc) (by rw [h.sourceComing]; exact henough)
  rw [h.sourceComing] at hhist hwin hcoming
  have hwriter : t.writer = { wacc := [], wcnt := 0, bitsWritten := 0 } := honly.writer.trans h.writer
  have hbuffer : EncoderBuffer t := by
    have hok := paramsOf_ok hlegal c.cfgSd.toNat
    have hfit : windowOf c.cfgHb.toNat c.cfgMlb.toNat ≤ _ := hok.ranges.windowFits
    rw [EncoderBuffer, honly.params, hparams, hhlen, hwlen, hwcap]
    exact ⟨hok, hwf, hwc ▸ hfit, hwc.ge, rfl, fun _ => hwc.symm⟩
  refine ⟨t.setCtl .eWriteHeader, ?_, ⟨honly.host.trans h.host, hbuffer, ?_, ?_, ?_, ?_⟩, rfl,
    honly.sameCall.trans (setCtl_sameCall t _), ?_, hhist, ?_⟩
  · rw [step_of_instr h.host (i := .eSetup) (by rw [nextInstr, h.ctl, hc]; rfl), exec_eSetup, ht]; rfl
  · rw [WriterOk, State.setCtl_writer, hwriter]; exact ⟨rfl, Nat.zero_lt_succ 7⟩
  · rw [State.setCtl_writer, hwriter, Nat.zero_mod]
  · rw [SinkWilling, State.setCtl_ports, honly.snkAns]; exact h.willing
  · rw [sourceComing_setCtl, hcoming]
  · rw [outBits_setCtl, outBits, hwriter, honly.snk, withParams, State.setParams_ports,
      State.setHdr_ports, h.ports]; rfl
  · rw [toEncode, sourceComing_setCtl, hcoming, State.setCtl_mem, hwin, Nat.two_mul, ← List.drop_drop, List.take_append_drop]

/-- E_WRITE_HEADER and E_PRIME_HISTORY write the two header fields and the history (R96, R97). -/
theorem Encoding.primes {s : State} (h : Encoding s) (hc : s.ctl = .eWriteHeader) :
    ∃ e, Reaches s e ∧ Encoding e ∧ GoesOnByWindow e ∧ SameCall s e ∧ e.mem = s.mem ∧ toEncode e = toEncode s ∧
      outBits e = outBits s ++ (fieldBits 5 s.params.hb ++ (fieldBits 4 s.params.mlb ++ bytesBits s.mem.hist)) := by
  obtain ⟨u, hstep, hu, hheader⟩ := h.writes (by rw [nextInstr, hc]) (exec_eWriteHeader s) (writeHeaderFields_ends _ _ _)
  have hmem : (u.setCtl .ePrimeHistory).mem = s.mem := hu.only.mem
  have hwrites := writeBytes_ends s.mem.hist (u.setCtl .ePrimeHistory)
  have hprime := exec_ePrimeHistory (u.setCtl .ePrimeHistory)
  rw [hmem, hwrites.bind_congr fun v hv => by rw [afterRecord_eq, hv.only.mem]] at hprime
  obtain ⟨v, hstep', hv, hprimed⟩ := hheader.writes rfl hprime hwrites
  refine ⟨_, .head hstep (.single hstep'), hprimed, ?_,
    hu.only.sameCall.trans ((setCtl_sameCall u _).trans (hv.only.sameCall.trans (setCtl_sameCall v _))),
    hv.only.mem.trans hmem, (toEncode_wrote hv _).trans (toEncode_wrote hu _), ?_⟩
  · rw [GoesOnByWindow, State.setCtl_ctl, State.setCtl_mem, State.setCtl_mem, hv.only.mem, State.setCtl_mem]
  · rw [outBits_setCtl, hv.out, outBits_setCtl, hu.out, List.append_assoc, List.append_assoc]

/-! ## The round trip -/

/-- `l` is a stream for the input `x` (R57 to R61): the header, the first bytes of `x`, records that every decoder with these
parameters turns into the other bytes, and an Ending. -/
def IsStreamOf (hb : BitVec 5) (mlb : BitVec 4) (sd : BitVec 32) (x l : List Byte) : Prop :=
  ∃ bits ending, DecodesTo (paramsOf hb.toNat mlb.toNat sd.toNat) (x.take (windowOf hb.toNat mlb.toNat)) bits
      (x.drop (windowOf hb.toNat mlb.toNat)) ∧ IsEnding ending ∧
    bytesBits l = fieldBits 5 hb.toNat ++ (fieldBits 4 mlb.toNat ++
      (bytesBits (x.take (windowOf hb.toNat mlb.toNat)) ++ (bits ++ ending)))

section
variable {c : HostRegs} {s : State} {x l : List Byte} {hb : BitVec 5} {mlb : BitVec 4} {sd : BitVec 32}
  (hlegal : paramsLegal hb.toNat mlb.toNat = true) (henough : 2 * windowOf hb.toNat mlb.toNat ≤ x.length)
include hlegal henough

/-- ENCODE writes a stream for its input (R95 to R102). -/
theorem CallStarted.encodes (h : CallStarted { cfgHb := hb, cfgMlb := mlb, cfgSd := sd, cmd := .encode } x s) :
    ∃ t, Reaches s t ∧ t.ctl = .done ∧ t.err = .none ∧ t.hdr = { hb := hb, mlb := mlb } ∧ t.ports.snkFlushes = 1 ∧
      IsStreamOf hb mlb sd x t.ports.snk := by
  obtain ⟨s1, hstep1, henc1, hctl1, hcall1, hout1, hhist1, hleft1⟩ := h.setsUp rfl hlegal rfl henough
  obtain ⟨s2, hreach2, henc2, hgo2, hcall2, hmem2, hleft2, hout2⟩ := henc1.primes hctl1
  obtain ⟨s3, bits, hreach3, hcall3, henc3, hctl3, hout3, hdecodes⟩ := henc2.records hgo2
  obtain ⟨t, ending, hreach4, hending, hsnk, hdone, hhdr, herr, hflushes⟩ := henc3.finishes hctl3
  have hcall := hcall1.trans (hcall2.trans hcall3)
  have hparams := hcall1.params
  rw [withParams, h.cfg] at hcall hparams
  rw [hcall2.params, hparams, hmem2, hhist1, hleft2, hleft1] at hdecodes
  rw [hout3, hout2, hout1, hparams, hhist1, List.nil_append] at hsnk
  refine ⟨t, .head hstep1 (hreach2.trans (hreach3.trans hreach4)), hdone, herr.trans (hcall.err.trans h.err),
    hhdr.trans hcall.hdr, hflushes.trans (congrArg (· + 1) (hcall.snkFlushes.trans h.snkFlushes)), bits, ending, hdecodes,
    hending, ?_⟩
  rw [hsnk]
  simp only [List.append_assoc]
  rfl

/-- DECODE turns a stream for an input into that input (R105 to R114). -/
theorem CallStarted.decodes (h : CallStarted c l s) (hc : c.cmd = .decode) (hl : IsStreamOf hb mlb sd x l) :
    ∃ t, Reaches s t ∧ t.ctl = .done ∧ t.err = .none ∧ t.cleanEnd = true ∧ t.ports.snk = x ∧
      t.hdr = { hb := hb, mlb := mlb } ∧ t.ports.snkFlushes = 1 := by
  obtain ⟨bits, ending, hdecodes, hending, hbits⟩ := hl
  obtain ⟨s1, hreach1, hat1, hhb, hmlb, hhist, hwire1, hsnk1, hhdr, herr, hflushes⟩ :=
    h.reachesRecords hc hlegal (by rw [List.length_take]; omega) hbits
  obtain ⟨s2, hreach2, hcall, hat2, hsnk2, hwire2⟩ := hdecodes s1 ending true hat1 hhb hmlb hhist hwire1
  obtain ⟨t, hstep, hfin, hclean⟩ := hat2.finishes hwire2 hending
  refine ⟨t, hreach1.trans (hreach2.trans (.single hstep)), hfin.ctl, hfin.err.trans (hcall.err.trans herr), hclean, ?_,
    hfin.hdr.trans (hcall.hdr.trans hhdr), hfin.snkFlushes.trans (congrArg (· + 1) (hcall.snkFlushes.trans hflushes))⟩
  rw [hfin.snk, hsnk2, hsnk1, List.take_append_drop]

end

/-- Settles O55: ENCODE writes a stream for its input, DECODE turns any such stream back. -/
theorem decodeOfEncodeIsTheInput : Obligations.DecodeOfEncodeIsTheInput := by
  intro hb mlb sd x s h3 h2 hlt henough hrest hhost
  have hlegal : paramsLegal hb.toNat mlb.toNat = true := (paramsLegal_cfg_iff ⟨hb, mlb, sd, .encode⟩).2 ⟨h3, h2, hlt⟩
  obtain ⟨s0, hreach0, hstarted⟩ := reaches_encodeStarted hrest hhost
  obtain ⟨t, hreach, hctl, herr, hhdr, hflushes, hstream⟩ := hstarted.encodes hlegal henough
  obtain ⟨n, hn⟩ := Reaches.run (hreach0.trans hreach)
  refine ⟨n, t, hn, hctl, herr, hhdr, hflushes, fun d hdrest hdhost => ?_⟩
  obtain ⟨d0, hdreach0, hdstarted⟩ := reaches_callStarted hdrest hdhost
  obtain ⟨u, hdreach, hu⟩ := hdstarted.decodes hlegal henough rfl hstream
  obtain ⟨m, hm⟩ := Reaches.run (hdreach0.trans hdreach)
  exact ⟨m, u, hm, hu⟩

end Sys2Proof.Machine
end

section
/-! PROOFS. The decoder's instructions one by one (R105 to R112, R114): the header and the two fields of a reference, the clean
end, the priming bytes and the decoded segment. -/

namespace Sys2Proof.Machine

/-! ## The instructions as outcomes of their operations -/

theorem exec_dReadHeader (s : State) : exec .dReadHeader s = (readHeader s).outcome := rfl

theorem exec_dInit (s : State) :
    exec .dInit s = ((readPriming s.params.wc s).bind fun _ t => .ok () (t.setCtl .dReadRecord)).outcome := rfl

theorem exec_dReadRecord (s : State) : exec .dReadRecord s = (readRecord s).outcome := rfl

theorem exec_readLiteral (s : State) : exec .readLiteral s = (readLiteral s).outcome := rfl

theorem exec_readReference (s : State) : exec .readReference s = (readReference s).outcome := rfl

theorem exec_dWriteDecoded (seg : List Byte) (s : State) : exec (.dWriteDecoded seg) s = (deliverSegment seg s).outcome := rfl

/-! ## A field the decoder cannot do without -/

/-- The error where the bits give out before a needed field is whole: the source ended, or it failed (R113, R120). -/
def shortError (ended : Bool) : ErrorClass := if ended then .truncatedInput else .ioError

/-- A needed field whose bits are there (R77). -/
theorem needField_val {n : Nat} {s : State} (hn : fieldWidthOk n = true) (henough : n ≤ (wireBits s).1.length) :
    ∃ t, (∀ use, needField (readBits n s) use = use (fieldVal ((wireBits s).1.take n)) t) ∧ Took n s t := by
  obtain ⟨t, ht, htook⟩ := readBits_val hn henough
  exact ⟨t, fun use => by rw [needField, ht, Res.bind_ok], htook⟩

/-- A needed field whose bits are not all there (R113, R120): the bits that came are taken. -/
theorem needField_short {n : Nat} {s : State} (hn : fieldWidthOk n = true) (hshort : (wireBits s).1.length < n) :
    ∃ u, (∀ use, needField (readBits n s) use = .raised (raiseError (shortError (wireBits s).2) u)) ∧ OnlyRead s u ∧
      u.reader.bitsRead = s.reader.bitsRead + (wireBits s).1.length := by
  cases hend : (wireBits s).2 with
  | true =>
    obtain ⟨u, hu, htook, -⟩ := readBits_eof hn hshort hend
    exact ⟨u, fun use => by rw [needField, hu]; rfl, htook.only, htook.count⟩
  | false =>
    obtain ⟨u, hu, honly, hcount⟩ := readBits_fail hn hshort hend
    exact ⟨u, fun use => by rw [needField, hu]; rfl, honly, hcount⟩

/-! ## D_READ_HEADER -/

/-- With both fields there D_READ_HEADER stands before its checks with the pair in HDR_HB, HDR_MLB (R105). -/
theorem readHeader_whole {s : State} (henough : 9 ≤ (wireBits s).1.length) :
    ∃ u, Took 9 s u ∧ readHeader s = acceptHeader (u.setHdr
      { hb := BitVec.ofNat 5 (fieldVal ((wireBits s).1.take 5))
        mlb := BitVec.ofNat 4 (fieldVal (((wireBits s).1.drop 5).take 4)) }) := by
  obtain ⟨t, ht, htook⟩ := needField_val (n := 5) (s := s) rfl (by omega)
  obtain ⟨u, hu, hutook⟩ := needField_val (n := 4)
    (s := t.setHdr { t.hdr with hb := BitVec.ofNat 5 (fieldVal ((wireBits s).1.take 5)) }) rfl
    (by rw [wireBits_setHdr, htook.wire, List.length_drop]; omega)
  refine ⟨_, htook.thenHdr hutook, ?_⟩
  rw [readHeader, ht, hu, hutook.only.hdr, wireBits_setHdr, htook.wire]
  rfl

/-- With a field cut off D_READ_HEADER raises, the bits that came taken and HDR_HB written where its 5 bits came (R105, R113,
R120). -/
theorem readHeader_short {s : State} (hshort : (wireBits s).1.length < 9) :
    ∃ u, readHeader s = .raised (raiseError (shortError (wireBits s).2) u) ∧ OnlyRead s (u.setHdr s.hdr) ∧
      u.reader.bitsRead = s.reader.bitsRead + (wireBits s).1.length ∧
      u.hdr = if 5 ≤ (wireBits s).1.length then { s.hdr with hb := BitVec.ofNat 5 (fieldVal ((wireBits s).1.take 5)) }
        else s.hdr := by
  by_cases hfirst : 5 ≤ (wireBits s).1.length
  case neg =>
    obtain ⟨u, hu, honly, hcount⟩ := needField_short (n := 5) (s := s) rfl (Nat.lt_of_not_le hfirst)
    refine ⟨u, hu _, (OnlyRead.refl s).thenHdr (x := s.hdr) honly, hcount, by rw [if_neg hfirst, honly.hdr]⟩
  case pos =>
    obtain ⟨t, ht, htook⟩ := needField_val (n := 5) (s := s) rfl hfirst
    obtain ⟨u, hu, honly, hcount⟩ := needField_short (n := 4)
      (s := t.setHdr { t.hdr with hb := BitVec.ofNat 5 (fieldVal ((wireBits s).1.take 5)) }) rfl
      (by rw [wireBits_setHdr, htook.wire, List.length_drop]; omega)
    refine ⟨u, ?_, htook.only.thenHdr honly, ?_, ?_⟩
    · rw [readHeader, ht, hu, wireBits_setHdr, htook.wire]
    · rw [hcount, State.setHdr_reader, htook.count, wireBits_setHdr, htook.wire, List.length_drop]
      omega
    · rw [if_pos hfirst, honly.hdr, State.setHdr_hdr, htook.only.hdr]

/-- The checks on fields of 5 and 4 bits (R105, R118). -/
theorem paramsLegal_fields_iff {a b : Nat} (ha : a < 2 ^ 5) (hb : b < 2 ^ 4) :
    paramsLegal a b = true ↔ 3 ≤ a ∧ 2 ≤ b ∧ b < a := by
  rw [paramsLegal_iff]
  omega

/-- The header's checks and constants, said of the values of the two fields (R105, R106). -/
theorem acceptHeader_setHdr {a b : Nat} (ha : a < 2 ^ 5) (hb : b < 2 ^ 4) (u : State) :
    acceptHeader (u.setHdr { hb := BitVec.ofNat 5 a, mlb := BitVec.ofNat 4 b }) =
      if paramsLegal a b then .ok () (((u.setHdr { hb := BitVec.ofNat 5 a, mlb := BitVec.ofNat 4 b }).setParams
        (paramsOf a b u.params.sd)).setCtl .dInit)
      else .raised (raiseError .configurationError (u.setHdr { hb := BitVec.ofNat 5 a, mlb := BitVec.ofNat 4 b })) := by
  simp only [acceptHeader, State.setHdr_hdr, State.setHdr_params, BitVec.toNat_ofNat, Nat.mod_eq_of_lt ha, Nat.mod_eq_of_lt hb,
    raising_eq]

/-- Settles O45: D_READ_HEADER with both fields there is its checks on them; with fewer bits the field that gives out raises. -/
theorem readHeaderChecksAfterBothFields : Obligations.ReadHeaderChecksAfterBothFields := by
  intro s a b hdr thr
  refine ⟨fun henough => ?whole, fun hshort => ?short⟩
  case whole =>
    obtain ⟨u, htook, hread⟩ := readHeader_whole henough
    have ha : a < 2 ^ 5 := fieldVal_take_lt (by omega)
    have hb : b < 2 ^ 4 := fieldVal_take_lt (by rw [List.length_drop]; omega)
    have hlegal := paramsLegal_fields_iff ha hb
    rw [acceptHeader_setHdr ha hb] at hread
    refine ⟨u, htook, fun h3 h2 hlt => ?_, fun hbad => ⟨_, ?_, raiseError_from _ _⟩⟩
    · rw [exec_dReadHeader, hread, if_pos (hlegal.2 ⟨h3, h2, hlt⟩), htook.only.params]
      rfl
    · rw [exec_dReadHeader, hread, if_neg fun h => by have := hlegal.1 h; omega]
      rfl
  case short =>
    obtain ⟨u, hu, hrest⟩ := readHeader_short hshort
    exact ⟨u, _, by rw [exec_dReadHeader, hu]; rfl, raiseError_from _ _, hrest⟩

/-! ## READ_REFERENCE -/

section
variable {s : State} (hhb : fieldWidthOk s.params.hb = true) (hmlb : fieldWidthOk s.params.mlb = true)
include hhb hmlb

/-- With both fields there READ_REFERENCE stands before the bound check with the pair in REC_POS, REC_LEN (R110). -/
theorem readReference_whole (henough : s.params.hb + s.params.mlb ≤ (wireBits s).1.length) :
    ∃ u, Took (s.params.hb + s.params.mlb) s u ∧ readReference s = acceptReference (u.setRecord
      { s.record with
        pos := fieldVal ((wireBits s).1.take s.params.hb)
        len := fieldVal (((wireBits s).1.drop s.params.hb).take s.params.mlb) + s.params.thr }) := by
  obtain ⟨t, ht, htook⟩ := needField_val (s := s) hhb (by omega)
  have hparams := htook.only.params
  obtain ⟨u, hu, hutook⟩ := needField_val (n := s.params.mlb)
    (s := t.setRecord { t.record with pos := fieldVal ((wireBits s).1.take s.params.hb) }) hmlb
    (by rw [wireBits_setRecord, htook.wire, List.length_drop]; omega)
  refine ⟨_, htook.thenRecord hutook, ?_⟩
  rw [readReference, ht, hparams, hu, hutook.only.record, hutook.only.params, State.setRecord_params, hparams,
    State.setRecord_record, htook.only.record, wireBits_setRecord, htook.wire]
  rfl

/-- With a field cut off READ_REFERENCE raises, the bits that came taken and no register but REC_POS written (R110, R113, R120). -/
theorem readReference_short (hshort : (wireBits s).1.length < s.params.hb + s.params.mlb) :
    ∃ u, readReference s = .raised (raiseError (shortError (wireBits s).2) u) ∧ OnlyRead s (u.setRecord s.record) ∧
      u.reader.bitsRead = s.reader.bitsRead + (wireBits s).1.length ∧ ∃ p, u.record = { s.record with pos := p } := by
  by_cases hfirst : s.params.hb ≤ (wireBits s).1.length
  case neg =>
    obtain ⟨u, hu, honly, hcount⟩ := needField_short (s := s) hhb (Nat.lt_of_not_le hfirst)
    exact ⟨u, hu _, (OnlyRead.refl s).thenRecord (x := s.record) honly, hcount, s.record.pos, honly.record⟩
  case pos =>
    obtain ⟨t, ht, htook⟩ := needField_val (s := s) hhb hfirst
    obtain ⟨u, hu, honly, hcount⟩ := needField_short (n := s.params.mlb)
      (s := t.setRecord { t.record with pos := fieldVal ((wireBits s).1.take s.params.hb) }) hmlb
      (by rw [wireBits_setRecord, htook.wire, List.length_drop]; omega)
    refine ⟨u, ?_, htook.only.thenRecord honly, ?_, fieldVal ((wireBits s).1.take s.params.hb), ?_⟩
    · rw [readReference, ht, htook.only.params, hu, wireBits_setRecord, htook.wire]
    · rw [hcount, State.setRecord_reader, htook.count, wireBits_setRecord, htook.wire, List.length_drop]
      omega
    · rw [honly.record, State.setRecord_record, htook.only.record]

end

/-- The bound check on a pair just written (R110). -/
theorem acceptReference_setRecord (u : State) (r : RecordRegs) : acceptReference (u.setRecord r) =
    if u.mem.hlen < r.pos + r.len then .raised (raiseError .corruptStream (u.setRecord r))
    else .ok () ((u.setRecord r).setCtl .dWriteDecoded) := rfl

/-- Settles O49: READ_REFERENCE with both fields there is its bound check; with fewer bits the field that gives out raises. -/
theorem readReferenceChecksTheBound : Obligations.ReadReferenceChecksTheBound := by
  intro s hb1 hb32 hm1 hm32
  have hhb := fieldWidthOk_of_bounds hb1 hb32
  have hmlb := fieldWidthOk_of_bounds hm1 hm32
  refine ⟨?whole, fun hshort => ?short⟩
  case whole =>
    intro henough p l
    obtain ⟨u, htook, hread⟩ := readReference_whole hhb hmlb henough
    rw [acceptReference_setRecord, htook.only.mem] at hread
    refine ⟨u, htook, fun hin => ?_, fun hout => ⟨_, ?_, raiseError_from _ _⟩⟩
    · rw [exec_readReference, hread, if_neg (Nat.not_lt.2 hin)]
      rfl
    · rw [exec_readReference, hread, if_pos hout]
      rfl
  case short =>
    obtain ⟨u, hu, honly, hcount, p, hrecord⟩ := readReference_short hhb hmlb hshort
    exact ⟨u, _, by rw [exec_readReference, hu]; rfl, raiseError_from _ _, honly, hcount, by rw [hrecord], by rw [hrecord],
      by rw [hrecord]⟩

/-! ## The clean end -/

theorem endCleanly_willing {u : State} (h : SinkWilling u) : ∃ t, endCleanly u = .ok () t ∧ CleanDone u t := by
  obtain ⟨rest, htakes⟩ := h.takes
  exact ⟨_, finishDecode_takes (s := u.setCleanEnd true) htakes, rest, discard_same _⟩

/-- A clean end whose flush fails is an error after all (R114, R120). -/
theorem endCleanly_fails {u : State} {rest : List SnkAnswer} (h : u.ports.snkAns = .fail :: rest) :
    endCleanly u = .raised (raiseError .ioError ((u.setCleanEnd true).setPorts
      { u.ports with snkFlushes := u.ports.snkFlushes + 1, snkAns := rest })) := by
  rw [endCleanly, finishDecode, snkFlush_fails (s := u.setCleanEnd true) h]
  rfl

/-! ## READ_LITERAL -/

theorem readLiteral_whole {s : State} (henough : 8 ≤ (wireBits s).1.length) :
    ∃ u, Took 8 s u ∧ readLiteral s =
      .ok () ((u.setRecord { s.record with byte := bitsByte ((wireBits s).1.take 8) }).setCtl .dWriteDecoded) := by
  obtain ⟨u, hu, htook⟩ := readBits_val (n := 8) rfl henough
  refine ⟨u, htook, ?_⟩
  rw [readLiteral, hu, ← htook.only.record]
  rfl

/-- Where the source ends inside the payload its bits are taken and dropped (R109, R112). -/
theorem readLiteral_ended {s : State} (hshort : (wireBits s).1.length < 8) (hend : (wireBits s).2 = true) :
    ∃ u, Took (wireBits s).1.length s u ∧ u.srcEof = true ∧ readLiteral s = endCleanly u := by
  obtain ⟨u, hu, htook, heof⟩ := readBits_eof (n := 8) rfl hshort hend
  exact ⟨u, htook, heof, by rw [readLiteral, hu, Res.bind_ok]⟩

/-- Settles O48: the three outcomes of the payload's read; the end of the source is a clean end, whose flush the sink takes or
fails. -/
theorem readLiteralOrEndCleanly : Obligations.ReadLiteralOrEndCleanly := by
  intro s
  refine ⟨fun henough => ?whole, fun hshort hend => ?ended, fun hshort hfails => ?failed⟩
  case whole =>
    obtain ⟨u, htook, hread⟩ := readLiteral_whole henough
    exact ⟨u, _, htook, byteBits_bitsByte (List.length_take_of_le henough), by rw [exec_readLiteral, hread]; rfl⟩
  case ended =>
    obtain ⟨u, htook, heof, hread⟩ := readLiteral_ended hshort hend
    refine ⟨u, htook, heof, fun hwilling => ?_, fun rest hfail => ?_⟩
    · obtain ⟨t, ht, hdone⟩ := endCleanly_willing (htook.only.willing hwilling)
      exact ⟨t, by rw [exec_readLiteral, hread, ht]; rfl, hdone⟩
    · have hfails := endCleanly_fails (htook.only.snkAns.trans hfail)
      exact ⟨_, congrArg Res.outcome (hread.trans hfails), rfl, rfl, htook.only.snk⟩
  case failed =>
    obtain ⟨u, hu, honly, -⟩ := readBits_fail (n := 8) rfl hshort hfails
    exact ⟨u, _, honly, by rw [exec_readLiteral, readLiteral, hu]; rfl, raiseError_from _ _⟩

/-! ## D_READ_RECORD -/

/-- D_READ_RECORD where no bit is left at the end of the source (R108, R112). -/
theorem readRecord_ended {s : State} (hw : wireBits s = ([], true)) : ∃ u, Took 0 s u ∧ readRecord s = endCleanly u := by
  obtain ⟨_, _, _, _, hw', -⟩ | ⟨u, -, hread, htook, -⟩ | ⟨_, hw', -⟩ := readBit_cases s
  · rw [hw] at hw'; cases hw'
  · exact ⟨u, htook, by rw [readRecord, hread, Res.bind_ok]⟩
  · rw [hw] at hw'; cases hw'

/-- D_READ_RECORD where the source fails before the tag (R108, R120). -/
theorem readRecord_failed {s : State} (hw : wireBits s = ([], false)) :
    ∃ u, OnlyRead s u ∧ readRecord s = .raised (raiseError .ioError u) := by
  obtain ⟨_, _, _, _, hw', -⟩ | ⟨_, hw', -⟩ | ⟨u, -, hread, honly, -⟩ := readBit_cases s
  · rw [hw] at hw'; cases hw'
  · rw [hw] at hw'; cases hw'
  · exact ⟨u, honly, by rw [readRecord, hread, Res.bind_raised]⟩

/-- D_READ_RECORD at a tag: it is taken into REC_TAG and decides how the record is read on (R108). -/
theorem readRecord_tagged {tag : Bool} {s : State} {bs : Bits} {e : Bool} (hw : wireBits s = (tag :: bs, e)) :
    ∃ u, Took 1 s u ∧
      readRecord s = (if tag then readLiteral else readReference) (u.setRecord { s.record with tag := tag }) := by
  obtain ⟨u, hread, htook⟩ := readBit_cons hw
  refine ⟨u, htook, ?_⟩
  rw [readRecord_of_tag hw, acceptTag, hread, ← htook.only.record]
  rfl

/-- Settles O47: the first bit, or its absence, says which of the five ways D_READ_RECORD takes; a whole record by its own law. -/
theorem readRecordDispatchesOnTheTag : Obligations.ReadRecordDispatchesOnTheTag := by
  intro s
  refine ⟨fun hw hwilling => ?ended, fun rest hw hfail => ?flushFails, fun bs e hw => ?literalTag, fun bs e hw => ?referenceTag,
    fun x bs e hw => ?literal, fun p l bs z hb1 hb32 hm1 hm32 hp hl hin hw => ?reference, fun hw => ?failed⟩
  case ended =>
    obtain ⟨u, htook, hread⟩ := readRecord_ended hw
    obtain ⟨t, ht, hdone⟩ := endCleanly_willing (htook.only.willing hwilling)
    exact ⟨u, t, htook, by rw [exec_dReadRecord, hread, ht]; rfl, hdone⟩
  case flushFails =>
    obtain ⟨u, htook, hread⟩ := readRecord_ended hw
    have hfails := endCleanly_fails (htook.only.snkAns.trans hfail)
    exact ⟨_, congrArg Res.outcome (hread.trans hfails), rfl, rfl, htook.only.snk, htook.count⟩
  case literalTag =>
    obtain ⟨u, htook, hread⟩ := readRecord_tagged hw
    exact ⟨u, htook, congrArg Res.outcome hread⟩
  case referenceTag =>
    obtain ⟨u, htook, hread⟩ := readRecord_tagged hw
    exact ⟨u, htook, congrArg Res.outcome hread⟩
  case literal =>
    obtain ⟨u, htook, hread⟩ := readRecord_literal hw
    exact ⟨u, htook, congrArg Res.outcome hread⟩
  case reference =>
    obtain ⟨u, htook, hread⟩ := readRecord_reference (fieldWidthOk_of_bounds hb1 hb32) (fieldWidthOk_of_bounds hm1 hm32) hp hl
      hin hw
    exact ⟨u, htook, congrArg Res.outcome hread⟩
  case failed =>
    obtain ⟨u, honly, hread⟩ := readRecord_failed hw
    exact ⟨u, _, honly, congrArg Res.outcome hread, raiseError_from _ _⟩

/-! ## D_WRITE_DECODED -/

/-- `write_all` with a sink that is willing, or willing for as long as it takes (R42). -/
theorem snkWriteAll_all {seg : List Byte} {s : State}
    (h : SinkWilling s ∨ ∃ rest, s.ports.snkAns = List.replicate seg.length .ok ++ rest) :
    ∃ u, snkWriteAll seg s = .ok () u ∧ OnlyWrote s u ∧ u.writer = s.writer ∧ u.ports.snk = s.ports.snk ++ seg := by
  obtain hwilling | ⟨rest, hrest⟩ := h
  · obtain ⟨u, hu, honly, hwriter, hsnk, -⟩ := snkWriteAll_willing seg hwilling
    exact ⟨u, hu, honly, hwriter, hsnk⟩
  · exact ⟨_, snkWriteAll_takes hrest, rfl, rfl, rfl⟩

/-- Settles O50: all of `write_all` and then the law of the push, or the part of it before the failing byte and no push. -/
theorem writeDecodedFillsSinkThenHistory : Obligations.WriteDecodedFillsSinkThenHistory := by
  refine fun seg s hwf hwlen => ⟨fun hsink => ?all, fun k rest hans hk => ?part⟩
  case all =>
    obtain ⟨u, hu, honly, hwriter, hsnk⟩ := snkWriteAll_all hsink
    obtain ⟨hpwf, hphist, -, hphlen, hpwlen, hpwcap⟩ := Memory.push_spec hwf hwlen seg s.params.h
    refine ⟨u, s.mem.push seg s.params.h, honly, hwriter, hsnk, ?_, hpwf, hphist, hphlen, hpwlen, hpwcap⟩
    rw [exec_dWriteDecoded, deliverSegment, hu, ← honly.mem, ← honly.params]
    rfl
  case part =>
    refine ⟨s.setPorts { s.ports with snk := s.ports.snk ++ seg.take k, snkAns := rest }, _, rfl, rfl, rfl, rfl, ?_,
      raiseError_from _ _⟩
    rw [exec_dWriteDecoded, deliverSegment, snkWriteAll_fails hans hk]
    rfl

/-! ## D_INIT -/

theorem needField_bind (r : Res ReadResult) (use : Nat → State → Res Unit) (f : Unit → State → Res Unit) :
    (needField r use).bind f = needField r fun v s => (use v s).bind f := by
  cases r with
  | ok a t => cases a <;> rfl
  | raised t => rfl
  | refused e => rfl

/-- Priming bytes in two parts (R107). -/
theorem readPriming_add (m n : Nat) (s : State) :
    readPriming (m + n) s = (readPriming m s).bind fun _ t => readPriming n t := by
  induction m generalizing s with
  | zero => rw [Nat.zero_add]; rfl
  | succ m ih =>
    rw [Nat.succ_add, readPriming, readPriming, needField_bind]
    congr 1
    funext v t
    cases deliverByte (BitVec.ofNat 8 v) t with
    | ok a u => exact ih u
    | raised u => rfl
    | refused e => rfl

/-- `s` with `bs` in the sink and at the end of the history, and `ans` the sink's answers from then on (R107). -/
def withPriming (bs : List Byte) (ans : List SnkAnswer) (s : State) : State :=
  (s.setMem { s.mem with buf := s.mem.buf ++ bs, hlen := s.mem.hlen + bs.length }).setPorts
    { s.ports with snk := s.ports.snk ++ bs, snkAns := ans }

section
variable (bs : List Byte) (ans : List SnkAnswer) (s : State)

@[simp] theorem withPriming_hlen : (withPriming bs ans s).mem.hlen = s.mem.hlen + bs.length := rfl

@[simp] theorem withPriming_params : (withPriming bs ans s).params = s.params := rfl

@[simp] theorem withPriming_reader : (withPriming bs ans s).reader = s.reader := rfl

@[simp] theorem withPriming_snk : (withPriming bs ans s).ports.snk = s.ports.snk ++ bs := rfl

@[simp] theorem wireBits_withPriming : wireBits (withPriming bs ans s) = wireBits s := rfl

end

/-- Nothing delivered changes nothing. -/
theorem withPriming_nil (s : State) : withPriming [] s.ports.snkAns s = s := by
  simp [withPriming, State.setMem, State.setPorts]

/-- A byte the sink takes, below the capacity (R107). -/
theorem deliverByte_takes {b : Byte} {s : State} {ans : List SnkAnswer} (hfit : s.mem.hlen + 1 ≤ s.params.h)
    (h : SinkTakes s ans) : deliverByte b s = .ok () (withPriming [b] ans s) := by
  rw [deliverByte, snkWrite_takes h, Res.bind_ok, pushHistory, State.setPorts_mem, State.setPorts_params,
    Memory.push_of_fits (by rw [List.length_singleton]; exact hfit)]
  rfl

/-- Taking, delivering a byte, taking again: the byte delivered by a state that has taken all the bits. -/
theorem Took.thenPriming {m n : Nat} {s t u : State} {b : Byte} {ans : List SnkAnswer} (h : Took m s t)
    (k : Took n (withPriming [b] ans t) u) (bs : List Byte) (ans' : List SnkAnswer) :
    ∃ v, Took (m + n) s v ∧ withPriming bs ans' u = withPriming (b :: bs) ans' v := by
  refine ⟨(u.setMem s.mem).setPorts { u.ports with snk := s.ports.snk, snkAns := s.ports.snkAns },
    ⟨?_, ?_, ?_, ?_, ?_⟩, ?_⟩
  · obtain ⟨r, p, e, ht⟩ := h.only.parts
    obtain ⟨r', p', e', hu⟩ := k.only.parts
    simp only [OnlyRead, hu, ht, withPriming, State.setReader, State.setPorts, State.setSrcEof, State.setMem]
  · exact k.wire.trans (by rw [wireBits_withPriming, h.wire, List.drop_drop])
  · exact k.count.trans ((congrArg (· + n) h.count).trans (Nat.add_assoc _ _ _))
  · exact fun r => k.reader (h.reader r)
  · exact fun r => (k.lazy (h.reader r)).elim .inl fun e => (h.lazy r).imp (fun hlt => e ▸ hlt) e.trans
  · obtain ⟨r, p, e, ht⟩ := h.only.parts
    obtain ⟨r', p', e', hu⟩ := k.only.parts
    simp [hu, ht, withPriming, State.setReader, State.setPorts, State.setSrcEof, State.setMem, Nat.add_assoc, Nat.add_comm 1]

/-- A willing sink stays willing behind the answer it gives. -/
theorem SinkTakes.willing {s : State} {ans : List SnkAnswer} (h : SinkTakes s ans) (hs : SinkWilling s) (bs : List Byte)
    (t : State) : SinkWilling (withPriming bs ans t) := by
  obtain h | ⟨-, rfl⟩ := h
  · exact fun a ha => hs a (by rw [h]; exact List.mem_cons_of_mem _ ha)
  · exact fun a ha => absurd ha List.not_mem_nil

/-- One turn of D_INIT with a willing sink and room in the history (R107). -/
theorem readPriming_turn {s : State} (hwilling : SinkWilling s) (hfit : s.mem.hlen + 1 ≤ s.params.h)
    (henough : 8 ≤ (wireBits s).1.length) :
    ∃ b t ans, byteBits b = (wireBits s).1.take 8 ∧ Took 8 s t ∧ SinkWilling (withPriming [b] ans t) ∧
      ∀ n, readPriming (n + 1) s = readPriming n (withPriming [b] ans t) := by
  obtain ⟨t, ht, htook⟩ := needField_val (n := 8) rfl henough
  obtain ⟨ans, htakes⟩ := (htook.only.willing hwilling).takes
  refine ⟨_, t, ans, byteBits_bitsByte (List.length_take_of_le henough), htook,
    htakes.willing (htook.only.willing hwilling) _ t, fun n => ?_⟩
  rw [readPriming, readByte, ht, deliverByte_takes (by rw [htook.only.mem, htook.only.params]; exact hfit) htakes]
  rfl

/-- The loop of D_INIT on bits that suffice, with a willing sink and room in the history (R107). -/
theorem readPriming_whole {n : Nat} {s : State} (hwilling : SinkWilling s) (hfit : s.mem.hlen + n ≤ s.params.h)
    (henough : 8 * n ≤ (wireBits s).1.length) :
    ∃ bs u ans, readPriming n s = .ok () (withPriming bs ans u) ∧ Took (8 * n) s u ∧ bs.length = n ∧
      bytesBits bs = (wireBits s).1.take (8 * n) := by
  induction n generalizing s with
  | zero => exact ⟨[], s, _, by rw [withPriming_nil]; rfl, Took.refl s, rfl, by simp⟩
  | succ n ih =>
    obtain ⟨b, t, ans, hb, htook, hwilling', hturn⟩ := readPriming_turn hwilling (by omega) (by omega)
    have hwire : wireBits (withPriming [b] ans t) = ((wireBits s).1.drop 8, (wireBits s).2) := htook.wire
    have hroom : (withPriming [b] ans t).mem.hlen + n ≤ (withPriming [b] ans t).params.h := by
      rw [withPriming_hlen, withPriming_params, htook.only.mem, htook.only.params, List.length_singleton]
      omega
    obtain ⟨bs, u, ans', hu, hutook, hlen, hbits⟩ := ih hwilling' hroom (by rw [hwire, List.length_drop]; omega)
    obtain ⟨v, hvtook, hsame⟩ := htook.thenPriming hutook bs ans'
    refine ⟨b :: bs, v, ans', ?_, ?_, congrArg (· + 1) hlen, ?_⟩
    · rw [hturn, hu, hsame]
    · rwa [Nat.mul_succ, Nat.add_comm]
    · rw [bytesBits_cons, hbits, hb, hwire, ← List.take_add, Nat.mul_succ, Nat.add_comm]

/-- The loop of D_INIT on bits that do not suffice: the whole bytes are delivered before the last read raises (R107, R113,
R120). -/
theorem readPriming_short {n : Nat} {s : State} (hwilling : SinkWilling s) (hfit : s.mem.hlen + n ≤ s.params.h)
    (hshort : (wireBits s).1.length < 8 * n) :
    ∃ bs u, readPriming n s = .raised (raiseError (shortError (wireBits s).2) u) ∧ bytesBits bs <+: (wireBits s).1 ∧
      bs.length = (wireBits s).1.length / 8 ∧ u.ports.snk = s.ports.snk ++ bs ∧
      u.reader.bitsRead = s.reader.bitsRead + (wireBits s).1.length := by
  obtain ⟨m, hm⟩ : ∃ m, n = (wireBits s).1.length / 8 + (m + 1) := ⟨n - (wireBits s).1.length / 8 - 1, by omega⟩
  obtain ⟨bs, t, ans, ht, htook, hlen, hbits⟩ := readPriming_whole (n := (wireBits s).1.length / 8) hwilling (by omega)
    (by omega)
  have hwire : wireBits (withPriming bs ans t) = _ := htook.wire
  obtain ⟨u, hu, honly, hcount⟩ := needField_short (n := 8) (s := withPriming bs ans t) rfl
    (by rw [hwire, List.length_drop]; omega)
  refine ⟨bs, u, ?_, hbits ▸ List.take_prefix _ _, hlen, ?_, ?_⟩
  · rw [hm, readPriming_add, ht, Res.bind_ok, readPriming, readByte, hu, hwire]
  · rw [honly.snk, withPriming_snk, htook.only.snk]
  · rw [hcount, withPriming_reader, htook.count, hwire, List.length_drop]
    omega

/-- Settles O46: the loop of D_INIT on enough bits, on too few, and with a sink that fails at a byte. -/
theorem initPrimesHistoryAndSink : Obligations.InitPrimesHistoryAndSink := by
  intro s hmem hfit
  have hroom : s.mem.hlen + s.params.wc ≤ s.params.h := by rw [hmem]; simpa using hfit
  refine ⟨fun hwilling henough => ?whole, fun hwilling hshort => ?short, fun k rest hans hk henough => ?sinkFails⟩
  case whole =>
    obtain ⟨bs, u, ans, hread, htook, hlen, hbits⟩ := readPriming_whole hwilling hroom henough
    refine ⟨bs, (withPriming bs ans u).setCtl .dReadRecord, hbits, by rw [exec_dInit, hread]; rfl, ?_, htook.wire, htook.count,
      fun hr => ⟨htook.reader hr, htook.lazy hr⟩⟩
    obtain ⟨r, p, e, hu⟩ := htook.only.parts
    simp [hu, withPriming, State.setReader, State.setPorts, State.setSrcEof, State.setMem, State.setCtl, hmem, hlen]
  case short =>
    obtain ⟨bs, u, hread, hstart, hlen, hsnk, hcount⟩ := readPriming_short hwilling hroom hshort
    exact ⟨bs, u, _, hstart, hlen, by rw [exec_dInit, hread]; rfl, raiseError_from _ _, hsnk, hcount⟩
  case sinkFails =>
    obtain ⟨bs, u, hread, hbits, hsnk, hrest, hcount⟩ := readPriming_fails hans hk henough
    exact ⟨bs, u, _, hbits, by rw [exec_dInit, hread]; rfl, raiseError_from _ _, hsnk, hrest, hcount⟩

end Sys2Proof.Machine
end

section
/-! PROOFS. A resting block and the ways out of rest (R17, R19, R137): STATUS, the stop after RAISE, and ERROR and DONE left by
START and by reset only (R21, R122, R123, R128). -/

namespace Sys2Proof.Machine

/-! ## The resting block -/

/-- BUSY is 0 in IDLE, DONE and ERROR only (R19). -/
theorem Ctl.busy_eq_false_iff {c : Ctl} : c.busy = false ↔ c = .idle ∨ c = .done ∨ c = .error := by
  cases c <;> decide

/-- At rest STATE names no instruction (R17, R137). -/
theorem nextInstr_of_not_busy {s : State} (h : s.busy = false) : nextInstr s = none := by
  obtain hc | hc | hc := Ctl.busy_eq_false_iff.1 h <;> rw [nextInstr, hc]

/-- At rest the engine does nothing (R122, R137). -/
theorem engineStep_of_not_busy {s : State} (h : s.busy = false) : engineStep s = .next s :=
  engineStep_of_rest (nextInstr_of_not_busy h)

/-- The host's actions at rest: STATE stays, but for a reset and for START, which begins a call (R20, R22, R128, R138). -/
theorem hostStep_ctl_of_not_busy {s t : State} {e : HostEvent} (hb : s.busy = false) (h : hostStep e s = .next t) :
    t.ctl = s.ctl ∨ (e = .reset ∨ ∃ reads writes, e = .resetDuring reads writes) ∨ e = .start ∧ t = startCall s := by
  have write {c : HostRegs} (hw : hostStep e s = .next (hostWrite s c)) : t.ctl = s.ctl := by
    rw [hw, hostWrite_of_rest hb] at h
    cases h
    rfl
  cases e with
  | engineTurn =>
    obtain rfl : s = t := Host.Outcome.next.inj ((engineStep_of_not_busy hb).symm.trans h)
    exact .inl rfl
  | writeCfgHb v => exact .inl (write rfl)
  | writeCfgMlb v => exact .inl (write rfl)
  | writeCfgSd v => exact .inl (write rfl)
  | writeCmd c => exact .inl (write rfl)
  | attach src ans =>
    obtain rfl := Host.Outcome.next.inj ((hostAttach_of_rest hb src ans).symm.trans h)
    exact .inl rfl
  | start =>
    obtain rfl := Host.Outcome.next.inj ((exec_commandInstr_of_rest hb s.cfg.cmd).symm.trans h)
    exact .inr (.inr ⟨rfl, rfl⟩)
  | reset => exact .inr (.inl (.inl rfl))
  | resetDuring reads writes => exact .inr (.inl (.inr ⟨reads, writes, rfl⟩))

/-! ## The obligations -/

/-- Settles O10: STATE by STATE, the three flags give the one bit of STATUS; the codes are the definition of `ErrCode.code`. -/
theorem statusWordFollowsState : Obligations.StatusWordFollowsState := by
  refine ⟨fun s => ?_, rfl, rfl, rfl, rfl, rfl⟩
  simp only [State.status, State.errorF, State.doneF, State.busy]
  cases s.ctl <;> rfl

/-- Settles O13: RAISE is `raiseError`, and in ERROR the engine does nothing. -/
theorem raiseEntersError : Obligations.RaiseEntersError := by
  intro e s
  refine ⟨raiseError e s, rfl, rfl, rfl, raiseError_writer e s, rfl, rfl, rfl, rfl, rfl, rfl, rfl, rfl, rfl, rfl, fun hs => ?_⟩
  exact (step_of_silent ((raiseError_host e s).trans hs)).trans (engineStep_of_not_busy rfl)

/-- Settles O14: in ERROR and DONE the block rests, so a step is an idle turn of the engine or a host action at rest. -/
theorem onlyStartAndResetLeaveError : Obligations.OnlyStartAndResetLeaveError := by
  intro s t hc ht
  have hb : s.busy = false := Ctl.busy_eq_false_iff.2 (.inr hc.symm)
  cases hs : s.host with
  | nil =>
    rw [step_of_silent hs, engineStep_of_not_busy hb] at ht
    cases ht
    exact .inl rfl
  | cons e rest =>
    rw [step_of_host hs] at ht
    obtain hkeep | (rfl | ⟨reads, writes, rfl⟩) | ⟨rfl, rfl⟩ := hostStep_ctl_of_not_busy (s := s.setHost rest) hb ht
    · exact .inl hkeep
    · exact .inr (.inl ⟨rest, .inl rfl⟩)
    · exact .inr (.inl ⟨rest, .inr ⟨reads, writes, rfl⟩⟩)
    · exact .inr (.inr ⟨rest, rfl, rfl, rfl, rfl, rfl⟩)

end Sys2Proof.Machine
end

section
/-! PROOFS. Reset and rest (R136, R137): a reset between two controller steps, a reset inside one (R130, R144; log 33), and the
block that waits. -/

namespace Sys2Proof.Machine

/-! ## Rest, and a reset between two steps -/

/-- Settles O15: a silent step is one of the engine, which does nothing at rest. -/
theorem restingBlockWaits : Obligations.RestingBlockWaits :=
  fun _ hb hs => (step_of_silent hs).trans (engineStep_of_not_busy hb)

/-- Settles O7: the step is `resetBlock`, whose registers are those of `State.reset`. -/
theorem resetWorksInAnyState : Obligations.ResetWorksInAnyState :=
  fun _ _ hs => ⟨_, step_of_host hs, rfl, rfl, rfl, rfl, rfl, rfl, rfl, rfl, rfl, rfl, rfl, rfl, rfl⟩

/-! ## The ports, cut and mended -/

/-- Ports that no transaction was made on are mended to what they were (log 33). -/
theorem Ports.mend_cut (p : Ports) (reads writes : Nat) : p.mend (p.cut reads writes) reads writes = p := by
  simp [Ports.mend, Ports.cut]

/-- A source asked for more answers than it lists holds the same bits when it is cut (log 33). -/
theorem wireBits_cut {s : State} {reads : Nat} (h : s.ports.src.length < reads) (writes : Nat) :
    wireBits (s.setPorts (s.ports.cut reads writes)) = wireBits s := by
  simp only [wireBits, State.setPorts_srcEof, State.setPorts_reader, State.setPorts_ports, Ports.cut_source h]

/-! ## The part of a step before the reset -/

section
variable (reads writes : Nat) (s : State)

theorem partOfStep_host : (partOfStep reads writes s).host = s.host := by
  obtain h | ⟨t, ht, h⟩ := partOfStep_cases reads writes s
  · rw [h]
  · rw [h]
    exact (engineStep_stays ht).host

theorem partOfStep_snk : s.ports.snk <+: (partOfStep reads writes s).ports.snk := by
  obtain h | ⟨t, ht, h⟩ := partOfStep_cases reads writes s
  · rw [h]
  · rw [h]
    exact (engineStep_stays ht).snk

/-- At most `reads` answers of the source are used (log 33). -/
theorem partOfStep_src : ∃ k, k ≤ reads ∧ (partOfStep reads writes s).ports.src = s.ports.src.drop k := by
  obtain h | ⟨t, -, h⟩ := partOfStep_cases reads writes s
  · exact ⟨0, Nat.zero_le _, by rw [h, List.drop_zero]⟩
  · exact ⟨_, Nat.min_le_left _ _, congrArg (·.ports.src) h⟩

/-- At most `writes` answers of the sink are used (log 33). -/
theorem partOfStep_snkAns : ∃ k, k ≤ writes ∧ (partOfStep reads writes s).ports.snkAns = s.ports.snkAns.drop k := by
  obtain h | ⟨t, -, h⟩ := partOfStep_cases reads writes s
  · exact ⟨0, Nat.zero_le _, by rw [h, List.drop_zero]⟩
  · exact ⟨_, Nat.min_le_left _ _, congrArg (·.ports.snkAns) h⟩

/-- At rest there is no step to cut short (R137). -/
theorem partOfStep_ports_of_not_busy (hb : s.busy = false) : (partOfStep reads writes s).ports = s.ports := by
  rw [partOfStep_next (engineStep_of_not_busy hb)]
  exact s.ports.mend_cut reads writes

end

theorem RaisedFrom.ports {e : ErrorClass} {s t : State} (h : RaisedFrom e s t) : t.ports = s.ports := by
  rw [RaisedFrom, SameButDiscarded] at h
  rw [h]
  rfl

/-- D_WRITE_DECODED with a sink that fails inside the segment, whatever the buffer holds (R111, R120). -/
theorem exec_dWriteDecoded_fails {seg : List Byte} {s : State} {k : Nat} {rest : List SnkAnswer}
    (hans : s.ports.snkAns = List.replicate k .ok ++ .fail :: rest) (hk : k < seg.length) :
    ∃ u, exec (.dWriteDecoded seg) s = .next (raiseError .ioError u) ∧ u.ports.snk = s.ports.snk ++ seg.take k :=
  ⟨_, by rw [exec_dWriteDecoded, deliverSegment, snkWriteAll_fails hans hk]; rfl, rfl⟩

section
variable {reads writes : Nat} {s : State}

/-- Where the step runs into the cut and raises, its part left the sink as the raise found it (R122). -/
theorem partOfStep_snk_of_raised {i : Instr} {e : ErrorClass} {u t : State} (hi : nextInstr s = some i)
    (ht : exec i (s.setPorts (s.ports.cut reads writes)) = .next t) (hraised : RaisedFrom e u t) :
    (partOfStep reads writes s).ports.snk = u.ports.snk := by
  have hi' : nextInstr (s.setPorts (s.ports.cut reads writes)) = some i := hi
  rw [partOfStep_next ((engineStep_of_instr hi').trans ht), ← hraised.ports]
  rfl

variable (hwilling : SinkWilling s)
include hwilling

/-- D_WRITE_DECODED cut inside its segment (R111). -/
theorem partOfStep_snk_of_dWriteDecoded (hc : s.ctl = .dWriteDecoded) (hw : writes < (decodedSegment s).length) :
    (partOfStep reads writes s).ports.snk = s.ports.snk ++ (decodedSegment s).take writes := by
  obtain ⟨u, ht, hsnk⟩ := exec_dWriteDecoded_fails (s := s.setPorts (s.ports.cut reads writes))
    (Ports.cut_willing hwilling reads writes) hw
  rw [partOfStep_snk_of_raised (nextInstr_of_segment hc) ht (raiseError_from _ _), hsnk]
  rfl

/-- E_PRIME_HISTORY cut before the last byte that its bits complete (R97). -/
theorem partOfStep_snk_of_ePrimeHistory (hc : s.ctl = .ePrimeHistory) (hok : WriterOk s)
    (hw : writes < completedBytes s (bytesBits s.mem.hist)) :
    bytesBits (partOfStep reads writes s).ports.snk =
      (outBits s ++ bytesBits s.mem.hist).take (8 * (s.ports.snk.length + writes)) := by
  obtain ⟨u, t, ht, -, -, hbits, hraised⟩ := (primeHistoryEmitsTheHistory (s.setPorts (s.ports.cut reads writes))).fails hok
    writes [] (Ports.cut_willing hwilling reads writes) hw
  rw [partOfStep_snk_of_raised (by rw [nextInstr, hc]) ht hraised]
  exact hbits

/-- D_INIT cut at the sink, the source not cut before (R107). -/
theorem partOfStep_snk_of_dInit (hc : s.ctl = .dInit) (hmem : FreshBuffer s) (hfit : s.params.wc ≤ s.params.h)
    (hr : s.ports.src.length < reads) (hw : writes < s.params.wc) (henough : 8 * (writes + 1) ≤ (wireBits s).1.length) :
    bytesBits (partOfStep reads writes s).ports.snk = bytesBits s.ports.snk ++ (wireBits s).1.take (8 * writes) := by
  obtain ⟨-, -, hsink⟩ := initPrimesHistoryAndSink (s.setPorts (s.ports.cut reads writes)) hmem hfit
  obtain ⟨bs, u, t, hbits, ht, hraised, hsnk, -⟩ := hsink writes [] (Ports.cut_willing hwilling reads writes) hw
    (by rwa [wireBits_cut hr])
  rw [wireBits_cut hr] at hbits
  rw [partOfStep_snk_of_raised (by rw [nextInstr, hc]) ht hraised, hsnk, bytesBits_append, hbits]
  rfl

end

/-- Settles O60: the registers are those of `State.reset`, and the ports are as the part of the step left them. -/
theorem resetWorksInsideAStep : Obligations.ResetWorksInsideAStep := by
  intro s r w rest hs
  refine ⟨resetDuring r w (s.setHost rest), step_of_host hs, rfl, rfl, rfl, rfl, rfl, rfl, rfl, rfl, rfl, rfl,
    partOfStep_host r w (s.setHost rest), partOfStep_snk r w (s.setHost rest), partOfStep_src r w (s.setHost rest),
    partOfStep_snkAns r w (s.setHost rest), partOfStep_ports_of_not_busy r w (s.setHost rest), fun hwilling => ⟨?_, ?_, ?_⟩⟩
  · exact partOfStep_snk_of_dWriteDecoded (s := s.setHost rest) hwilling
  · exact partOfStep_snk_of_ePrimeHistory (s := s.setHost rest) hwilling
  · exact partOfStep_snk_of_dInit (s := s.setHost rest) hwilling

end Sys2Proof.Machine
end
